-- ==== Sys2Proof/Word.lean ====
section
/-!
DEFINITION. The word types of the block: bytes (00_scope.md R9), addresses of `ADDR_W` = 16 bits
(00_scope.md R8) and the 32-bit scalars of the operand records (30_encoding.md R91).
-/

namespace Sys2Proof

/-- A data register, a byte moved on the bus or the line, a byte of memory (R9). -/
abbrev Byte := BitVec 8

/-- A buffer address or a progress count: `ADDR_W` = 16 bits, wrapping (R8, R10). -/
abbrev Addr := BitVec 16

/-- `cpuClockHz`, `bitRate` and `baud`: 32 bits (R91). -/
abbrev Word32 := BitVec 32

end Sys2Proof
end

