-- ==== Sys2Proof/Config.lean ====
section
/-!
DEFINITION. The implementation parameters of 00_scope.md R8. A parameter with a value is a definition; one the spec
leaves OPEN is either a field of `Params`, which State carries unchanged so that a statement about every state holds for
every value of it, or an uninterpreted constant with no body.
-/

namespace Sys2Proof.Config

/-- `PROGRESS_READ_ORDER` (R8, 20_memory.md R78): which byte of a split progress read is read first. -/
inductive ProgressReadOrder where
  | lowFirst
  | highFirst
  deriving DecidableEq, Repr, Inhabited

/-- The bus phases that 30_encoding.md R101 names, in the order of its table. -/
inductive StatusPhase where
  /-- Start condition sent. -/
  | start
  /-- Repeated start condition sent. -/
  | repStart
  /-- SLA+W sent, ACK received. -/
  | slaWAck
  /-- SLA+W sent, NACK received. -/
  | slaWNack
  /-- Data byte sent, ACK received. -/
  | dataWAck
  /-- Data byte sent, NACK received. -/
  | dataWNack
  /-- Arbitration lost. -/
  | arbLost
  /-- SLA+R sent, ACK received. -/
  | slaRAck
  /-- SLA+R sent, NACK received. -/
  | slaRNack
  /-- Data byte received, ACK returned. -/
  | dataRAck
  /-- Data byte received, NACK returned. -/
  | dataRNack
  /-- Bus error. -/
  | busError
  /-- No relevant state information. -/
  | noInfo
  deriving DecidableEq, Repr

/-- `STATUS_TABLE` (R8, R101): the numeric value of each named bus phase, as the masked status value shows it. -/
structure StatusTable where
  start : Byte
  repStart : Byte
  slaWAck : Byte
  slaWNack : Byte
  dataWAck : Byte
  dataWNack : Byte
  arbLost : Byte
  slaRAck : Byte
  slaRNack : Byte
  dataRAck : Byte
  dataRNack : Byte
  busError : Byte
  noInfo : Byte
  deriving DecidableEq, Repr, Inhabited

/-- The code of a phase. -/
def StatusTable.code (t : StatusTable) : StatusPhase → Byte
  | .start => t.start
  | .repStart => t.repStart
  | .slaWAck => t.slaWAck
  | .slaWNack => t.slaWNack
  | .dataWAck => t.dataWAck
  | .dataWNack => t.dataWNack
  | .arbLost => t.arbLost
  | .slaRAck => t.slaRAck
  | .slaRNack => t.slaRNack
  | .dataRAck => t.dataRAck
  | .dataRNack => t.dataRNack
  | .busError => t.busError
  | .noInfo => t.noInfo

/-- The default of `STATUS_TABLE`: the codes of R101. -/
def defaultStatusTable : StatusTable where
  start := 0x08
  repStart := 0x10
  slaWAck := 0x18
  slaWNack := 0x20
  dataWAck := 0x28
  dataWNack := 0x30
  arbLost := 0x38
  slaRAck := 0x40
  slaRNack := 0x48
  dataRAck := 0x50
  dataRNack := 0x58
  busError := 0x00
  noInfo := 0xF8

/-- The OPEN parameters that a rule of the block reads and that are plain data (R8). They are constant over a run:
no step changes them. -/
structure Params where
  /-- `PRESC`: the bits 2:0 of every status value (R8, 41_i2c_event_engine.md R157). -/
  presc : BitVec 3
  /-- `BUS_STRICT`: the bus is held to the conforming answers of 41_i2c_event_engine.md R158. -/
  busStrict : Bool
  /-- `PROGRESS_READ_ATOMIC`: a progress read is one step (20_memory.md R78). -/
  progressReadAtomic : Bool
  /-- `PROGRESS_READ_ORDER`: the order of the two byte reads of a split progress read. -/
  progressReadOrder : ProgressReadOrder
  /-- `STATUS_TABLE`: the numeric values of the bus phases (30_encoding.md R101, 92_eei_decisions.md D4). -/
  statusTable : StatusTable
  deriving DecidableEq, Repr, Inhabited

/-- The defaults of R8. DESIGN CHOICE (log entry 5): R8 gives `PROGRESS_READ_ORDER` no default. -/
def defaultParams : Params where
  presc := 0
  busStrict := false
  progressReadAtomic := false
  progressReadOrder := .lowFirst
  statusTable := defaultStatusTable

/-- `N_UART` at `State.reset`. DESIGN CHOICE (log entry 4): R8 leaves it OPEN, at least 1. -/
def nUart : Nat := 1

/-- `STATUS_MASK` (R8, 30_encoding.md R100). -/
def statusMask : Byte := 0xF8

/-- `DIV_W` (R8, 42_uart_foreground.md R190). -/
def divWidth : Nat := 12

/-- `BAUD_MULT` (R8): 16 at normal speed, 8 at double speed. -/
def baudMult (doubleSpeed : Bool) : Nat := if doubleSpeed then 8 else 16

/-- The eight actions of the I2C event handler (41_i2c_event_engine.md R144 to R151). -/
inductive Action where
  | a1 | a2 | a3 | a4 | a5 | a6 | a7 | a8
  deriving DecidableEq, Repr

/-- What a byte of the caller's memory that nothing has written reads as. DESIGN CHOICE (log entry 3): the spec gives
the caller's memory no initial contents. -/
def unlistedByte : Byte := 0

/-- `I2C_BITRATE` (R8, 40_i2c_foreground.md R120), OPEN: the bit-rate register value for `cpuClockHz` and `bitRate`.
Its range is OPEN too, hence a natural number. Nothing constrains it (log entry 6). -/
opaque i2cBitRate : Word32 → Word32 → Nat

/-- `REG_MAP` (R8, 20_memory.md R85), OPEN: the address of a peripheral register, numbered by unit and register, in the
host's I/O space. No rule of the block reads it (log entry 6). -/
opaque regMap : Nat → Nat → Nat

end Sys2Proof.Config
end

