-- ==== Sys2Proof/Machine/State.lean ====
section
/-!
DEFINITION. The state of the block, every field 10_state.md gives it, as plain data; what a step can end in; the values
that stay open after caller misuse; and the state after reset.

The last five fields of `State` are the model's own, not the spec's: the operations the foreground has still to issue
and the steps of the other agents (10_state.md R20, 00_scope.md R13), the first half of a split progress read
(20_memory.md R78), the value the last operation returned (30_encoding.md R90, column "result") and a count of the
draws made for the open values after misuse.
-/

namespace Sys2Proof.Machine

open Sys2Proof

/-- `i2c.state` (10_state.md R23). No step enters `error` (90_conflicts.md C1). -/
inductive EngineState where
  | idle
  | masterWriting
  | masterReading
  | error
  deriving DecidableEq, Repr, Inhabited

/-- A re-arming drive command the bus has not answered yet (R29). -/
inductive BusCommand where
  | start
  | send
  | recvAck
  | recvNack
  deriving DecidableEq, Repr, Inhabited

/-- The six drive commands (30_encoding.md R104): four re-arm the bus, `stop` and `hold` end the transaction. -/
inductive DriveCommand where
  | rearm (c : BusCommand)
  | stop
  | hold
  deriving DecidableEq, Repr, Inhabited

/-- The acknowledge level of one byte (00_scope.md R14). -/
inductive Ack where
  | ack
  | nack
  deriving DecidableEq, Repr, Inhabited

/-- A symbol of the bus trace (41_i2c_event_engine.md R161). -/
inductive BusSymbol where
  /-- `S`. -/
  | start
  /-- `Sr`. -/
  | repStart
  /-- `W(b, a)`: the master sent `b` and the receiver answered `a`. -/
  | wrote (b : Byte) (a : Ack)
  /-- `R(b, a)`: the master received `b` and answered `a`. -/
  | received (b : Byte) (a : Ack)
  /-- `P`. -/
  | stop
  /-- `AL`. -/
  | arbLost
  /-- `BE`. -/
  | busError
  /-- `X(k)`: a non-conforming code. -/
  | other (k : Byte)
  deriving DecidableEq, Repr, Inhabited

/-- A span of the caller's memory (R27). `limit` is the spec's `end`, one past the last byte. -/
structure TransferBuffer where
  start : Addr
  cursor : Addr
  limit : Addr
  deriving DecidableEq, Repr, Inhabited

/-- A raised and unhandled I2C event: the status register and the data register at the event (R29). -/
structure BusEvent where
  status : Byte
  data : Byte
  deriving DecidableEq, Repr, Inhabited

/-- The I2C context (R22), its peripheral registers (R28) and the hidden bus side (R29). -/
structure I2c where
  /-- `i2c.state` (R23). -/
  state : EngineState
  /-- `i2c.lastStatus` (R24). -/
  lastStatus : Byte
  /-- `i2c.flags` (R25, 30_encoding.md R94). -/
  flags : Byte
  /-- `i2c.sla` (R26). -/
  sla : Byte
  /-- `i2c.buf` (R27). -/
  buf : TransferBuffer
  /-- `i2c.dr` (R28). -/
  dr : Byte
  /-- `i2c.bitRate` (R28): its range is OPEN, hence a natural number. -/
  bitRate : Nat
  /-- `i2c.enabled` (R28). -/
  enabled : Bool
  /-- `i2c.cmd` (R29). -/
  cmd : Option BusCommand
  /-- `i2c.event` (R29). -/
  event : Option BusEvent
  /-- `i2c.busOwned` (R29). -/
  busOwned : Bool
  /-- `i2c.addrPhase` (R29). -/
  addrPhase : Bool
  /-- `i2c.trace` (R29, R161): an observation no rule reads. -/
  trace : List BusSymbol
  deriving DecidableEq, Repr, Inhabited

/-- `uart[u].txMode` and `uart[u].rxMode` (R31). No step sets `rxMode` to `auto` (30_encoding.md R99). -/
inductive UartMode where
  | disabled
  | manual
  | auto
  deriving DecidableEq, Repr, Inhabited

/-- `uart[u].stopBits` (R32). -/
inductive StopBits where
  | one
  | two
  deriving DecidableEq, Repr, Inhabited

/-- The context (R30), configuration (R32), data path (R33) and event and line state (R34) of one UART unit. -/
structure Uart where
  /-- `registerBase`, the unit index, fixed per context (R30). -/
  registerBase : Nat
  txMode : UartMode
  rxMode : UartMode
  txBuf : TransferBuffer
  /-- Reserved for auto receive: nothing writes or reads it (R30). -/
  receiveBuffer : TransferBuffer
  divisor : BitVec 12
  doubleSpeed : Bool
  stopBits : StopBits
  txEn : Bool
  rxEn : Bool
  txIe : Bool
  rxIe : Bool
  /-- The transmit data register, `none` when empty (R33). -/
  txData : Option Byte
  /-- The byte being shifted onto the line (R33). -/
  txShift : Option Byte
  rxData : Byte
  rxFull : Bool
  txEvt : Bool
  rxEvt : Bool
  /-- Every byte sent on the line (R34): an observation no rule reads. -/
  lineOut : List Byte
  deriving DecidableEq, Repr, Inhabited

/-- The caller's byte memory (20_memory.md R70): (address, byte) pairs in the canonical form `Memory.wf`. -/
abbrev Memory := List Host.Cell

/-- The name of a misuse condition, `fault.info` (60_exceptions.md R263). -/
inductive Misuse where
  | startWhileBusy
  | notInitialised
  | initWhileBusy
  | txDisabled
  | overrun
  | streamActive
  | notAutoMode
  | noData
  | bufferInUse
  deriving DecidableEq, Repr, Inhabited

/-- One operation of the foreground: a command word with its operand record, or an access of the foreground to the
caller's memory (20_memory.md R76). -/
inductive ForegroundOp where
  | command (words : List Byte)
  | memRead (addr : Addr)
  | memWrite (addr : Addr) (value : Byte)
  deriving DecidableEq, Repr, Inhabited

/-- A step of one agent (00_scope.md R13) with the free inputs of that step, or of the platform that owns `gie`
(10_state.md R36). A list of these is one interleaving (20_memory.md R80). -/
inductive Turn where
  /-- `FG`: the next operation of the foreground, or the second half of a split read. -/
  | foreground
  /-- `I2C_H`. -/
  | i2cHandler
  /-- `UART_TX_H(u)`. -/
  | txHandler (unit : Byte)
  /-- `UART_RX_H(u)`. -/
  | rxHandler (unit : Byte)
  /-- `BUS` (41_i2c_event_engine.md R157): the code it chooses, and the byte it sends or draws (R160). -/
  | bus (code data : Byte)
  /-- `LINE(u)` load (43_uart_event_engine.md R233). -/
  | lineLoad (unit : Byte)
  /-- `LINE(u)` shift-out (R234). -/
  | lineShift (unit : Byte)
  /-- `LINE(u)` receive (R235): the byte on the wire, and which byte an overrun keeps. -/
  | lineReceive (unit data : Byte) (keepOld : Bool)
  /-- The platform sets or clears `gie` (70_reset_and_hazards.md R302). -/
  | platform (gie : Bool)
  deriving DecidableEq, Repr, Inhabited

/-- Which progress count a split read reads. -/
inductive ProgressTarget where
  | i2c
  | uart (unit : Byte)
  deriving DecidableEq, Repr, Inhabited

/-- A split progress read whose first byte has been read (20_memory.md R78). -/
structure SplitRead where
  target : ProgressTarget
  first : Byte
  deriving DecidableEq, Repr, Inhabited

/-- The value an operation returns (30_encoding.md R90, column "result"). -/
inductive Response where
  /-- I2C_GET_STATE: 2 bits (R103). -/
  | engineState (v : BitVec 2)
  /-- I2C_GET_STATUS: 8 bits. -/
  | status (v : Byte)
  /-- I2C_GET_PROGRESS and UART_SEND_AUTO_PROGRESS: `ADDR_W` bits. -/
  | progress (v : Addr)
  /-- UART_SEND_READY and UART_RECEIVE_READY: 1 bit. -/
  | ready (v : Bool)
  /-- UART_RECEIVE_FETCH: 8 bits. -/
  | data (v : Byte)
  /-- A foreground read of the caller's memory. -/
  | memory (v : Byte)
  deriving DecidableEq, Repr, Inhabited

/-- The whole state. -/
structure State where
  /-- The OPEN parameters (00_scope.md R8); no step changes them. -/
  params : Config.Params
  i2c : I2c
  /-- `uart[0]`, `uart[1]`, ...: the list has `N_UART` entries (00_scope.md R8). -/
  uarts : List Uart
  mem : Memory
  /-- `gie` (10_state.md R36). -/
  gie : Bool
  /-- `fault.misuse` with `fault.info` (R37): `none` while `fault.misuse` is clear. -/
  fault : Option Misuse
  /-- `refused` (R37). -/
  refused : Bool
  /-- The model's own: the operations the foreground has still to issue (R20). -/
  program : List ForegroundOp
  /-- The model's own: whose step is next; when it is empty the foreground steps. -/
  turns : List Turn
  /-- The model's own: a progress read between its two byte steps. -/
  split : Option SplitRead
  /-- The model's own: the value returned by the last operation that returned one. -/
  response : Option Response
  /-- The model's own: how many times open values have been drawn after misuse. -/
  draws : Nat
  deriving DecidableEq, Repr, Inhabited

/-- Why a step stops with a fault: nothing does. The spec's faults are caller misuse, whose effect it gives as a next
state: the sticky `fault` set and every other field unspecified (60_exceptions.md R262). -/
inductive Fault : Type
  deriving DecidableEq, Repr

/-- Why an operation has no meaning in the model. The spec's own `refuse` is a next state with `refused` set
(30_encoding.md R92), not one of these. -/
inductive Refusal where
  /-- Raised by `exec` for an instruction of the table that has no meaning yet; none is left. Safe: the machine stops. -/
  | notModelled (mnemonic : String)
  deriving DecidableEq, Repr

end Sys2Proof.Machine

namespace Sys2Proof.Config

open Sys2Proof.Machine

/-! The fields that are unspecified from a misuse on (00_scope.md R12, 60_exceptions.md R262): uninterpreted constants
applied to the number of the draw. Nothing constrains them (log entry 2). -/

/-- The I2C context of the n-th draw. -/
opaque anyI2c : Nat → I2c

/-- The context of a UART unit at the n-th draw. -/
opaque anyUart : Nat → Nat → Uart

/-- The contents of the caller's memory at the n-th draw. -/
opaque anyCells : Nat → List (Addr × Byte)

/-- `gie` at the n-th draw. -/
opaque anyGie : Nat → Bool

/-- Whether `refused` is found set at the n-th draw. -/
opaque anyRefused : Nat → Bool

/-- What a read returns at the n-th draw. -/
opaque anyResponse : Nat → Option Response

end Sys2Proof.Config

namespace Sys2Proof.Machine

open Sys2Proof

/-- An empty span at address 0. -/
def TransferBuffer.zero : TransferBuffer where
  start := 0
  cursor := 0
  limit := 0

/-- The I2C context after reset (10_state.md R40). DESIGN CHOICE (log entry 1) where R40 says UNSPECIFIED:
`lastStatus`, `sla`, `buf`, `dr` and `bitRate` are zero. -/
def I2c.reset : I2c where
  state := .idle
  lastStatus := 0
  flags := 0
  sla := 0
  buf := .zero
  dr := 0
  bitRate := 0
  enabled := false
  cmd := none
  event := none
  busOwned := false
  addrPhase := false
  trace := []

/-- UART unit `u` after reset (R40). DESIGN CHOICE (log entry 1) where R40 says UNSPECIFIED: `txBuf`, `receiveBuffer`,
`divisor` and `rxData` are zero and `stopBits` is one. -/
def Uart.reset (u : Nat) : Uart where
  registerBase := u
  txMode := .disabled
  rxMode := .disabled
  txBuf := .zero
  receiveBuffer := .zero
  divisor := 0
  doubleSpeed := false
  stopBits := .one
  txEn := false
  rxEn := false
  txIe := false
  rxIe := false
  txData := none
  txShift := none
  rxData := 0
  rxFull := false
  txEvt := false
  rxEvt := false
  lineOut := []

/-- The block after reset (R40, 70_reset_and_hazards.md R300) with parameters `p` and `n` UART units. -/
def State.resetWith (p : Config.Params) (n : Nat) : State where
  params := p
  i2c := .reset
  uarts := (List.range n).map Uart.reset
  mem := []
  gie := false
  fault := none
  refused := false
  program := []
  turns := []
  split := none
  response := none
  draws := 0

/-- The machine right after reset, with the default parameters of 00_scope.md R8. -/
def State.reset : State := .resetWith Config.defaultParams Config.nUart

end Sys2Proof.Machine
end

