-- ==== Sys2Proof/Machine/Operands.lean ====
section
/-!
DEFINITION. The operand fields of 30_encoding.md R91 and R94 to R99, which values of them are legal, the
address-plus-direction byte, the status decoder, and the divisor function of 42_uart_foreground.md R190.
-/

namespace Sys2Proof.Machine

open Sys2Proof

/-! ### Byte order -/

/-- Byte `k` of a value, byte 0 its least significant (20_memory.md R74). -/
def byteOf {w : Nat} (v : BitVec w) (k : Nat) : Byte := v.extractLsb' (8 * k) 8

/-- The 16-bit value of two bytes, the low byte first (R74). -/
def addrOfBytes (b0 b1 : Byte) : Addr := b1 ++ b0

/-- The 32-bit value of four bytes, the low byte first (R74). -/
def wordOfBytes (b0 b1 b2 b3 : Byte) : Word32 := (b3 ++ b2) ++ (b1 ++ b0)

/-! ### Legal operand values -/

/-- A 7-bit target address: bit 7 is clear (30_encoding.md R95). -/
def addressLegal (address : Byte) : Bool := !address.getLsbD 7

/-- The reserved bits 7:2 of `flags` are 0 (R94). -/
def flagsLegal (flags : Byte) : Bool := flags.extractLsb' 2 6 == 0

/-- The span `[buffer, buffer + length)` does not wrap: its end is below 2^`ADDR_W` (R97). -/
def spanLegal (buffer length : Addr) : Bool := decide (buffer.toNat + length.toNat < 2 ^ 16)

/-- `cpuClockHz`, `bitRate` and `baud` are at least 1 (R91). -/
def rateLegal (v : Word32) : Bool := v != 0

/-- The operands of I2C_START_WRITE and I2C_START_READ (R91). -/
def startLegal (address flags : Byte) (buffer length : Addr) : Bool :=
  addressLegal address && flagsLegal flags && spanLegal buffer length

/-! ### The `config` byte (R98) -/

/-- The mode a 2-bit field encodes; 3 is reserved (R99). -/
def modeOf (v : BitVec 2) : Option UartMode :=
  if v = 0 then some .disabled
  else if v = 1 then some .manual
  else if v = 2 then some .auto
  else none

/-- `config[0]`, two stop bits or one (R98). -/
def configStopBits (config : Byte) : StopBits := if config.getLsbD 0 then .two else .one

/-- `config[1]`, double speed (R98). -/
def configDoubleSpeed (config : Byte) : Bool := config.getLsbD 1

/-- `config[3:2]` (R98). -/
def configTxMode (config : Byte) : Option UartMode := modeOf (config.extractLsb' 2 2)

/-- `config[5:4]` (R98): receive `Auto` is reserved as well (R99). -/
def configRxMode (config : Byte) : Option UartMode :=
  match modeOf (config.extractLsb' 4 2) with
  | some .disabled => some .disabled
  | some .manual => some .manual
  | some .auto => none
  | none => none

/-- The reserved bits 7:6 of `config` are 0 (R98). -/
def configReservedClear (config : Byte) : Bool := config.extractLsb' 6 2 == 0

/-- A legal `config` byte (R98). -/
def configLegal (config : Byte) : Bool :=
  configReservedClear config && (configTxMode config).isSome && (configRxMode config).isSome

/-! ### I2C fields -/

/-- The address-plus-direction byte `{address[6:0], dir}` (R96): `dir` is 0 for a write and 1 for a read. -/
def slaOf (address : Byte) (dir : BitVec 1) : Byte := address.extractLsb' 0 7 ++ dir

/-- `i2c.state` in its 2-bit encoding (R103). -/
def EngineState.code : EngineState → BitVec 2
  | .idle => 0
  | .masterWriting => 1
  | .masterReading => 2
  | .error => 3

/-- A drive command's value (R104). -/
def DriveCommand.code : DriveCommand → Nat
  | .rearm .start => 1
  | .rearm .send => 2
  | .rearm .recvAck => 3
  | .rearm .recvNack => 4
  | .stop => 5
  | .hold => 6

/-- The bits of a status value the decoder looks at (R100). -/
def statusCode (status : Byte) : Byte := status &&& Config.statusMask

/-- The named phases, in the order of the table of R101. -/
def statusPhases : List Config.StatusPhase :=
  [.start, .repStart, .slaWAck, .slaWNack, .dataWAck, .dataWNack, .arbLost] ++
  [.slaRAck, .slaRNack, .dataRAck, .dataRNack, .busError, .noInfo]

/-- The phase whose code in the table the masked status equals, none when no row has it (R101, R102). The codes enter the
machine here and in the encoder only. -/
def statusPhase? (t : Config.StatusTable) (status : Byte) : Option Config.StatusPhase :=
  statusPhases.find? fun p => t.code p == statusCode status

/-- The action class of a named phase (R101). -/
def phaseAction : Config.StatusPhase → Config.Action
  | .start | .repStart => .a1
  | .slaWAck | .dataWAck => .a2
  | .slaWNack | .dataWNack => .a3
  | .slaRAck => .a4
  | .slaRNack => .a5
  | .dataRAck => .a6
  | .dataRNack => .a7
  | .arbLost | .busError | .noInfo => .a8

/-- `DECODE` (R102): the action of the row whose code the masked status equals, and A8 when there is none. -/
def decodeStatusAction (t : Config.StatusTable) (status : Byte) : Config.Action :=
  match statusPhase? t status with
  | some p => phaseAction p
  | none => .a8

/-- The status value the bus raises for a code: `{k[7:3], PRESC}` (41_i2c_event_engine.md R157). -/
def statusOf (code : Byte) (presc : BitVec 3) : Byte := code.extractLsb' 3 5 ++ presc

/-! ### The UART divisor -/

/-- BAUD_DIVISOR (42_uart_foreground.md R190): the divisor, or none where the rule refuses (a quotient of 0, or a divisor
that does not fit in `DIV_W` bits). The products are exact, as 64-bit intermediates hold them. -/
def baudDivisor (cpuClockHz baud : Word32) (doubleSpeed : Bool) : Option (BitVec 12) :=
  let q := cpuClockHz.toNat / (Config.baudMult doubleSpeed * baud.toNat)
  if q = 0 then none
  else if 2 ^ Config.divWidth ≤ q - 1 then none
  else some (BitVec.ofNat 12 (q - 1))

end Sys2Proof.Machine
end

