-- ==== Sys2Proof/Syntax.lean ====
section
/-!
DEFINITION. The operations of the block: one constructor of `Instr` for each row of spec/opcode_table.json. The sixteen
rows of format `CMD8` are the command and event words of 30_encoding.md R90 with the operand records of R91; the
fourteen rows of format `TWSR8` are the status codes of R101, each standing for the action the decoder selects.
-/

namespace Sys2Proof

/-- An operation of the block. -/
inductive Instr where
  /-- `I2C_INIT` (40_i2c_foreground.md R120). -/
  | i2cInit (cpuClockHz bitRate : Word32)
  /-- `I2C_START_WRITE` (R121). -/
  | i2cStartWrite (address flags : Byte) (buffer length : Addr)
  /-- `I2C_START_READ` (R122). -/
  | i2cStartRead (address flags : Byte) (buffer length : Addr)
  /-- `I2C_GET_STATE` (R123). -/
  | i2cGetState
  /-- `I2C_GET_STATUS` (R124). -/
  | i2cGetStatus
  /-- `I2C_GET_PROGRESS` (R125). -/
  | i2cGetProgress
  /-- `UART_INIT` (42_uart_foreground.md R191). -/
  | uartInit (unit : Byte) (cpuClockHz baud : Word32) (config : Byte)
  /-- `UART_SEND_READY` (R192). -/
  | uartSendReady (unit : Byte)
  /-- `UART_SEND_MANUAL` (R193). -/
  | uartSendManual (unit byte : Byte)
  /-- `UART_SEND_AUTO` (R194). -/
  | uartSendAuto (unit : Byte) (buffer length : Addr)
  /-- `UART_SEND_AUTO_PROGRESS` (R195). -/
  | uartSendAutoProgress (unit : Byte)
  /-- `UART_RECEIVE_READY` (R196). -/
  | uartReceiveReady (unit : Byte)
  /-- `UART_RECEIVE_FETCH` (R197). -/
  | uartReceiveFetch (unit : Byte)
  /-- `I2C_EVENT` (41_i2c_event_engine.md R140): the operands are the pending event. -/
  | i2cEvent (status data : Byte)
  /-- `UART_TX_EMPTY_EVENT` (43_uart_event_engine.md R230). -/
  | uartTxEmptyEvent (unit : Byte)
  /-- `UART_RX_DATA_EVENT` (R232). -/
  | uartRxDataEvent (unit : Byte)
  /-- `STATUS_START`, code 0x08: action A1 (R144). `presc` is the ignored field, bits 2:0. -/
  | statusStart (presc : BitVec 3)
  /-- `STATUS_REP_START`, code 0x10: action A1 (R144). -/
  | statusRepStart (presc : BitVec 3)
  /-- `STATUS_SLA_W_ACK`, code 0x18: action A2 (R145). -/
  | statusSlaWAck (presc : BitVec 3)
  /-- `STATUS_SLA_W_NACK`, code 0x20: action A3 (R146). -/
  | statusSlaWNack (presc : BitVec 3)
  /-- `STATUS_DATA_W_ACK`, code 0x28: action A2 (R145). -/
  | statusDataWAck (presc : BitVec 3)
  /-- `STATUS_DATA_W_NACK`, code 0x30: action A3 (R146). -/
  | statusDataWNack (presc : BitVec 3)
  /-- `STATUS_ARB_LOST`, code 0x38: action A8 (R151). -/
  | statusArbLost (presc : BitVec 3)
  /-- `STATUS_SLA_R_ACK`, code 0x40: action A4 (R147). -/
  | statusSlaRAck (presc : BitVec 3)
  /-- `STATUS_SLA_R_NACK`, code 0x48: action A5 (R148). -/
  | statusSlaRNack (presc : BitVec 3)
  /-- `STATUS_DATA_R_ACK`, code 0x50: action A6 (R149). -/
  | statusDataRAck (presc : BitVec 3)
  /-- `STATUS_DATA_R_NACK`, code 0x58: action A7 (R150). -/
  | statusDataRNack (presc : BitVec 3)
  /-- `STATUS_BUS_ERROR`, code 0x00: action A8 (R151). -/
  | statusBusError (presc : BitVec 3)
  /-- `STATUS_NO_INFO`, code 0xF8: action A8 (R151). -/
  | statusNoInfo (presc : BitVec 3)
  /-- `STATUS_OTHER`, any other value: action A8 (R151, 30_encoding.md R102). -/
  | statusOther (status : Byte)
  deriving DecidableEq, Repr

/-- Where the bits of an operation are read. The formats `CMD8` and `TWSR8` share 8-bit values, so the port, not the
bits, says which format a word has (30_encoding.md R90, R100). -/
inductive Port where
  /-- The command port: groups 0x1 and 0x2, issued by the foreground. -/
  | command
  /-- The event port: groups 0x8 and 0x9, issued by event delivery only (R90). -/
  | event
  /-- The status register, read by the bus status decoder (R102). -/
  | status
  deriving DecidableEq, Repr

/-- The port an operation is issued on (R90, R102). -/
def Instr.port : Instr → Port
  | .i2cInit .. | .i2cStartWrite .. | .i2cStartRead .. | .i2cGetState | .i2cGetStatus | .i2cGetProgress => .command
  | .uartInit .. | .uartSendReady _ | .uartSendManual .. | .uartSendAuto .. | .uartSendAutoProgress _ => .command
  | .uartReceiveReady _ | .uartReceiveFetch _ => .command
  | .i2cEvent .. | .uartTxEmptyEvent _ | .uartRxDataEvent _ => .event
  | .statusStart _ | .statusRepStart _ | .statusSlaWAck _ | .statusSlaWNack _ | .statusDataWAck _ => .status
  | .statusDataWNack _ | .statusArbLost _ | .statusSlaRAck _ | .statusSlaRNack _ | .statusDataRAck _ => .status
  | .statusDataRNack _ | .statusBusError _ | .statusNoInfo _ | .statusOther _ => .status

end Sys2Proof
end

