-- ==== Sys2Proof/WellFormed.lean ====
section
/-!
DEFINITION. Well-formed status tables, and well-formed operations: the operands hold only legal values (30_encoding.md R91 to R99). Whether a `unit`
names a context depends on the state (`Machine.State.uart?`), and whether a divisor is in range is UART_INIT's own check
(42_uart_foreground.md R190); neither is a matter of form.
-/

namespace Sys2Proof

open Sys2Proof.Machine

/-- A status table tells the phases apart: every code lies in the bits the decoder looks at, and no two phases share one
(30_encoding.md R100, R101; log entry 22). -/
def statusTableWf (t : Config.StatusTable) : Bool :=
  (statusPhases.all fun p => statusCode (t.code p) == t.code p) && decide (statusPhases.map t.code).Nodup

/-- A status value that no named row of the table has (R102). -/
def unnamedStatus (t : Config.StatusTable) (status : Byte) : Bool := (statusPhase? t status).isNone

/-- The operands hold only legal values, `t` being the status table. -/
def Instr.wf (t : Config.StatusTable) : Instr → Bool
  | .i2cInit cpuClockHz bitRate => rateLegal cpuClockHz && rateLegal bitRate
  | .i2cStartWrite address flags buffer length => startLegal address flags buffer length
  | .i2cStartRead address flags buffer length => startLegal address flags buffer length
  | .uartInit _ cpuClockHz baud config => rateLegal cpuClockHz && rateLegal baud && configLegal config
  | .uartSendAuto _ buffer length => spanLegal buffer length
  | .statusOther status => unnamedStatus t status
  | .i2cGetState | .i2cGetStatus | .i2cGetProgress => true
  | .uartSendReady _ | .uartSendManual .. | .uartSendAutoProgress _ | .uartReceiveReady _ | .uartReceiveFetch _ => true
  | .i2cEvent .. | .uartTxEmptyEvent _ | .uartRxDataEvent _ => true
  | .statusStart _ | .statusRepStart _ | .statusSlaWAck _ | .statusSlaWNack _ | .statusDataWAck _ => true
  | .statusDataWNack _ | .statusArbLost _ | .statusSlaRAck _ | .statusSlaRNack _ | .statusDataRAck _ => true
  | .statusDataRNack _ | .statusBusError _ | .statusNoInfo _ => true

end Sys2Proof
end

