-- ==== Sys2Proof/Decode.lean ====
section
/-!
DEFINITION. The decoder, total on any bytes, and the encoder (30_encoding.md R90 to R107).

A record of format `CMD8` is the command word and then its operands in the order of R90, each in whole bytes, the least
significant first (20_memory.md R74). R91 puts the operands in a record beside the word and gives the record no layout:
this one is a DESIGN CHOICE (log entry 7). A record of format `TWSR8` is the status byte.
-/

namespace Sys2Proof

open Sys2Proof.Machine

/-- Why bytes are no operation of the port they stand on; the foreground's are refused (R92). -/
inductive Reject where
  /-- There is no word. -/
  | empty
  /-- The command word is not in the table of R90. -/
  | unknownCommand (op : Byte)
  /-- The operand record does not have the word's fixed length (R107). -/
  | wrongLength (op : Byte)
  /-- The operation is issued on another port (R90): an event word on the command port, or the other way round. -/
  | wrongPort (op : Byte)
  deriving DecidableEq, Repr

/-- Byte `k` of a record's operands. -/
def byteAt (args : List Byte) (k : Nat) : Byte := args.getD k 0

/-- The 16-bit operand that begins at byte `k`. -/
def addrAt (args : List Byte) (k : Nat) : Addr := addrOfBytes (byteAt args k) (byteAt args (k + 1))

/-- The 32-bit operand that begins at byte `k`. -/
def wordAt (args : List Byte) (k : Nat) : Word32 :=
  wordOfBytes (byteAt args k) (byteAt args (k + 1)) (byteAt args (k + 2)) (byteAt args (k + 3))

/-- A row of format `CMD8`: the command word, how many bytes its operands take, and how they are read. -/
structure CommandRow where
  op : Byte
  operandBytes : Nat
  read : List Byte → Instr

/-- The I2C foreground operations, group 0x1 (R90). -/
def i2cCommandRows : List CommandRow :=
  [⟨0x10, 8, fun a => .i2cInit (wordAt a 0) (wordAt a 4)⟩,
   ⟨0x11, 6, fun a => .i2cStartWrite (byteAt a 0) (byteAt a 1) (addrAt a 2) (addrAt a 4)⟩,
   ⟨0x12, 6, fun a => .i2cStartRead (byteAt a 0) (byteAt a 1) (addrAt a 2) (addrAt a 4)⟩,
   ⟨0x13, 0, fun _ => .i2cGetState⟩,
   ⟨0x14, 0, fun _ => .i2cGetStatus⟩,
   ⟨0x15, 0, fun _ => .i2cGetProgress⟩]

/-- The UART foreground operations, group 0x2 (R90). -/
def uartCommandRows : List CommandRow :=
  [⟨0x20, 10, fun a => .uartInit (byteAt a 0) (wordAt a 1) (wordAt a 5) (byteAt a 9)⟩,
   ⟨0x21, 1, fun a => .uartSendReady (byteAt a 0)⟩,
   ⟨0x22, 2, fun a => .uartSendManual (byteAt a 0) (byteAt a 1)⟩,
   ⟨0x23, 5, fun a => .uartSendAuto (byteAt a 0) (addrAt a 1) (addrAt a 3)⟩,
   ⟨0x24, 1, fun a => .uartSendAutoProgress (byteAt a 0)⟩,
   ⟨0x25, 1, fun a => .uartReceiveReady (byteAt a 0)⟩,
   ⟨0x26, 1, fun a => .uartReceiveFetch (byteAt a 0)⟩]

/-- The event entries, groups 0x8 and 0x9 (R90). -/
def eventRows : List CommandRow :=
  [⟨0x80, 2, fun a => .i2cEvent (byteAt a 0) (byteAt a 1)⟩,
   ⟨0x90, 1, fun a => .uartTxEmptyEvent (byteAt a 0)⟩,
   ⟨0x91, 1, fun a => .uartRxDataEvent (byteAt a 0)⟩]

/-- The sixteen rows of format `CMD8` (R90). -/
def commandRows : List CommandRow := i2cCommandRows ++ uartCommandRows ++ eventRows

/-- The row of a command word. -/
def commandRow? (op : Byte) : Option CommandRow := commandRows.find? fun row => row.op == op

/-- A record of format `CMD8`. -/
def decodeRecord : List Byte → Except Reject Instr
  | [] => .error .empty
  | op :: args =>
    match commandRow? op with
    | none => .error (.unknownCommand op)
    | some row => if args.length = row.operandBytes then .ok (row.read args) else .error (.wrongLength op)

/-- The operation of a named phase (R101), with the ignored bits 2:0. -/
def phaseInstr : Config.StatusPhase → BitVec 3 → Instr
  | .start, presc => .statusStart presc
  | .repStart, presc => .statusRepStart presc
  | .slaWAck, presc => .statusSlaWAck presc
  | .slaWNack, presc => .statusSlaWNack presc
  | .dataWAck, presc => .statusDataWAck presc
  | .dataWNack, presc => .statusDataWNack presc
  | .arbLost, presc => .statusArbLost presc
  | .slaRAck, presc => .statusSlaRAck presc
  | .slaRNack, presc => .statusSlaRNack presc
  | .dataRAck, presc => .statusDataRAck presc
  | .dataRNack, presc => .statusDataRNack presc
  | .busError, presc => .statusBusError presc
  | .noInfo, presc => .statusNoInfo presc

/-- A status value (R102): the operation of the phase whose code it has in the table, and STATUS_OTHER when there is
none. -/
def decodeStatus (t : Config.StatusTable) (status : Byte) : Instr :=
  match statusPhase? t status with
  | some p => phaseInstr p (status.extractLsb' 0 3)
  | none => .statusOther status

/-- The operation the bytes on a port are, `t` being the status table. -/
def decode (t : Config.StatusTable) (port : Port) (bytes : List Byte) : Except Reject Instr :=
  match port, bytes with
  | .status, [status] => .ok (decodeStatus t status)
  | .status, [] => .error .empty
  | .status, status :: _ => .error (.wrongLength status)
  | _, [] => decodeRecord []
  | port, op :: args =>
    match decodeRecord (op :: args) with
    | .ok i => if i.port = port then .ok i else .error (.wrongPort op)
    | .error e => .error e

/-! ### The encoder -/

/-- The two bytes of a 16-bit operand. -/
def addrBytes (v : Addr) : List Byte := [byteOf v 0, byteOf v 1]

/-- The four bytes of a 32-bit operand. -/
def wordBytes (v : Word32) : List Byte := [byteOf v 0, byteOf v 1, byteOf v 2, byteOf v 3]

/-- The bytes of an operation, on its port (R90, R91, R101), `t` being the status table. -/
def encode (t : Config.StatusTable) : Instr → List Byte
  | .i2cInit cpuClockHz bitRate => 0x10 :: (wordBytes cpuClockHz ++ wordBytes bitRate)
  | .i2cStartWrite address flags buffer length => 0x11 :: address :: flags :: (addrBytes buffer ++ addrBytes length)
  | .i2cStartRead address flags buffer length => 0x12 :: address :: flags :: (addrBytes buffer ++ addrBytes length)
  | .i2cGetState => [0x13]
  | .i2cGetStatus => [0x14]
  | .i2cGetProgress => [0x15]
  | .uartInit unit cpuClockHz baud config => 0x20 :: unit :: (wordBytes cpuClockHz ++ wordBytes baud ++ [config])
  | .uartSendReady unit => [0x21, unit]
  | .uartSendManual unit byte => [0x22, unit, byte]
  | .uartSendAuto unit buffer length => 0x23 :: unit :: (addrBytes buffer ++ addrBytes length)
  | .uartSendAutoProgress unit => [0x24, unit]
  | .uartReceiveReady unit => [0x25, unit]
  | .uartReceiveFetch unit => [0x26, unit]
  | .i2cEvent status data => [0x80, status, data]
  | .uartTxEmptyEvent unit => [0x90, unit]
  | .uartRxDataEvent unit => [0x91, unit]
  | .statusStart presc => [statusOf t.start presc]
  | .statusRepStart presc => [statusOf t.repStart presc]
  | .statusSlaWAck presc => [statusOf t.slaWAck presc]
  | .statusSlaWNack presc => [statusOf t.slaWNack presc]
  | .statusDataWAck presc => [statusOf t.dataWAck presc]
  | .statusDataWNack presc => [statusOf t.dataWNack presc]
  | .statusArbLost presc => [statusOf t.arbLost presc]
  | .statusSlaRAck presc => [statusOf t.slaRAck presc]
  | .statusSlaRNack presc => [statusOf t.slaRNack presc]
  | .statusDataRAck presc => [statusOf t.dataRAck presc]
  | .statusDataRNack presc => [statusOf t.dataRNack presc]
  | .statusBusError presc => [statusOf t.busError presc]
  | .statusNoInfo presc => [statusOf t.noInfo presc]
  | .statusOther status => [status]

/-! ### The opcode table's bits -/

/-- Byte `k` of the table's number `w`, bit 0 of `w` the least significant bit of the first byte. -/
def tableByte (nbits w k : Nat) : Byte := BitVec.ofNat 8 (w % 2 ^ nbits / 2 ^ (8 * k))

/-- The port and the bytes of the operation whose bits are `w` in the opcode table: a command or event word with its
operand record, the bits above `nbits` zero; else, for a row of one byte, a status value. A value that is both is read as
the command word, since the table's bits do not say the port (log entry 8). -/
def tableRecord (nbits w : Nat) : Option (Port × List Byte) :=
  match commandRow? (tableByte nbits w 0) with
  | some row =>
    let bytes := (List.range (row.operandBytes + 1)).map (tableByte nbits w)
    some ((row.read (bytes.drop 1)).port, bytes)
  | none => if nbits ≤ 8 then some (.status, [tableByte nbits w 0]) else none

/-- The operation the decoder reads from the table's bits, which are those of the default status table. -/
def decodeTableWord (nbits w : Nat) : Option Instr :=
  match tableRecord nbits w with
  | some (port, bytes) => (decode Config.defaultStatusTable port bytes).toOption
  | none => none

end Sys2Proof
end

