-- ==== Sys2Proof/Machine/Flags.lean ====
section
/-!
DEFINITION. The flags of the block (10_state.md R35): the bits of `i2c.flags`, the derived UART flags, and the
conditions the rules test.
-/

namespace Sys2Proof.Machine

open Sys2Proof

/-- `HoldBus`, `i2c.flags[0]` (30_encoding.md R94): read by the completion procedure only. -/
def I2c.holdBus (c : I2c) : Bool := c.flags.getLsbD 0

/-- `RetryOnArbitrationLoss`, `i2c.flags[1]` (R94): stored and never read by a step (10_state.md R25). -/
def I2c.retryOnArbitrationLoss (c : I2c) : Bool := c.flags.getLsbD 1

/-- The remaining-byte count `end - cursor` (10_state.md R27), wrapping (00_scope.md R10). -/
def TransferBuffer.progress (b : TransferBuffer) : Addr := b.limit - b.cursor

/-- No byte remains: `cursor = end`. -/
def TransferBuffer.exhausted (b : TransferBuffer) : Bool := b.cursor == b.limit

/-- The address lies in the span `[start, end)` (20_memory.md R71). -/
def TransferBuffer.holds (b : TransferBuffer) (a : Addr) : Bool :=
  decide (b.start.toNat ≤ a.toNat) && decide (a.toNat < b.limit.toNat)

/-- I2C_INIT is misuse: a transaction, a command, an event or a held bus is outstanding (40_i2c_foreground.md R120). -/
def I2c.busy (c : I2c) : Bool :=
  c.state != .idle || c.cmd.isSome || c.event.isSome || c.busOwned

/-- `uart[u].txEmpty`, defined as `txData = none` (10_state.md R33). -/
def Uart.txEmpty (x : Uart) : Bool := x.txData.isNone

/-- An auto stream is outstanding: `txMode = Auto` and `cursor ≠ end` (42_uart_foreground.md R193, 10_state.md R38). -/
def Uart.streamActive (x : Uart) : Bool := x.txMode == .auto && !x.txBuf.exhausted

/-- A received byte is ready: one waits and the receiver is not `Disabled`, for with `rxMode = Disabled` the receiver is
off and UART_RECEIVE_READY returns 0 (10_state.md R30, 42_uart_foreground.md R196). DEDUCED (log entry 23): the pseudocode
of R196 names `rxFull` alone. -/
def Uart.receiveReady (x : Uart) : Bool := x.rxMode != .disabled && x.rxFull

/-- UART_INIT is misuse: a byte or an event is in flight or a stream is outstanding (R191). -/
def Uart.busy (x : Uart) : Bool :=
  x.txData.isSome || x.txShift.isSome || x.txEvt || x.rxEvt || x.streamActive

/-- `fault.misuse` (10_state.md R37). -/
def State.misused (s : State) : Bool := s.fault.isSome

/-- The unit a `unit` operand names: legal from 0 to `N_UART - 1` (30_encoding.md R91). -/
def State.uart? (s : State) (unit : Byte) : Option Uart := s.uarts[unit.toNat]?

/-- Some engine owns the byte at `a` (20_memory.md R76): the I2C engine from the start operation until `Idle`, a UART
from UART_SEND_AUTO until `cursor = end`. -/
def State.spanOwned (s : State) (a : Addr) : Bool :=
  (s.i2c.state != .idle && s.i2c.buf.holds a) || s.uarts.any fun x => x.streamActive && x.txBuf.holds a

/-- Event delivery (60_exceptions.md R265): an I2C event is pending and `gie = 1`. -/
def State.i2cDeliverable (s : State) : Bool := s.gie && s.i2c.event.isSome

/-- Event delivery: unit `u`'s transmit-empty event is pending and `gie = 1` (R265). -/
def State.txDeliverable (s : State) (unit : Byte) : Bool := s.gie && (s.uart? unit).any Uart.txEvt

/-- Event delivery: unit `u`'s data-received event is pending and `gie = 1` (R265). -/
def State.rxDeliverable (s : State) (unit : Byte) : Bool := s.gie && (s.uart? unit).any Uart.rxEvt

end Sys2Proof.Machine
end

