-- ==== Sys2Proof/Machine/Ops.lean ====
section
/-!
DEFINITION. The named operations over memory, the contexts and the state that every meaning is built from. Each rule of
the spec that several operations share stands here once: memory access (20_memory.md R70), caller misuse (the only fault
the spec gives the machine, 60_exceptions.md R262), refusal (30_encoding.md R92), the drive commands
(41_i2c_event_engine.md R156), COMPLETE, ABORT and ARM_RECEIVE (R142, R143, R147), handler entry (R140) and the split
progress read (20_memory.md R78).
-/

namespace Sys2Proof.Machine

open Sys2Proof

/-! ### Memory (20_memory.md R70) -/

/-- The byte at key `a` of the listed cells, or what an unlisted address reads as. -/
def Memory.readAt : Memory → Nat → Byte
  | [], _ => Config.unlistedByte
  | c :: rest, a => if c.1 = a then c.2 else Memory.readAt rest a

/-- A cell in front of the cells with higher addresses, left out when it holds what an unlisted address reads as. -/
def Memory.consCell (a : Nat) (v : Byte) (m : Memory) : Memory :=
  if v = Config.unlistedByte then m else (a, v) :: m

/-- The cells with `v` at key `a`, in canonical form. -/
def Memory.writeAt : Memory → Nat → Byte → Memory
  | [], a, v => Memory.consCell a v []
  | c :: rest, a, v =>
    if a < c.1 then Memory.consCell a v (c :: rest)
    else if a = c.1 then Memory.consCell a v rest
    else c :: Memory.writeAt rest a v

/-- Every listed address is at least `lo` and below 2^16, addresses rise strictly, and no listed byte is what an unlisted
address reads as. -/
def Memory.wfFrom : Nat → Memory → Bool
  | _, [] => true
  | lo, c :: rest =>
    decide (lo ≤ c.1) && decide (c.1 < 2 ^ 16) && c.2 != Config.unlistedByte && Memory.wfFrom (c.1 + 1) rest

/-- The canonical form of the memory. -/
def Memory.wf (m : Memory) : Bool := Memory.wfFrom 0 m

/-- `MemRead(addr, 1)`. -/
def Memory.read (m : Memory) (a : Addr) : Byte := Memory.readAt m a.toNat

/-- `MemWrite(addr, 1, v)`. -/
def Memory.write (m : Memory) (a : Addr) (v : Byte) : Memory := Memory.writeAt m a.toNat v

/-- The memory that a list of writes leaves, from one with nothing listed. -/
def Memory.ofCells : List (Addr × Byte) → Memory
  | [] => []
  | c :: rest => Memory.write (Memory.ofCells rest) c.1 c.2

/-! ### Parts of the state -/

/-- The state with another I2C context. -/
def State.withI2c (s : State) (c : I2c) : State := { s with i2c := c }

/-- The state with another context for unit `u`. -/
def State.withUart (s : State) (unit : Byte) (x : Uart) : State := { s with uarts := s.uarts.set unit.toNat x }

/-- The state with `v` as the value the operation returns. -/
def State.respond (s : State) (v : Response) : State := { s with response := some v }

/-! ### Misuse and refusal -/

/-- A unit's context with every field but `registerBase` unspecified. -/
def Uart.unspecify (draw : Nat) (x : Uart) : Uart :=
  { Config.anyUart draw x.registerBase with registerBase := x.registerBase }

/-- Every field the spec gives the state takes any value (00_scope.md R12, 60_exceptions.md R262); the sticky `fault` and
a set `refused` stay (10_state.md R37), the parameters and the number of units are no fields, and the foreground and the
other agents keep the steps they have still to take. -/
def State.unspecify (s : State) : State :=
  { s with
    i2c := Config.anyI2c s.draws
    uarts := s.uarts.map (Uart.unspecify s.draws)
    mem := Memory.ofCells (Config.anyCells s.draws)
    gie := Config.anyGie s.draws
    refused := s.refused || Config.anyRefused s.draws
    response := Config.anyResponse s.draws
    split := none
    draws := s.draws + 1 }

/-- `raise Misuse(info)` (00_scope.md R12, 60_exceptions.md R262): the sticky bit is set, `info` is recorded, and every
other field is unspecified. -/
def State.raiseMisuse (s : State) (info : Misuse) : State := { s.unspecify with fault := some info }

/-- `refuse(reason)` (30_encoding.md R92): `refused` is set and no field of the block changes. -/
def State.refuse (s : State) : State := { s with refused := true }

/-- A step's effect: `f` while `fault.misuse` is clear; after misuse every field is unspecified again, from then on
(60_exceptions.md R262). -/
def State.effect (s : State) (f : State → State) : State := if s.misused then s.unspecify else f s

/-- A meaning: the operation answers the next state of its effect. -/
def State.perform (s : State) (f : State → State) : Host.Outcome State Fault Refusal := .next (s.effect f)

/-- An operation on unit `u`: refused when there is no such unit (30_encoding.md R92). -/
def State.onUnit (s : State) (unit : Byte) (f : Uart → State) : State :=
  match s.uart? unit with
  | none => s.refuse
  | some x => f x

/-! ### The I2C engine's drive (41_i2c_event_engine.md R156) -/

/-- `drive(c)`: a re-arming command waits for the bus; STOP releases the bus and puts `P` in the trace if the bus was
owned; HOLD leaves it claimed. STOP and HOLD raise no event. -/
def I2c.drive (c : I2c) : DriveCommand → I2c
  | .rearm k => { c with cmd := some k }
  | .stop =>
    { c with
      cmd := none
      trace := if c.busOwned then c.trace ++ [.stop] else c.trace
      busOwned := false }
  | .hold => { c with cmd := none }

/-- COMPLETE (R142): `Idle`, then HOLD when `HoldBus` is set and STOP when it is clear. -/
def I2c.complete (c : I2c) : I2c :=
  { c with state := .idle }.drive (if c.holdBus then .hold else .stop)

/-- ABORT (R143): `Idle` and STOP, whatever `HoldBus` is. -/
def I2c.abort (c : I2c) : I2c := { c with state := .idle }.drive .stop

/-- ARM_RECEIVE (R147): the completion path when no byte remains, NACK when one remains, ACK when more do. -/
def I2c.armReceive (c : I2c) : I2c :=
  if c.buf.progress = 0 then c.complete
  else if c.buf.progress = 1 then c.drive (.rearm .recvNack)
  else c.drive (.rearm .recvAck)

/-- The cursor moves on by one byte (R153). -/
def TransferBuffer.advance (b : TransferBuffer) : TransferBuffer := { b with cursor := b.cursor + 1 }

/-- The context with the cursor one byte further. -/
def I2c.advance (c : I2c) : I2c := { c with buf := c.buf.advance }

/-- Entry of the I2C handler (R140): the event is acknowledged and the whole status byte is recorded, before any
action. -/
def I2c.enterHandler (c : I2c) (status : Byte) : I2c := { c with event := none, lastStatus := status }

/-- A start operation (40_i2c_foreground.md R121, R122): the engine state, the flags, the address-plus-direction byte
and the span are written, and START is driven last. -/
def I2c.startTransaction (c : I2c) (state : EngineState) (dir : BitVec 1) (address flags : Byte) (buffer length : Addr) :
    I2c :=
  { c with
    state := state
    flags := flags
    sla := slaOf address dir
    buf := ⟨buffer, buffer, buffer + length⟩ }.drive (.rearm .start)

/-- A start operation with its checks (R121, R122): illegal operands are refused, a start while a transaction is
outstanding or before I2C_INIT is misuse. -/
def State.startTransaction (s : State) (state : EngineState) (dir : BitVec 1) (address flags : Byte)
    (buffer length : Addr) : State :=
  if !startLegal address flags buffer length then s.refuse
  else if s.i2c.state != .idle then s.raiseMisuse .startWhileBusy
  else if !s.i2c.enabled then s.raiseMisuse .notInitialised
  else s.withI2c (s.i2c.startTransaction state dir address flags buffer length)

/-! ### The actions of the I2C handler (41_i2c_event_engine.md R144 to R151) -/

/-- A1 (R144): the address-plus-direction byte goes to the data register and is sent. -/
def State.actionA1 (s : State) : State := s.withI2c ({ s.i2c with dr := s.i2c.sla }.drive (.rearm .send))

/-- A2 (R145): the next byte is loaded, the cursor advances and the byte is sent; with no byte left, COMPLETE. -/
def State.actionA2 (s : State) : State :=
  if s.i2c.buf.exhausted then s.withI2c s.i2c.complete
  else s.withI2c ({ s.i2c with dr := s.mem.read s.i2c.buf.cursor }.advance.drive (.rearm .send))

/-- A3 (R146): COMPLETE; the cursor is not moved back. -/
def State.actionA3 (s : State) : State := s.withI2c s.i2c.complete

/-- A4 (R147). -/
def State.actionA4 (s : State) : State := s.withI2c s.i2c.armReceive

/-- A5 (R148). -/
def State.actionA5 (s : State) : State := s.withI2c s.i2c.abort

/-- The received byte is stored at the cursor and the cursor advances (R149, R150). -/
def State.storeReceived (s : State) : State :=
  { s with mem := s.mem.write s.i2c.buf.cursor s.i2c.dr, i2c := s.i2c.advance }

/-- A6 (R149): with no room, ABORT and no write; else the byte is stored and the bus armed for the next one. -/
def State.actionA6 (s : State) : State :=
  if s.i2c.buf.exhausted then s.withI2c s.i2c.abort
  else s.storeReceived.withI2c s.storeReceived.i2c.armReceive

/-- A7 (R150): with no room, ABORT and no write; else the byte is stored and the transaction completes. -/
def State.actionA7 (s : State) : State :=
  if s.i2c.buf.exhausted then s.withI2c s.i2c.abort
  else s.storeReceived.withI2c s.storeReceived.i2c.complete

/-- A8 (R151). -/
def State.actionA8 (s : State) : State := s.withI2c s.i2c.abort

/-- Exactly one action (R141), chosen by the status code alone. -/
def State.performAction (s : State) : Config.Action → State
  | .a1 => s.actionA1
  | .a2 => s.actionA2
  | .a3 => s.actionA3
  | .a4 => s.actionA4
  | .a5 => s.actionA5
  | .a6 => s.actionA6
  | .a7 => s.actionA7
  | .a8 => s.actionA8

/-! ### Progress reads (20_memory.md R78) -/

/-- The first byte step of a split progress read: byte 0 or byte 1 of the count, in the parameter's order. -/
def State.beginSplit (s : State) (target : ProgressTarget) (p : Addr) : State :=
  match s.params.progressReadOrder with
  | .lowFirst => { s with split := some ⟨target, byteOf p 0⟩ }
  | .highFirst => { s with split := some ⟨target, byteOf p 1⟩ }

/-- The second byte step: the other byte of the count as it stands now, and the result. -/
def State.finishSplit (s : State) (first : Byte) (p : Addr) : State :=
  match s.params.progressReadOrder with
  | .lowFirst => { s with split := none, response := some (.progress (addrOfBytes first (byteOf p 1))) }
  | .highFirst => { s with split := none, response := some (.progress (addrOfBytes (byteOf p 0) first)) }

/-- One step of a progress read of the count `p`: the whole count when progress reads are atomic; else the first byte,
or, with the first byte of the same read taken, the second byte and the result. -/
def State.readProgress (s : State) (target : ProgressTarget) (p : Addr) : State :=
  if s.params.progressReadAtomic then s.respond (.progress p)
  else
    match s.split with
    | none => s.beginSplit target p
    | some r => if r.target = target then s.finishSplit r.first p else s.beginSplit target p

/-! ### Foreground accesses to the caller's memory (20_memory.md R76) -/

/-- The foreground reads a byte; a byte of a span an engine owns is misuse. -/
def State.foregroundRead (s : State) (a : Addr) : State :=
  if s.spanOwned a then s.raiseMisuse .bufferInUse else s.respond (.memory (s.mem.read a))

/-- The foreground writes a byte; a byte of a span an engine owns is misuse. -/
def State.foregroundWrite (s : State) (a : Addr) (v : Byte) : State :=
  if s.spanOwned a then s.raiseMisuse .bufferInUse else { s with mem := s.mem.write a v }

end Sys2Proof.Machine
end

