-- ==== Sys2Proof/Machine/Bus.lean ====
section
/-!
DEFINITION. The `BUS` agent (41_i2c_event_engine.md R156 to R161): the bus and the remote devices answer a pending
re-arming command with one event.
-/

namespace Sys2Proof.Machine

open Sys2Proof

/-- This master loses the bus: arbitration loss or bus error (R158). -/
def I2c.loseBus (c : I2c) (symbol : BusSymbol) : I2c :=
  { c with busOwned := false, addrPhase := false, trace := c.trace ++ [symbol] }

/-- The byte in the data register was sent and answered (R158). -/
def I2c.sent (c : I2c) (a : Ack) : I2c :=
  { c with addrPhase := false, trace := c.trace ++ [.wrote c.dr a] }

/-- The byte `b` was received and answered (R158, R160). -/
def I2c.receive (c : I2c) (b : Byte) (a : Ack) : I2c :=
  { c with dr := b, trace := c.trace ++ [.received b a] }

/-- The acknowledge a phase reports for a byte sent (R158): in the address phase its class follows the direction bit. -/
def I2c.sendAck? (c : I2c) (phase : Config.StatusPhase) : Option Ack :=
  if c.addrPhase then
    if c.dr.getLsbD 0 then
      match phase with | .slaRAck => some .ack | .slaRNack => some .nack | _ => none
    else
      match phase with | .slaWAck => some .ack | .slaWNack => some .nack | _ => none
  else
    match phase with | .dataWAck => some .ack | .dataWNack => some .nack | _ => none

/-- The effects of the row for command `k` and the phase of the code in the conforming table (R158), with received byte
`b`; none when the table has no such row. -/
def I2c.conformingAnswer (c : I2c) (k : BusCommand) (phase : Option Config.StatusPhase) (b : Byte) : Option I2c :=
  match k, phase with
  | .start, some .start =>
    if c.busOwned then none
    else some { c with busOwned := true, addrPhase := true, trace := c.trace ++ [.start] }
  | .start, some .repStart =>
    if c.busOwned then some { c with addrPhase := true, trace := c.trace ++ [.repStart] } else none
  | .start, some .busError => some { c with busOwned := false, trace := c.trace ++ [.busError] }
  | .start, _ => none
  | _, some .arbLost => some (c.loseBus .arbLost)
  | _, some .busError => some (c.loseBus .busError)
  | .send, some p => (c.sendAck? p).map c.sent
  | .recvAck, some .dataRAck => some (c.receive b .ack)
  | .recvNack, some .dataRNack => some (c.receive b .nack)
  | _, _ => none

/-- The effects of a code outside the table, which a bus that is not held to it may answer (R157): the data register
takes any byte, and the codes of a bus error and of arbitration loss release the bus. R157's effects of such a code do not
name `addrPhase`, and R29 leaves open whether it counts as an answer that sets or clears it: the model leaves `addrPhase`,
and `busOwned` for the other codes, as they were (DEDUCED, unsafe; log entry 24). -/
def I2c.otherAnswer (c : I2c) (phase : Option Config.StatusPhase) (code b : Byte) : I2c :=
  { c with
    dr := b
    trace := c.trace ++ [.other code]
    busOwned := if phase = some .busError ∨ phase = some .arbLost then false else c.busOwned }

/-- The command is answered and the event raised, with the data register as the answer left it (R157). -/
def I2c.raiseEvent (c : I2c) (code : Byte) (presc : BitVec 3) : I2c :=
  { c with cmd := none, event := some ⟨statusOf code presc, c.dr⟩ }

/-- One answer of the bus to the pending command `k`, with the code `k[7:3]` of the chosen byte (R157). Under
`BUS_STRICT` a code outside the table is no step of the bus. -/
def I2c.answer (c : I2c) (p : Config.Params) (k : BusCommand) (code b : Byte) : I2c :=
  let phase := statusPhase? p.statusTable code
  match c.conformingAnswer k phase b with
  | some c' => c'.raiseEvent (statusCode code) p.presc
  | none =>
    if p.busStrict then c else (c.otherAnswer phase (statusCode code) b).raiseEvent (statusCode code) p.presc

/-- A step of `BUS`: enabled while a command is pending and the peripheral is enabled (R157). -/
def State.busStep (s : State) (code b : Byte) : State :=
  match s.i2c.cmd with
  | none => s
  | some k => if s.i2c.enabled then s.withI2c (s.i2c.answer s.params k code b) else s

end Sys2Proof.Machine
end

