-- ==== Sys2Proof/Machine/I2cEvent.lean ====
section
/-!
DEFINITION. The I2C event (41_i2c_event_engine.md R140) and the fourteen status codes (30_encoding.md R101), each with
the action it selects (R144 to R151).

A status row is the action alone: the event's acknowledgement and the recording of `lastStatus` are the handler's entry,
which belongs to I2C_EVENT. The action is chosen by the status code and not by `i2c.state` (R141).
-/

namespace Sys2Proof.Machine

open Sys2Proof

/-- I2C_EVENT (R140): when the event port delivers this event (it is the pending one and `gie = 1`, 60_exceptions.md
R265), the event is consumed, its whole status byte recorded, and exactly one action performed. A handler that is not
enabled takes no step. -/
def execI2cEvent (status data : Byte) (s : State) : Host.Outcome State Fault Refusal :=
  s.perform fun s =>
    if s.gie && s.i2c.event == some ⟨status, data⟩ then
      (s.withI2c (s.i2c.enterHandler status)).performAction (decodeStatusAction s.params.statusTable status)
    else s

/-- STATUS_START, 0x08: A1 (R144). -/
def execStatusStart (_presc : BitVec 3) (s : State) : Host.Outcome State Fault Refusal :=
  s.perform State.actionA1

/-- STATUS_REP_START, 0x10: A1 (R144). -/
def execStatusRepStart (_presc : BitVec 3) (s : State) : Host.Outcome State Fault Refusal :=
  s.perform State.actionA1

/-- STATUS_SLA_W_ACK, 0x18: A2 (R145). -/
def execStatusSlaWAck (_presc : BitVec 3) (s : State) : Host.Outcome State Fault Refusal :=
  s.perform State.actionA2

/-- STATUS_SLA_W_NACK, 0x20: A3 (R146). -/
def execStatusSlaWNack (_presc : BitVec 3) (s : State) : Host.Outcome State Fault Refusal :=
  s.perform State.actionA3

/-- STATUS_DATA_W_ACK, 0x28: A2 (R145, 92_eei_decisions.md D42). -/
def execStatusDataWAck (_presc : BitVec 3) (s : State) : Host.Outcome State Fault Refusal :=
  s.perform State.actionA2

/-- STATUS_DATA_W_NACK, 0x30: A3 (R146). -/
def execStatusDataWNack (_presc : BitVec 3) (s : State) : Host.Outcome State Fault Refusal :=
  s.perform State.actionA3

/-- STATUS_ARB_LOST, 0x38: A8 (R151). -/
def execStatusArbLost (_presc : BitVec 3) (s : State) : Host.Outcome State Fault Refusal :=
  s.perform State.actionA8

/-- STATUS_SLA_R_ACK, 0x40: A4 (R147). -/
def execStatusSlaRAck (_presc : BitVec 3) (s : State) : Host.Outcome State Fault Refusal :=
  s.perform State.actionA4

/-- STATUS_SLA_R_NACK, 0x48: A5 (R148). -/
def execStatusSlaRNack (_presc : BitVec 3) (s : State) : Host.Outcome State Fault Refusal :=
  s.perform State.actionA5

/-- STATUS_DATA_R_ACK, 0x50: A6 (R149). -/
def execStatusDataRAck (_presc : BitVec 3) (s : State) : Host.Outcome State Fault Refusal :=
  s.perform State.actionA6

/-- STATUS_DATA_R_NACK, 0x58: A7 (R150). -/
def execStatusDataRNack (_presc : BitVec 3) (s : State) : Host.Outcome State Fault Refusal :=
  s.perform State.actionA7

/-- STATUS_BUS_ERROR, 0x00: A8 (R151). -/
def execStatusBusError (_presc : BitVec 3) (s : State) : Host.Outcome State Fault Refusal :=
  s.perform State.actionA8

/-- STATUS_NO_INFO, 0xF8: A8 (R151). -/
def execStatusNoInfo (_presc : BitVec 3) (s : State) : Host.Outcome State Fault Refusal :=
  s.perform State.actionA8

/-- STATUS_OTHER, any value no other row names: A8 (R151, 30_encoding.md R102). -/
def execStatusOther (_status : Byte) (s : State) : Host.Outcome State Fault Refusal :=
  s.perform State.actionA8

end Sys2Proof.Machine
end

