-- ==== Sys2Proof/Machine/I2cForeground.lean ====
section
/-!
DEFINITION. The I2C foreground operations (40_i2c_foreground.md R120 to R125).
-/

namespace Sys2Proof.Machine

open Sys2Proof

/-- I2C_INIT (R120): operands of 0 are refused; a busy engine or a held bus is misuse; else the bit rate is programmed
and the peripheral enabled. -/
def execI2cInit (cpuClockHz bitRate : Word32) (s : State) : Host.Outcome State Fault Refusal :=
  s.perform fun s =>
    if !(rateLegal cpuClockHz && rateLegal bitRate) then s.refuse
    else if s.i2c.busy then s.raiseMisuse .initWhileBusy
    else s.withI2c { s.i2c with bitRate := Config.i2cBitRate cpuClockHz bitRate, enabled := true }

/-- I2C_START_WRITE (R121): direction bit 0 (30_encoding.md R96). -/
def execI2cStartWrite (address flags : Byte) (buffer length : Addr) (s : State) : Host.Outcome State Fault Refusal :=
  s.perform fun s => s.startTransaction .masterWriting 0 address flags buffer length

/-- I2C_START_READ (R122): direction bit 1 (30_encoding.md R96). -/
def execI2cStartRead (address flags : Byte) (buffer length : Addr) (s : State) : Host.Outcome State Fault Refusal :=
  s.perform fun s => s.startTransaction .masterReading 1 address flags buffer length

/-- I2C_GET_STATE (R123). -/
def execI2cGetState (s : State) : Host.Outcome State Fault Refusal :=
  s.perform fun s => s.respond (.engineState s.i2c.state.code)

/-- I2C_GET_STATUS (R124): all eight bits as recorded. -/
def execI2cGetStatus (s : State) : Host.Outcome State Fault Refusal :=
  s.perform fun s => s.respond (.status s.i2c.lastStatus)

/-- I2C_GET_PROGRESS (R125): one step when progress reads are atomic, else two byte steps. -/
def execI2cGetProgress (s : State) : Host.Outcome State Fault Refusal :=
  s.perform fun s => s.readProgress .i2c s.i2c.buf.progress

end Sys2Proof.Machine
end

