-- ==== Sys2Proof/Machine/UartEvent.lean ====
section
/-!
DEFINITION. The UART event handlers (43_uart_event_engine.md R230 to R232). A handler whose event is not delivered (not
pending, or `gie = 0`, 60_exceptions.md R265) takes no step.
-/

namespace Sys2Proof.Machine

open Sys2Proof

/-- The body of the TX-empty handler on unit `u` with context `x` (R231): nothing with no stream outstanding, which needs
`txMode` (10_state.md R30, R31; log entry 23) beside the span; else the cursor advances and, with bytes left, the next one
goes to the data register. -/
def State.streamNextByte (s : State) (unit : Byte) (x : Uart) : State :=
  if !x.streamActive then s.withUart unit x
  else if x.txBuf.advance.exhausted then s.withUart unit { x with txBuf := x.txBuf.advance }
  else if !x.txEmpty then s.raiseMisuse .overrun
  else s.withUart unit { x with txBuf := x.txBuf.advance, txData := some (s.mem.read x.txBuf.advance.cursor) }

/-- UART_TX_EMPTY_EVENT (R230): the event is cleared, then the handler body runs. -/
def execUartTxEmptyEvent (unit : Byte) (s : State) : Host.Outcome State Fault Refusal :=
  s.perform fun s => s.onUnit unit fun x =>
    if s.txDeliverable unit then s.streamNextByte unit { x with txEvt := false } else s

/-- UART_RX_DATA_EVENT (R232): the event is cleared and nothing else happens. -/
def execUartRxDataEvent (unit : Byte) (s : State) : Host.Outcome State Fault Refusal :=
  s.perform fun s => s.onUnit unit fun x =>
    if s.rxDeliverable unit then s.withUart unit { x with rxEvt := false } else s

end Sys2Proof.Machine
end

