-- ==== Sys2Proof/Machine/UartForeground.lean ====
section
/-!
DEFINITION. The UART foreground operations (42_uart_foreground.md R191 to R197). A `unit` that no context has is refused
(30_encoding.md R92).
-/

namespace Sys2Proof.Machine

open Sys2Proof

/-- The context UART_INIT leaves (R191). `rxIe` is 0 because receive `Auto` is refused; `txEmpty`, `rxFull` and the rest
of the data path are not written. -/
def Uart.configure (x : Uart) (divisor : BitVec 12) (config : Byte) (txMode rxMode : UartMode) : Uart :=
  { x with
    divisor := divisor
    doubleSpeed := configDoubleSpeed config
    stopBits := configStopBits config
    txMode := txMode
    rxMode := rxMode
    txEn := txMode != .disabled
    txIe := txMode == .auto
    rxEn := rxMode != .disabled
    rxIe := false
    txBuf := .zero }

/-- UART_INIT (R191): illegal operands are refused, a busy unit is misuse, a divisor out of range is refused (R190), and
else the unit is configured. `rxFull` is not written, so a byte that waits stays (log entry 23). -/
def execUartInit (unit : Byte) (cpuClockHz baud : Word32) (config : Byte) (s : State) :
    Host.Outcome State Fault Refusal :=
  s.perform fun s => s.onUnit unit fun x =>
    if !(rateLegal cpuClockHz && rateLegal baud && configReservedClear config) then s.refuse
    else
      match configTxMode config, configRxMode config with
      | some txMode, some rxMode =>
        if x.busy then s.raiseMisuse .initWhileBusy
        else
          match baudDivisor cpuClockHz baud (configDoubleSpeed config) with
          | some divisor => s.withUart unit (x.configure divisor config txMode rxMode)
          | none => s.refuse
      | _, _ => s.refuse

/-- UART_SEND_READY (R192): the transmit-empty flag. -/
def execUartSendReady (unit : Byte) (s : State) : Host.Outcome State Fault Refusal :=
  s.perform fun s => s.onUnit unit fun x => s.respond (.ready x.txEmpty)

/-- UART_SEND_MANUAL (R193): misuse with the transmitter off, with a byte in the data register or during an auto stream;
else the byte goes to the data register. -/
def execUartSendManual (unit byte : Byte) (s : State) : Host.Outcome State Fault Refusal :=
  s.perform fun s => s.onUnit unit fun x =>
    if x.txMode == .disabled then s.raiseMisuse .txDisabled
    else if !x.txEmpty then s.raiseMisuse .overrun
    else if x.streamActive then s.raiseMisuse .streamActive
    else s.withUart unit { x with txData := some byte }

/-- UART_SEND_AUTO (R194): a span that wraps is refused; misuse outside `Auto` mode, with a stream outstanding or with a
byte in the data register; else the stream is bound with the cursor at its start and, when it is not empty, its first
byte goes to the data register. -/
def execUartSendAuto (unit : Byte) (buffer length : Addr) (s : State) : Host.Outcome State Fault Refusal :=
  s.perform fun s => s.onUnit unit fun x =>
    if !spanLegal buffer length then s.refuse
    else if x.txMode != .auto then s.raiseMisuse .notAutoMode
    else if !x.txBuf.exhausted then s.raiseMisuse .streamActive
    else if !x.txEmpty then s.raiseMisuse .overrun
    else s.withUart unit
      { x with
        txBuf := ⟨buffer, buffer, buffer + length⟩
        txData := if length = 0 then x.txData else some (s.mem.read buffer) }

/-- UART_SEND_AUTO_PROGRESS (R195): as I2C_GET_PROGRESS, of the unit's stream. -/
def execUartSendAutoProgress (unit : Byte) (s : State) : Host.Outcome State Fault Refusal :=
  s.perform fun s => s.onUnit unit fun x => s.readProgress (.uart unit) x.txBuf.progress

/-- UART_RECEIVE_READY (R196): whether a received byte is ready, which needs the receive mode (R30; log entry 23). -/
def execUartReceiveReady (unit : Byte) (s : State) : Host.Outcome State Fault Refusal :=
  s.perform fun s => s.onUnit unit fun x => s.respond (.ready x.receiveReady)

/-- UART_RECEIVE_FETCH (R197): misuse when no byte waits (R263); else the byte is returned and `rxFull` cleared. The receive
mode, which R30 lists as read here, makes no difference (log entry 23). -/
def execUartReceiveFetch (unit : Byte) (s : State) : Host.Outcome State Fault Refusal :=
  s.perform fun s => s.onUnit unit fun x =>
    if !x.rxFull then s.raiseMisuse .noData
    else (s.withUart unit { x with rxFull := false }).respond (.data x.rxData)

end Sys2Proof.Machine
end

