-- ==== Sys2Proof/Machine/Dispatch.lean ====
section
/-! DEFINITION. The meaning of each operation: one arm per constructor of `Instr`. -/

namespace Sys2Proof.Machine

open Sys2Proof

def exec (i : Instr) (s : State) : Host.Outcome State Fault Refusal :=
  match i with
  | .i2cInit cpuClockHz bitRate => Sys2Proof.Machine.execI2cInit cpuClockHz bitRate s
  | .i2cStartWrite address flags buffer length => Sys2Proof.Machine.execI2cStartWrite address flags buffer length s
  | .i2cStartRead address flags buffer length => Sys2Proof.Machine.execI2cStartRead address flags buffer length s
  | .i2cGetState => Sys2Proof.Machine.execI2cGetState s
  | .i2cGetStatus => Sys2Proof.Machine.execI2cGetStatus s
  | .i2cGetProgress => Sys2Proof.Machine.execI2cGetProgress s
  | .uartInit unit cpuClockHz baud config => Sys2Proof.Machine.execUartInit unit cpuClockHz baud config s
  | .uartSendReady unit => Sys2Proof.Machine.execUartSendReady unit s
  | .uartSendManual unit byte => Sys2Proof.Machine.execUartSendManual unit byte s
  | .uartSendAuto unit buffer length => Sys2Proof.Machine.execUartSendAuto unit buffer length s
  | .uartSendAutoProgress unit => Sys2Proof.Machine.execUartSendAutoProgress unit s
  | .uartReceiveReady unit => Sys2Proof.Machine.execUartReceiveReady unit s
  | .uartReceiveFetch unit => Sys2Proof.Machine.execUartReceiveFetch unit s
  | .i2cEvent status data => Sys2Proof.Machine.execI2cEvent status data s
  | .uartTxEmptyEvent unit => Sys2Proof.Machine.execUartTxEmptyEvent unit s
  | .uartRxDataEvent unit => Sys2Proof.Machine.execUartRxDataEvent unit s
  | .statusStart presc => Sys2Proof.Machine.execStatusStart presc s
  | .statusRepStart presc => Sys2Proof.Machine.execStatusRepStart presc s
  | .statusSlaWAck presc => Sys2Proof.Machine.execStatusSlaWAck presc s
  | .statusSlaWNack presc => Sys2Proof.Machine.execStatusSlaWNack presc s
  | .statusDataWAck presc => Sys2Proof.Machine.execStatusDataWAck presc s
  | .statusDataWNack presc => Sys2Proof.Machine.execStatusDataWNack presc s
  | .statusArbLost presc => Sys2Proof.Machine.execStatusArbLost presc s
  | .statusSlaRAck presc => Sys2Proof.Machine.execStatusSlaRAck presc s
  | .statusSlaRNack presc => Sys2Proof.Machine.execStatusSlaRNack presc s
  | .statusDataRAck presc => Sys2Proof.Machine.execStatusDataRAck presc s
  | .statusDataRNack presc => Sys2Proof.Machine.execStatusDataRNack presc s
  | .statusBusError presc => Sys2Proof.Machine.execStatusBusError presc s
  | .statusNoInfo presc => Sys2Proof.Machine.execStatusNoInfo presc s
  | .statusOther status => Sys2Proof.Machine.execStatusOther status s

end Sys2Proof.Machine
end

