-- ==== Sys2Proof/Machine/Line.lean ====
section
/-!
DEFINITION. The `LINE(u)` agents (43_uart_event_engine.md R233 to R235): bytes leave the data register, leave the shift
stage onto the wire, and come in from the wire. A step that is not enabled changes nothing.
-/

namespace Sys2Proof.Machine

open Sys2Proof

/-- Load (R233): the data register hands its byte to the empty shift stage; the transmit-empty event is raised when it
is enabled. -/
def Uart.loadShift (x : Uart) : Uart :=
  if x.txEn && x.txShift.isNone then
    match x.txData with
    | some b => { x with txShift := some b, txData := none, txEvt := x.txEvt || x.txIe }
    | none => x
  else x

/-- Shift-out (R234). -/
def Uart.shiftOut (x : Uart) : Uart :=
  match x.txShift with
  | some b => { x with lineOut := x.lineOut ++ [b], txShift := none }
  | none => x

/-- Receive (R235): on an overrun `rxData` keeps either byte. -/
def Uart.receive (x : Uart) (b : Byte) (keepOld : Bool) : Uart :=
  if x.rxEn then
    { x with
      rxData := if x.rxFull && keepOld then x.rxData else b
      rxFull := true
      rxEvt := x.rxEvt || x.rxIe }
  else x

/-- A step of unit `u`'s line; there is no line of a unit that does not exist. -/
def State.lineStep (s : State) (unit : Byte) (f : Uart → Uart) : State :=
  match s.uart? unit with
  | some x => s.withUart unit (f x)
  | none => s

end Sys2Proof.Machine
end

