-- ==== Sys2Proof/Machine/Agents.lean ====
section
/-!
DEFINITION. The steps of the agents (00_scope.md R13). The foreground issues its operations on the command port; event
delivery puts the words of a pending event on the event port (60_exceptions.md R265); the bus, the lines and the platform
step by themselves. Each step is atomic (20_memory.md R77); which agent steps next, and what the remote devices choose,
is data of the state (`Turn`), so every interleaving is some state's list of turns (R80).
-/

namespace Sys2Proof.Machine

open Sys2Proof

/-- A change of the next state of an outcome. -/
def mapNext (f : State → State) : Host.Outcome State Fault Refusal → Host.Outcome State Fault Refusal
  | .next t => .next (f t)
  | .fault r => .fault r
  | .refused r => .refused r

/-- The foreground issues one operation. Bytes that are no operation of the command port are refused (30_encoding.md
R92), the event words among them: they are never issued by the foreground (R90). -/
def State.issue (s : State) : ForegroundOp → Host.Outcome State Fault Refusal
  | .command words =>
    match decode s.params.statusTable .command words with
    | .ok i => exec i s
    | .error _ => s.perform State.refuse
  | .memRead a => s.perform fun s => s.foregroundRead a
  | .memWrite a v => s.perform fun s => s.foregroundWrite a v

/-- What follows an operation the foreground issued in state `s`: it goes on to the next one, unless the operation was a
split progress read that has just read its first byte (20_memory.md R78). -/
def State.retire (s : State) (rest : List ForegroundOp) (t : State) : State :=
  if t.split.isSome && t.split != s.split then t else { t with program := rest }

/-- A step of `FG`: its next operation; with none left, nothing. -/
def State.foregroundStep (s : State) : Host.Outcome State Fault Refusal :=
  match s.program with
  | [] => s.perform id
  | op :: rest => mapNext (s.retire rest) (s.issue op)

/-- The words event delivery puts on the event port for a handler's turn (30_encoding.md R93): none unless its source is
pending and `gie = 1` (60_exceptions.md R265). -/
def State.eventWords (s : State) : Turn → Option (List Byte)
  | .i2cHandler => if s.i2cDeliverable then s.i2c.event.map fun e => [0x80, e.status, e.data] else none
  | .txHandler unit => if s.txDeliverable unit then some [0x90, unit] else none
  | .rxHandler unit => if s.rxDeliverable unit then some [0x91, unit] else none
  | .foreground | .bus .. | .lineLoad _ | .lineShift _ | .lineReceive .. | .platform _ => none

/-- A step of a handler: the delivered event's words are decoded and run; with nothing delivered there is no step. -/
def State.handlerStep (s : State) (t : Turn) : Host.Outcome State Fault Refusal :=
  match s.eventWords t with
  | none => s.perform id
  | some words =>
    match decode s.params.statusTable .event words with
    | .ok i => exec i s
    | .error _ => s.perform id

/-- A step of the agent whose turn it is. -/
def State.turnStep (s : State) (t : Turn) : Host.Outcome State Fault Refusal :=
  match t with
  | .foreground => s.foregroundStep
  | .i2cHandler | .txHandler _ | .rxHandler _ => s.handlerStep t
  | .bus code data => s.perform fun s => s.busStep code data
  | .lineLoad unit => s.perform fun s => s.lineStep unit Uart.loadShift
  | .lineShift unit => s.perform fun s => s.lineStep unit Uart.shiftOut
  | .lineReceive unit data keepOld => s.perform fun s => s.lineStep unit fun x => x.receive data keepOld
  | .platform gie => s.perform fun s => { s with gie := gie }

/-! ### Placing an operation where the next step fetches it -/

/-- The I2C event that makes the next turn the I2C handler's. -/
def State.placeI2cEvent (s : State) (status data : Byte) : State :=
  { s with
    i2c := { s.i2c with event := some ⟨status, data⟩ }
    gie := true
    turns := .i2cHandler :: s.turns }

/-- A UART event pending on a unit. -/
def State.placeUartEvent (s : State) (unit : Byte) (t : Turn) (f : Uart → Uart) : State :=
  { s.lineStep unit f with gie := true, turns := t :: s.turns }

/-- The bytes of an operation where the next step fetches them: a command at the head of the foreground's operations, an
event pending and deliverable, a status value in the status register of a deliverable I2C event; and the turn of the
agent that runs it. -/
def State.placeRecord (s : State) (port : Port) (bytes : List Byte) : State :=
  match port, bytes with
  | .event, [_, status, data] => s.placeI2cEvent status data
  | .event, [op, unit] =>
    if op = 0x90 then s.placeUartEvent unit (.txHandler unit) fun x => { x with txEvt := true }
    else s.placeUartEvent unit (.rxHandler unit) fun x => { x with rxEvt := true }
  | .status, [status] => s.placeI2cEvent status s.i2c.dr
  | _, _ => { s with program := .command bytes :: s.program, turns := .foreground :: s.turns, split := none }

/-- The table's bits where the next step fetches them; bits that are no operation go to the command port. -/
def State.placeTableWord (s : State) (nbits w : Nat) : State :=
  match tableRecord nbits w with
  | some (port, bytes) => s.placeRecord port bytes
  | none => s.placeRecord .command ((List.range ((nbits + 7) / 8)).map (tableByte nbits w))

end Sys2Proof.Machine
end

