-- ==== Sys2Proof/Machine/Step.lean ====
section
/-!
DEFINITION. One step of the machine: the agent whose turn it is steps; with no turn left it is the foreground's
(70_reset_and_hazards.md R301: after reset the foreground is the agent that can step).
-/

namespace Sys2Proof.Machine

open Sys2Proof

/-- One atomic step of one agent (20_memory.md R77, R80). -/
def step (s : State) : Host.Outcome State Fault Refusal :=
  match s.turns with
  | [] => s.foregroundStep
  | t :: rest => { s with turns := rest }.turnStep t

/-- The operation whose bits in the opcode table are `w`, stored where the next step fetches it. -/
def State.withFetchWord (s : State) (nbits w : Nat) : State := s.placeTableWord nbits w

end Sys2Proof.Machine
end

