-- ==== Sys2Proof/Safety.lean ====
section
/-!
DEFINITION. What counts as a good state and a safe run: no caller misuse and no refused operation (60_exceptions.md
R262, 30_encoding.md R92), the relations between the fields of the state that the rules promise, the relations that hold
in addition on a bus held to the conforming table (`BUS_STRICT`), and the counts of 70_reset_and_hazards.md R313.
-/

namespace Sys2Proof.Machine

open Sys2Proof

/-- No misuse and no refusal so far: a good final state (R262). -/
def State.unharmed (s : State) : Prop := s.fault = none ∧ s.refused = false

/-- `start ≤ cursor ≤ end` (10_state.md R27). -/
def TransferBuffer.Ordered (b : TransferBuffer) : Prop :=
  b.start.toNat ≤ b.cursor.toNat ∧ b.cursor.toNat ≤ b.limit.toNat

/-- The I2C context between two steps, `p` the parameters. -/
structure I2c.Consistent (p : Config.Params) (c : I2c) : Prop where
  /-- `Error` is never entered (10_state.md R23). -/
  notError : c.state ≠ .error
  /-- No command and no event while `Idle` (41_i2c_event_engine.md R159). -/
  idleQuiet : c.state = .idle → c.cmd = none ∧ c.event = none
  /-- While a transaction is outstanding the peripheral is enabled and exactly one of command and event is set (R159). -/
  busyArmed : c.state ≠ .idle → c.enabled = true ∧ c.cmd.isSome = !c.event.isSome
  /-- The reserved bits of `flags` are 0 (30_encoding.md R94). -/
  flagsReserved : flagsLegal c.flags = true
  /-- 10_state.md R27. -/
  ordered : c.buf.Ordered
  /-- A pending event carries `PRESC` in bits 2:0 and the data register (R157, R140). -/
  eventFields : ∀ e, c.event = some e → e.status.extractLsb' 0 3 = p.presc ∧ e.data = c.dr

/-- A UART context between two steps. -/
structure Uart.Consistent (x : Uart) : Prop where
  /-- 10_state.md R30. -/
  ordered : x.txBuf.Ordered
  /-- The enables follow the modes (42_uart_foreground.md R191). -/
  txEnable : x.txEn = (x.txMode != .disabled)
  txInterrupt : x.txIe = (x.txMode == .auto)
  /-- A transmit-empty event is pending in `Auto` mode only (43_uart_event_engine.md R233, R191). -/
  txPending : x.txEvt = true → x.txMode = .auto
  rxEnable : x.rxEn = (x.rxMode != .disabled)
  /-- Receive `Auto` is never set, so no data-received event is ever enabled or pending (43_uart_event_engine.md R232). -/
  rxNotAuto : x.rxMode ≠ .auto
  rxInterrupt : x.rxIe = false
  rxQuiet : x.rxEvt = false

/-- The relations between the fields of the state that every step keeps. What concerns the contexts is promised while
`fault.misuse` is clear (10_state.md R27, 60_exceptions.md R262). -/
structure State.Consistent (s : State) : Prop where
  /-- The memory is in canonical form. -/
  memory : s.mem.wf = true
  /-- The status table tells the phases apart (30_encoding.md R101; log entry 22). -/
  table : statusTableWf s.params.statusTable = true
  /-- There is at least one unit (00_scope.md R8). -/
  units : 0 < s.uarts.length
  /-- `registerBase` is the unit index (10_state.md R30). -/
  bases : ∀ k (h : k < s.uarts.length), (s.uarts[k]).registerBase = k
  i2c : s.fault = none → s.i2c.Consistent s.params
  uart : s.fault = none → ∀ x ∈ s.uarts, x.Consistent

/-- The codes the conforming table allows the bus to answer a command with (41_i2c_event_engine.md R158), `t` being the
status table. -/
def I2c.allowedCodes (t : Config.StatusTable) (c : I2c) : BusCommand → List Byte
  | .start => if c.busOwned then [t.repStart, t.busError] else [t.start, t.busError]
  | .send =>
    if c.addrPhase then
      if c.dr.getLsbD 0 then [t.slaRAck, t.slaRNack, t.arbLost, t.busError]
      else [t.slaWAck, t.slaWNack, t.arbLost, t.busError]
    else [t.dataWAck, t.dataWNack, t.arbLost, t.busError]
  | .recvAck => [t.dataRAck, t.arbLost, t.busError]
  | .recvNack => [t.dataRNack, t.arbLost, t.busError]

/-- The state after a bus turn that has answered the pending command with code `k` (in bits 7:3), leaving the context
`c`: the turn is over, the command is answered, and the event is raised with `PRESC` and the data register
(41_i2c_event_engine.md R157). -/
def State.busAnswered (s : State) (ts : List Turn) (k : Byte) (c : I2c) : State :=
  { s with
    turns := ts
    i2c := { c with cmd := none, event := some ⟨k ||| s.params.presc.setWidth 8, c.dr⟩ } }

/-- What the phase of a pending event says about the transaction on a conforming bus (41_i2c_event_engine.md R158). -/
def I2c.PhaseFits (c : I2c) : Config.StatusPhase → Prop
  | .start | .repStart => c.addrPhase = true
  | .slaWAck | .slaWNack | .dataWAck | .dataWNack => c.state = .masterWriting ∧ c.addrPhase = false
  | .slaRAck | .slaRNack => c.state = .masterReading ∧ c.addrPhase = false
  | .dataRAck => c.state = .masterReading ∧ 2 ≤ c.buf.progress.toNat ∧ c.addrPhase = false
  | .dataRNack => c.state = .masterReading ∧ c.buf.progress.toNat = 1 ∧ c.addrPhase = false
  | .arbLost | .busError => True
  | .noInfo => False

/-- What a pending command says about the transaction on a conforming bus. -/
def I2c.CommandFits (c : I2c) : BusCommand → Prop
  | .start => True
  | .send => (c.addrPhase = true ∧ c.dr = c.sla) ∨ (c.addrPhase = false ∧ c.state = .masterWriting)
  | .recvAck => c.state = .masterReading ∧ 2 ≤ c.buf.progress.toNat ∧ c.addrPhase = false
  | .recvNack => c.state = .masterReading ∧ c.buf.progress.toNat = 1 ∧ c.addrPhase = false

/-- The I2C context on a bus held to the conforming table, `t` being the status table: the direction bit follows the
engine state (R163), and the pending command or event fits the transaction. -/
structure I2c.Conforming (t : Config.StatusTable) (c : I2c) : Prop where
  writeDirection : c.state = .masterWriting → c.sla.getLsbD 0 = false
  readDirection : c.state = .masterReading → c.sla.getLsbD 0 = true
  command : ∀ k, c.cmd = some k → c.CommandFits k
  event : ∀ e, c.event = some e → ∃ p, statusPhase? t e.status = some p ∧ c.PhaseFits p

/-- How many handler invocations a transaction with `n` bytes to move can still take once the event of a phase is
pending (R154). -/
def phaseBudget (n : Nat) : Option Config.StatusPhase → Nat
  | some .arbLost | some .busError => 1
  | some .start | some .repStart => n + 2
  | some .dataRAck | some .dataRNack => n
  | _ => n + 1

/-- How many more handler invocations the transaction can take on a conforming bus (R154): none when nothing is pending,
one for a lost bus, and else one for the start code, one for the address code and one for each byte still to move. -/
def I2c.handlerBudget (t : Config.StatusTable) (c : I2c) : Nat :=
  match c.cmd, c.event with
  | some .start, _ => c.buf.progress.toNat + 2
  | some .send, _ => c.buf.progress.toNat + 1
  | some .recvAck, _ => c.buf.progress.toNat
  | some .recvNack, _ => c.buf.progress.toNat
  | none, some e => phaseBudget c.buf.progress.toNat (statusPhase? t e.status)
  | none, none => 0

/-- The next step is an invocation of the I2C handler: its turn has come and an event is delivered (R265). -/
def State.i2cHandlerNext (s : State) : Bool :=
  match s.turns with
  | .i2cHandler :: _ => s.i2cDeliverable
  | _ => false

/-- `n` steps through which the I2C transaction is outstanding and no misuse occurs: the state reached and how many of
the steps were invocations of the I2C handler; none when the transaction ends, or misuse occurs, before the last step. -/
def transactionRun : Nat → State → Option (State × Nat)
  | 0, s => some (s, 0)
  | n + 1, s =>
    if s.fault = none ∧ s.i2c.state ≠ .idle then
      match step s with
      | .next t => (transactionRun n t).map fun r => (r.1, r.2 + if s.i2cHandlerNext then 1 else 0)
      | .fault _ => none
      | .refused _ => none
    else none

/-- The next step is an invocation of unit `u`'s TX-empty handler (R265). -/
def State.txHandlerNext (s : State) (unit : Byte) : Bool :=
  match s.turns with
  | .txHandler v :: _ => v == unit && s.txDeliverable unit
  | _ => false

/-- `n` steps through which unit `u` has a stream outstanding and no misuse occurs: the state reached and how many of the
steps were invocations of the unit's TX-empty handler; none when the stream ends, or misuse occurs, before the last
step. -/
def streamRun (unit : Byte) : Nat → State → Option (State × Nat)
  | 0, s => some (s, 0)
  | n + 1, s =>
    if s.fault = none ∧ (s.uart? unit).any Uart.streamActive = true then
      match step s with
      | .next t => (streamRun unit n t).map fun r => (r.1, r.2 + if s.txHandlerNext unit then 1 else 0)
      | .fault _ => none
      | .refused _ => none
    else none

/-- The state with every field erased that no rule reads: `RetryOnArbitrationLoss` (10_state.md R25), the bit rate, the
divisors, the speeds and the stop bits (70_reset_and_hazards.md R314), the observations `trace` and `lineOut`, and the
reserved receive buffers (10_state.md R30). -/
def State.eraseUnread (s : State) : State :=
  { s with
    i2c := { s.i2c with flags := s.i2c.flags &&& 0xFD, bitRate := 0, trace := [] }
    uarts := s.uarts.map fun x =>
      { x with divisor := 0, doubleSpeed := false, stopBits := .one, lineOut := [], receiveBuffer := .zero } }

end Sys2Proof.Machine
end

