-- ==== Sys2Proof/Certificates/Slice0/Obligations.lean ====
section
/-!
DEFINITION. The statements for the provers. Each docstring names the rules of spec/ it formalises.

A statement about an operation assumes that no misuse has occurred (`s.fault = none`): after misuse every field is
unspecified, which `Obligations.AfterMisuseEveryFieldIsUnspecified` says of every operation. A statement that writes the
next state as the old one with some fields replaced says with it that every other field, the memory among them, is
unchanged.
-/

open Sys2Proof Sys2Proof.Machine

/-! ### Encoding -/

/-- Decoding an encoded well-formed operation on its port gives it back, with every operand at every legal value and any
status table that tells the phases apart (R90, R91, R94 to R102, R107; the record layout is log entry 7, that the table
tells the phases apart log entry 22). -/
def Obligations.DecodeOfEncodeIsIdentity : Prop :=
  ∀ (tbl : Config.StatusTable) (i : Instr), statusTableWf tbl = true → i.wf tbl = true →
    decode tbl i.port (encode tbl i) = .ok i

/-- Bytes that decode to an operation are that operation's encoding and stand on its port, whatever the status table: no
two records decode to one operation, and no bit of a record is dropped (R92, R107; the record layout is log entry 7). -/
def Obligations.DecodableBytesAreTheEncoding : Prop :=
  ∀ (tbl : Config.StatusTable) (port : Port) (bytes : List Byte) (i : Instr),
    decode tbl port bytes = .ok i → i.port = port ∧ encode tbl i = bytes

/-- Words written out from the tables of R90, R91 and R101 decode to the operations they stand for, on their ports, with
the default status table (the operands' byte layout is log entry 7; the last word, an event word on the command port, is
refused by log entry 11). -/
def Obligations.WrittenWordsDecode : Prop :=
  decode Config.defaultStatusTable .command [0x11, 0x50, 0x01, 0x00, 0x02, 0x03, 0x00] =
    .ok (.i2cStartWrite 0x50 0x01 0x0200 3) ∧
  decode Config.defaultStatusTable .command [0x10, 0x00, 0x24, 0xF4, 0x00, 0xA0, 0x86, 0x01, 0x00] =
    .ok (.i2cInit 16000000 100000) ∧
  decode Config.defaultStatusTable .command [0x23, 0x01, 0x00, 0x03, 0x1A, 0x00] = .ok (.uartSendAuto 1 0x0300 26) ∧
  decode Config.defaultStatusTable .event [0x80, 0x1B, 0xA0] = .ok (.i2cEvent 0x1B 0xA0) ∧
  decode Config.defaultStatusTable .status [0x13] = .ok (.statusRepStart 3) ∧
  decode Config.defaultStatusTable .status [0x60] = .ok (.statusOther 0x60) ∧
  decode Config.defaultStatusTable .command [0x16] = .error (.unknownCommand 0x16) ∧
  decode Config.defaultStatusTable .command [0x90, 0x00] = .error (.wrongPort 0x90)

/-- The status decoder is the table of R101: with any codes as `STATUS_TABLE`, a phase that alone has the masked status
as its code selects the phase's action, and a masked status that is no phase's code selects A8; nothing else is read. The
default codes are those of the table (R101, R102). -/
def Obligations.StatusDecoderIsTheTable : Prop :=
  (∀ (tbl : Config.StatusTable) (status : Byte),
    (∀ p, (∀ q, tbl.code q = status &&& 0xF8 ↔ q = p) →
      decodeStatusAction tbl status = match p with
        | .start | .repStart => .a1
        | .slaWAck | .dataWAck => .a2
        | .slaWNack | .dataWNack => .a3
        | .slaRAck => .a4
        | .slaRNack => .a5
        | .dataRAck => .a6
        | .dataRNack => .a7
        | .arbLost | .busError | .noInfo => .a8) ∧
    ((∀ q, tbl.code q ≠ status &&& 0xF8) → decodeStatusAction tbl status = .a8)) ∧
  ∀ p, Config.defaultStatusTable.code p = match p with
    | .start => 0x08 | .repStart => 0x10 | .slaWAck => 0x18 | .slaWNack => 0x20 | .dataWAck => 0x28
    | .dataWNack => 0x30 | .arbLost => 0x38 | .slaRAck => 0x40 | .slaRNack => 0x48 | .dataRAck => 0x50
    | .dataRNack => 0x58 | .busError => 0x00 | .noInfo => 0xF8

/-- The fields of the `config` byte (R98, R99). -/
def Obligations.ConfigByteFields : Prop :=
  ∀ config : Byte,
    (configStopBits config = if config.getLsbD 0 then .two else .one) ∧
    (configDoubleSpeed config = config.getLsbD 1) ∧
    (configTxMode config = match (config.toNat / 4) % 4 with
      | 0 => some .disabled | 1 => some .manual | 2 => some .auto | _ => none) ∧
    (configRxMode config = match (config.toNat / 16) % 4 with
      | 0 => some .disabled | 1 => some .manual | _ => none) ∧
    (configLegal config = true ↔
      config.toNat < 64 ∧ (config.toNat / 4) % 4 ≠ 3 ∧ (config.toNat / 16) % 4 < 2)

/-! ### A step runs the decoded operation -/

/-- When the foreground's turn has come (or no turn is left) and the bytes it issues decode to `i` on the command port,
the step is `exec i`, after which the foreground goes on to its next operation unless `i` was a progress read that has
just read its first byte (R77, R78). The foreground's bookkeeping is log entry 9. -/
def Obligations.StepRunsTheForegroundsCommand : Prop :=
  ∀ (s : State) (words : List Byte) (rest : List ForegroundOp) (i : Instr),
    s.program = .command words :: rest → decode s.params.statusTable .command words = .ok i →
    (∀ ts, s.turns = .foreground :: ts →
      step s = mapNext ({ s with turns := ts }.retire rest) (exec i { s with turns := ts })) ∧
    (s.turns = [] → step s = mapNext (s.retire rest) (exec i s))

/-- After an operation the foreground moves past it, unless the operation has just begun a split progress read (R78). The
foreground's list of operations and the moving on are the model's own bookkeeping, log entry 9. -/
def Obligations.ForegroundMovesPastAnOperation : Prop :=
  ∀ (s t : State) (rest : List ForegroundOp),
    (t.split = none ∨ t.split = s.split → s.retire rest t = { t with program := rest }) ∧
    (∀ r, t.split = some r → s.split ≠ some r → s.retire rest t = t)

/-- When a handler's turn has come and its event is delivered (pending, `gie = 1`), the event's words decode to an event
operation and the step is `exec` of it (R93, R265; the bytes of the words are the record layout of log entry 7, and the
turn is log entry 9). -/
def Obligations.StepRunsTheDeliveredEvent : Prop :=
  ∀ (s : State) (ts : List Turn), s.gie = true →
    (∀ e, s.turns = .i2cHandler :: ts → s.i2c.event = some e →
      decode s.params.statusTable .event [0x80, e.status, e.data] = .ok (.i2cEvent e.status e.data) ∧
      step s = exec (.i2cEvent e.status e.data) { s with turns := ts }) ∧
    (∀ u x, s.turns = .txHandler u :: ts → s.uart? u = some x → x.txEvt = true →
      decode s.params.statusTable .event [0x90, u] = .ok (.uartTxEmptyEvent u) ∧
      step s = exec (.uartTxEmptyEvent u) { s with turns := ts }) ∧
    (∀ u x, s.turns = .rxHandler u :: ts → s.uart? u = some x → x.rxEvt = true →
      decode s.params.statusTable .event [0x91, u] = .ok (.uartRxDataEvent u) ∧
      step s = exec (.uartRxDataEvent u) { s with turns := ts })

/-- A handler takes no step unless its event is pending and `gie = 1`: its turn passes and nothing else changes (R265).
That the turn passes is log entry 9. -/
def Obligations.NoHandlerStepWithoutDelivery : Prop :=
  ∀ (s : State) (ts : List Turn), s.fault = none →
    (s.turns = .i2cHandler :: ts → s.gie = false ∨ s.i2c.event = none → step s = .next { s with turns := ts }) ∧
    (∀ u x, s.uart? u = some x →
      (s.turns = .txHandler u :: ts → s.gie = false ∨ x.txEvt = false → step s = .next { s with turns := ts }) ∧
      (s.turns = .rxHandler u :: ts → s.gie = false ∨ x.rxEvt = false → step s = .next { s with turns := ts }))

/-- Bytes of the foreground that are no operation of the command port are refused: `refused` is set, no field of the
block changes, and the foreground moves on, whether its turn has come or no turn is left (R92). That an event word and a
record of another length are among those bytes is log entries 11 and 7, the turn and the moving on log entry 9. -/
def Obligations.UndecodableCommandIsRefused : Prop :=
  ∀ (s : State) (words : List Byte) (rest : List ForegroundOp) (ts : List Turn) (r : Reject),
    s.fault = none → s.split = none → s.program = .command words :: rest →
    s.turns = .foreground :: ts ∨ (s.turns = [] ∧ ts = []) →
    decode s.params.statusTable .command words = .error r →
    step s = .next { s with refused := true, program := rest, turns := ts }

/-! ### I2C foreground operations -/

/-- I2C_INIT completes: with non-zero operands, the engine idle, nothing pending and the bus not held, the bit rate is
`I2C_BITRATE` of the operands, the peripheral is enabled, and nothing else changes (R120). -/
def Obligations.I2cInitCompletes : Prop :=
  ∀ (s : State) (cpuClockHz bitRate : Word32),
    s.fault = none → cpuClockHz ≠ 0 → bitRate ≠ 0 →
    s.i2c.state = .idle → s.i2c.cmd = none → s.i2c.event = none → s.i2c.busOwned = false →
    exec (.i2cInit cpuClockHz bitRate) s =
      .next { s with i2c := { s.i2c with bitRate := Config.i2cBitRate cpuClockHz bitRate, enabled := true } }

/-- Where I2C_INIT does not complete: an operand of 0 is refused and changes nothing else; during a transaction, with a
command or an event pending or on a held bus it is misuse (R120, R92, R263). -/
def Obligations.I2cInitRefusedOrMisuse : Prop :=
  ∀ (s : State) (cpuClockHz bitRate : Word32), s.fault = none →
    (cpuClockHz = 0 ∨ bitRate = 0 → exec (.i2cInit cpuClockHz bitRate) s = .next { s with refused := true }) ∧
    (cpuClockHz ≠ 0 → bitRate ≠ 0 →
      s.i2c.state ≠ .idle ∨ s.i2c.cmd ≠ none ∨ s.i2c.event ≠ none ∨ s.i2c.busOwned = true →
      ∃ t, exec (.i2cInit cpuClockHz bitRate) s = .next t ∧ t.fault = some .initWhileBusy)

/-- I2C_START_WRITE completes: from `Idle` and enabled, with a 7-bit address, reserved flags 0 and a span that does not
wrap, the engine is `MasterWriting`, the address byte is the address shifted with direction 0, the span is bound with the
cursor at its start and its end at the exact sum, START is pending, and nothing else changes (R121, R94 to R97, R156). -/
def Obligations.I2cStartWriteCompletes : Prop :=
  ∀ (s : State) (address flags : Byte) (buffer length : Addr),
    s.fault = none → address.toNat < 128 → flags.toNat < 4 → buffer.toNat + length.toNat < 65536 →
    s.i2c.state = .idle → s.i2c.enabled = true →
    ∃ (sla : Byte) (limit : Addr),
      sla.toNat = 2 * address.toNat ∧ limit.toNat = buffer.toNat + length.toNat ∧
      exec (.i2cStartWrite address flags buffer length) s =
        .next { s with i2c := { s.i2c with
          state := .masterWriting, flags := flags, sla := sla, buf := ⟨buffer, buffer, limit⟩, cmd := some .start } }

/-- I2C_START_READ completes: as I2C_START_WRITE, with `MasterReading` and direction 1 (R122, R94 to R97, R156). -/
def Obligations.I2cStartReadCompletes : Prop :=
  ∀ (s : State) (address flags : Byte) (buffer length : Addr),
    s.fault = none → address.toNat < 128 → flags.toNat < 4 → buffer.toNat + length.toNat < 65536 →
    s.i2c.state = .idle → s.i2c.enabled = true →
    ∃ (sla : Byte) (limit : Addr),
      sla.toNat = 2 * address.toNat + 1 ∧ limit.toNat = buffer.toNat + length.toNat ∧
      exec (.i2cStartRead address flags buffer length) s =
        .next { s with i2c := { s.i2c with
          state := .masterReading, flags := flags, sla := sla, buf := ⟨buffer, buffer, limit⟩, cmd := some .start } }

/-- Where a start does not complete: illegal operands are refused and change nothing else; a start while a transaction is
outstanding, or before I2C_INIT, is misuse (R121, R122, R94, R95, R97, R263). -/
def Obligations.I2cStartRefusedOrMisuse : Prop :=
  ∀ (s : State) (address flags : Byte) (buffer length : Addr) (i : Instr), s.fault = none →
    i = .i2cStartWrite address flags buffer length ∨ i = .i2cStartRead address flags buffer length →
    (128 ≤ address.toNat ∨ 4 ≤ flags.toNat ∨ 65536 ≤ buffer.toNat + length.toNat →
      exec i s = .next { s with refused := true }) ∧
    (address.toNat < 128 → flags.toNat < 4 → buffer.toNat + length.toNat < 65536 →
      (s.i2c.state ≠ .idle → ∃ t, exec i s = .next t ∧ t.fault = some .startWhileBusy) ∧
      (s.i2c.state = .idle → s.i2c.enabled = false → ∃ t, exec i s = .next t ∧ t.fault = some .notInitialised))

/-- The one-step observers return what they read and change nothing else: I2C_GET_STATE the engine state in its encoding,
I2C_GET_STATUS all eight bits of `lastStatus`, UART_SEND_READY whether the data register is empty, UART_RECEIVE_READY
whether a byte waits and the receiver is not `Disabled` (R123, R103, R124, R192, R196, R30). That the receive mode counts
where a byte waits while the receiver is `Disabled`, is the model's choice between R196's pseudocode on one side and its
corner case and R30 on the other, log entry 23. -/
def Obligations.ObserversReturnAndChangeNothing : Prop :=
  ∀ (s : State), s.fault = none →
    exec .i2cGetState s = .next { s with response := some (.engineState
      (match s.i2c.state with
        | .idle => 0 | .masterWriting => 1 | .masterReading => 2 | .error => 3)) } ∧
    exec .i2cGetStatus s = .next { s with response := some (.status s.i2c.lastStatus) } ∧
    ∀ (u : Byte) (x : Uart), s.uart? u = some x →
      exec (.uartSendReady u) s = .next { s with response := some (.ready (decide (x.txData = none))) } ∧
      exec (.uartReceiveReady u) s = .next { s with response := some (.ready (decide (x.rxMode ≠ .disabled) && x.rxFull)) }

/-- Where progress reads are atomic, I2C_GET_PROGRESS and UART_SEND_AUTO_PROGRESS return `end - cursor` in one step and
change nothing else (R125, R195, R78). -/
def Obligations.AtomicProgressReadCompletes : Prop :=
  ∀ (s : State), s.fault = none → s.params.progressReadAtomic = true →
    exec .i2cGetProgress s = .next { s with response := some (.progress (s.i2c.buf.limit - s.i2c.buf.cursor)) } ∧
    ∀ (u : Byte) (x : Uart), s.uart? u = some x →
      exec (.uartSendAutoProgress u) s =
        .next { s with response := some (.progress (x.txBuf.limit - x.txBuf.cursor)) }

/-- Where progress reads are not atomic, the first step of a progress read takes the low byte of `end - cursor`
(`LowFirst`) or the high byte (`HighFirst`), and changes nothing but the read in progress (R125, R195, R78). -/
def Obligations.SplitProgressReadTakesItsFirstByte : Prop :=
  ∀ (s : State), s.fault = none → s.params.progressReadAtomic = false → s.split = none →
    (∃ b : Byte, exec .i2cGetProgress s = .next { s with split := some ⟨.i2c, b⟩ } ∧
      b.toNat = match s.params.progressReadOrder with
        | .lowFirst => (s.i2c.buf.limit - s.i2c.buf.cursor).toNat % 256
        | .highFirst => (s.i2c.buf.limit - s.i2c.buf.cursor).toNat / 256) ∧
    ∀ (u : Byte) (x : Uart), s.uart? u = some x →
      ∃ b : Byte, exec (.uartSendAutoProgress u) s = .next { s with split := some ⟨.uart u, b⟩ } ∧
        b.toNat = match s.params.progressReadOrder with
          | .lowFirst => (x.txBuf.limit - x.txBuf.cursor).toNat % 256
          | .highFirst => (x.txBuf.limit - x.txBuf.cursor).toNat / 256

/-- The second step takes the other byte of `end - cursor` as it stands then and returns the two bytes together, so the
value may be one no state had; nothing else changes (R125, R195, R78). -/
def Obligations.SplitProgressReadCompletes : Prop :=
  ∀ (s : State) (first : Byte), s.fault = none → s.params.progressReadAtomic = false →
    (s.split = some ⟨.i2c, first⟩ →
      ∃ v : Addr, exec .i2cGetProgress s = .next { s with split := none, response := some (.progress v) } ∧
        v.toNat = match s.params.progressReadOrder with
          | .lowFirst => 256 * ((s.i2c.buf.limit - s.i2c.buf.cursor).toNat / 256) + first.toNat
          | .highFirst => 256 * first.toNat + (s.i2c.buf.limit - s.i2c.buf.cursor).toNat % 256) ∧
    ∀ (u : Byte) (x : Uart), s.uart? u = some x → s.split = some ⟨.uart u, first⟩ →
      ∃ v : Addr, exec (.uartSendAutoProgress u) s = .next { s with split := none, response := some (.progress v) } ∧
        v.toNat = match s.params.progressReadOrder with
          | .lowFirst => 256 * ((x.txBuf.limit - x.txBuf.cursor).toNat / 256) + first.toNat
          | .highFirst => 256 * first.toNat + (x.txBuf.limit - x.txBuf.cursor).toNat % 256

/-! ### The I2C event and the status rows -/

/-- COMPLETE: `Idle`, and the bus is held when `HoldBus` is set and stopped when it is clear, with `P` in the trace if
it was owned. ABORT: `Idle` and the bus stopped, whatever `HoldBus` is (R142, R143). -/
def Obligations.CompleteHoldsOrStopsAndAbortStops : Prop :=
  ∀ c : I2c,
    let stopped := { c with
      state := .idle, cmd := none, busOwned := false,
      trace := if c.busOwned then c.trace ++ [.stop] else c.trace }
    (c.flags.getLsbD 0 = true → c.complete = { c with state := .idle, cmd := none }) ∧
    (c.flags.getLsbD 0 = false → c.complete = stopped) ∧
    c.abort = stopped

/-- I2C_EVENT, delivered, completes: the event is acknowledged, the whole status byte goes to `lastStatus` before any
action, and the one row the decoder selects is run; no later part of the handler writes `lastStatus` (R140, R141, R24). -/
def Obligations.I2cEventRunsTheSelectedRow : Prop :=
  ∀ (s : State) (status data : Byte),
    s.fault = none → s.gie = true → s.i2c.event = some ⟨status, data⟩ →
    ∃ t, exec (.i2cEvent status data) s = .next t ∧
      exec (decodeStatus s.params.statusTable status)
        { s with i2c := { s.i2c with event := none, lastStatus := status } } = .next t ∧
      t.i2c.lastStatus = status ∧ t.i2c.event = none

/-- Rows of A1: the address-plus-direction byte goes to the data register and SEND is pending; nothing else changes
(R144). -/
def Obligations.StartRowsSendTheAddress : Prop :=
  ∀ (s : State) (presc : BitVec 3), s.fault = none →
    exec (.statusStart presc) s = .next { s with i2c := { s.i2c with dr := s.i2c.sla, cmd := some .send } } ∧
    exec (.statusRepStart presc) s = .next { s with i2c := { s.i2c with dr := s.i2c.sla, cmd := some .send } }

/-- Rows of A2: with bytes left, the byte at the cursor goes to the data register, the cursor advances by one and SEND is
pending; with none left, COMPLETE and no memory access. Memory and everything else are unchanged (R145). -/
def Obligations.WriteAckRowsLoadTheNextByte : Prop :=
  ∀ (s : State) (presc : BitVec 3) (i : Instr), s.fault = none →
    i = .statusSlaWAck presc ∨ i = .statusDataWAck presc →
    (s.i2c.buf.cursor ≠ s.i2c.buf.limit →
      exec i s = .next { s with i2c := { s.i2c with
        dr := s.mem.read s.i2c.buf.cursor
        buf := { s.i2c.buf with cursor := s.i2c.buf.cursor + 1 }
        cmd := some .send } }) ∧
    (s.i2c.buf.cursor = s.i2c.buf.limit → exec i s = .next { s with i2c := s.i2c.complete })

/-- Rows of A3: COMPLETE; the cursor is not moved back and nothing else changes (R146). -/
def Obligations.WriteNackRowsComplete : Prop :=
  ∀ (s : State) (presc : BitVec 3), s.fault = none →
    exec (.statusSlaWNack presc) s = .next { s with i2c := s.i2c.complete } ∧
    exec (.statusDataWNack presc) s = .next { s with i2c := s.i2c.complete }

/-- Row of A4: with no byte to receive, COMPLETE; with one, RECV_NACK; with more, RECV_ACK; nothing else changes
(R147). -/
def Obligations.ReadAddressAckRowArmsReceive : Prop :=
  ∀ (s : State) (presc : BitVec 3), s.fault = none →
    (s.i2c.buf.limit - s.i2c.buf.cursor = 0 →
      exec (.statusSlaRAck presc) s = .next { s with i2c := s.i2c.complete }) ∧
    (s.i2c.buf.limit - s.i2c.buf.cursor = 1 →
      exec (.statusSlaRAck presc) s = .next { s with i2c := { s.i2c with cmd := some .recvNack } }) ∧
    (s.i2c.buf.limit - s.i2c.buf.cursor ≠ 0 → s.i2c.buf.limit - s.i2c.buf.cursor ≠ 1 →
      exec (.statusSlaRAck presc) s = .next { s with i2c := { s.i2c with cmd := some .recvAck } })

/-- Rows of A5 and A8: ABORT; the cursor, the memory and everything else are unchanged (R148, R151). -/
def Obligations.ErrorRowsAbort : Prop :=
  ∀ (s : State) (presc : BitVec 3) (status : Byte), s.fault = none →
    exec (.statusSlaRNack presc) s = .next { s with i2c := s.i2c.abort } ∧
    exec (.statusArbLost presc) s = .next { s with i2c := s.i2c.abort } ∧
    exec (.statusBusError presc) s = .next { s with i2c := s.i2c.abort } ∧
    exec (.statusNoInfo presc) s = .next { s with i2c := s.i2c.abort } ∧
    exec (.statusOther status) s = .next { s with i2c := s.i2c.abort }

/-- Row of A6: with room, the received byte is stored at the cursor and at no other address, the cursor advances by one,
and the bus is armed for the next byte against the new cursor: NACK when that is the last one, ACK when more follow;
with no room, ABORT and no byte of memory is written (R149, R152). -/
def Obligations.ReadDataAckRowStoresAndRearms : Prop :=
  ∀ (s : State) (presc : BitVec 3), s.fault = none → s.mem.wf = true →
    (s.i2c.buf.cursor ≠ s.i2c.buf.limit →
      ∃ (m : Memory) (c : I2c),
        exec (.statusDataRAck presc) s = .next { s with mem := m, i2c := c } ∧
        m.read s.i2c.buf.cursor = s.i2c.dr ∧
        (∀ a, a ≠ s.i2c.buf.cursor → m.read a = s.mem.read a) ∧
        let c' := { s.i2c with buf := { s.i2c.buf with cursor := s.i2c.buf.cursor + 1 } }
        (s.i2c.buf.limit = s.i2c.buf.cursor + 1 → c = c'.complete) ∧
        (s.i2c.buf.limit = s.i2c.buf.cursor + 2 → c = { c' with cmd := some .recvNack }) ∧
        (s.i2c.buf.limit ≠ s.i2c.buf.cursor + 1 → s.i2c.buf.limit ≠ s.i2c.buf.cursor + 2 →
          c = { c' with cmd := some .recvAck })) ∧
    (s.i2c.buf.cursor = s.i2c.buf.limit →
      exec (.statusDataRAck presc) s = .next { s with i2c := s.i2c.abort })

/-- Row of A7: with room, the received byte is stored at the cursor and at no other address, the cursor advances by one
and the transaction completes; with no room, ABORT and no byte of memory is written (R150). -/
def Obligations.ReadDataNackRowStoresAndCompletes : Prop :=
  ∀ (s : State) (presc : BitVec 3), s.fault = none → s.mem.wf = true →
    (s.i2c.buf.cursor ≠ s.i2c.buf.limit →
      ∃ m : Memory,
        exec (.statusDataRNack presc) s = .next { s with
          mem := m
          i2c := { s.i2c with buf := { s.i2c.buf with cursor := s.i2c.buf.cursor + 1 } }.complete } ∧
        m.read s.i2c.buf.cursor = s.i2c.dr ∧
        (∀ a, a ≠ s.i2c.buf.cursor → m.read a = s.mem.read a)) ∧
    (s.i2c.buf.cursor = s.i2c.buf.limit →
      exec (.statusDataRNack presc) s = .next { s with i2c := s.i2c.abort })

/-! ### UART foreground operations -/

/-- BAUD_DIVISOR is the floor of `cpuClockHz / (mult * baud)`, less one: the divisor is `d` exactly when
`mult * baud * (d + 1) ≤ cpuClockHz < mult * baud * (d + 2)`, and it is refused exactly when the quotient is 0 or the
divisor does not fit in twelve bits (R190). -/
def Obligations.BaudDivisorIsTheFloor : Prop :=
  ∀ (cpuClockHz baud : Word32) (doubleSpeed : Bool), baud ≠ 0 →
    let unit := (if doubleSpeed then 8 else 16) * baud.toNat
    (∀ d : BitVec 12, baudDivisor cpuClockHz baud doubleSpeed = some d ↔
      unit * (d.toNat + 1) ≤ cpuClockHz.toNat ∧ cpuClockHz.toNat < unit * (d.toNat + 2)) ∧
    (baudDivisor cpuClockHz baud doubleSpeed = none ↔
      cpuClockHz.toNat < unit ∨ unit * 4097 ≤ cpuClockHz.toNat)

/-- UART_INIT completes: with legal operands on an idle unit, the divisor, the speed, the stop bits, the modes and the
enables are as `config` says, the stream is empty, and nothing else changes, the data path and the other units among it
(R191). -/
def Obligations.UartInitCompletes : Prop :=
  ∀ (s : State) (u : Byte) (x : Uart) (cpuClockHz baud : Word32) (config : Byte) (txm rxm : UartMode) (d : BitVec 12),
    s.fault = none → s.uart? u = some x → cpuClockHz ≠ 0 → baud ≠ 0 → config.toNat < 64 →
    configTxMode config = some txm → configRxMode config = some rxm →
    x.txData = none → x.txShift = none → x.txEvt = false → x.rxEvt = false →
    (x.txMode = .auto → x.txBuf.cursor = x.txBuf.limit) →
    baudDivisor cpuClockHz baud (config.getLsbD 1) = some d →
    exec (.uartInit u cpuClockHz baud config) s = .next { s with uarts := s.uarts.set u.toNat { x with
      divisor := d
      doubleSpeed := config.getLsbD 1
      stopBits := if config.getLsbD 0 then .two else .one
      txMode := txm
      rxMode := rxm
      txEn := decide (txm ≠ .disabled)
      txIe := decide (txm = .auto)
      rxEn := decide (rxm ≠ .disabled)
      rxIe := false
      txBuf := ⟨0, 0, 0⟩ } }

/-- Where UART_INIT does not complete: an illegal operand, or a divisor out of range on an idle unit, is refused and
changes nothing else; with a byte or an event in flight or a stream outstanding it is misuse (R191, R98, R190, R263). -/
def Obligations.UartInitRefusedOrMisuse : Prop :=
  ∀ (s : State) (u : Byte) (x : Uart) (cpuClockHz baud : Word32) (config : Byte),
    s.fault = none → s.uart? u = some x →
    let busy := x.txData ≠ none ∨ x.txShift ≠ none ∨ x.txEvt = true ∨ x.rxEvt = true ∨
      (x.txMode = .auto ∧ x.txBuf.cursor ≠ x.txBuf.limit)
    (cpuClockHz = 0 ∨ baud = 0 ∨ configLegal config = false →
      exec (.uartInit u cpuClockHz baud config) s = .next { s with refused := true }) ∧
    (cpuClockHz ≠ 0 → baud ≠ 0 → configLegal config = true → busy →
      ∃ t, exec (.uartInit u cpuClockHz baud config) s = .next t ∧ t.fault = some .initWhileBusy) ∧
    (cpuClockHz ≠ 0 → baud ≠ 0 → configLegal config = true → ¬busy →
      baudDivisor cpuClockHz baud (config.getLsbD 1) = none →
      exec (.uartInit u cpuClockHz baud config) s = .next { s with refused := true })

/-- A UART operation on a unit that does not exist is refused and changes nothing else (R92). -/
def Obligations.MissingUnitIsRefused : Prop :=
  ∀ (s : State) (u byte config : Byte) (w1 w2 : Word32) (buffer length : Addr) (i : Instr),
    s.fault = none → s.uarts.length ≤ u.toNat →
    i ∈ [.uartInit u w1 w2 config, .uartSendReady u, .uartSendManual u byte, .uartSendAuto u buffer length,
      .uartSendAutoProgress u, .uartReceiveReady u, .uartReceiveFetch u, .uartTxEmptyEvent u, .uartRxDataEvent u] →
    exec i s = .next { s with refused := true }

/-- UART_SEND_MANUAL completes: with the transmitter on, the data register empty and no auto stream outstanding, the byte
goes to the data register and nothing else changes (R193). -/
def Obligations.UartSendManualCompletes : Prop :=
  ∀ (s : State) (u byte : Byte) (x : Uart),
    s.fault = none → s.uart? u = some x → x.txMode ≠ .disabled → x.txData = none →
    (x.txMode = .auto → x.txBuf.cursor = x.txBuf.limit) →
    exec (.uartSendManual u byte) s =
      .next { s with uarts := s.uarts.set u.toNat { x with txData := some byte } }

/-- Where UART_SEND_MANUAL is misuse, in the order of the rule (R193, R263). -/
def Obligations.UartSendManualMisuse : Prop :=
  ∀ (s : State) (u byte : Byte) (x : Uart), s.fault = none → s.uart? u = some x →
    (x.txMode = .disabled → ∃ t, exec (.uartSendManual u byte) s = .next t ∧ t.fault = some .txDisabled) ∧
    (x.txMode ≠ .disabled → x.txData ≠ none →
      ∃ t, exec (.uartSendManual u byte) s = .next t ∧ t.fault = some .overrun) ∧
    (x.txMode = .auto → x.txData = none → x.txBuf.cursor ≠ x.txBuf.limit →
      ∃ t, exec (.uartSendManual u byte) s = .next t ∧ t.fault = some .streamActive)

/-- UART_SEND_AUTO completes: in `Auto` mode with no stream outstanding, an empty data register and a span that does not
wrap, the stream is bound with the cursor at its start and its end at the exact sum, the first byte of a stream that is
not empty goes to the data register, and nothing else changes (R194, R97). -/
def Obligations.UartSendAutoCompletes : Prop :=
  ∀ (s : State) (u : Byte) (x : Uart) (buffer length : Addr),
    s.fault = none → s.uart? u = some x → x.txMode = .auto → x.txBuf.cursor = x.txBuf.limit → x.txData = none →
    buffer.toNat + length.toNat < 65536 →
    ∃ limit : Addr, limit.toNat = buffer.toNat + length.toNat ∧
      exec (.uartSendAuto u buffer length) s = .next { s with uarts := s.uarts.set u.toNat { x with
        txBuf := ⟨buffer, buffer, limit⟩
        txData := if 1 ≤ length.toNat then some (s.mem.read buffer) else none } }

/-- Where UART_SEND_AUTO does not complete: a span that wraps is refused and changes nothing else; outside `Auto` mode,
with a stream outstanding or with a byte in the data register it is misuse, in the order of the rule (R194, R97,
R263). -/
def Obligations.UartSendAutoRefusedOrMisuse : Prop :=
  ∀ (s : State) (u : Byte) (x : Uart) (buffer length : Addr), s.fault = none → s.uart? u = some x →
    (65536 ≤ buffer.toNat + length.toNat →
      exec (.uartSendAuto u buffer length) s = .next { s with refused := true }) ∧
    (buffer.toNat + length.toNat < 65536 →
      (x.txMode ≠ .auto → ∃ t, exec (.uartSendAuto u buffer length) s = .next t ∧ t.fault = some .notAutoMode) ∧
      (x.txMode = .auto → x.txBuf.cursor ≠ x.txBuf.limit →
        ∃ t, exec (.uartSendAuto u buffer length) s = .next t ∧ t.fault = some .streamActive) ∧
      (x.txMode = .auto → x.txBuf.cursor = x.txBuf.limit → x.txData ≠ none →
        ∃ t, exec (.uartSendAuto u buffer length) s = .next t ∧ t.fault = some .overrun))

/-- UART_RECEIVE_FETCH: a waiting byte is returned, `rxFull` is cleared and nothing else changes; with none waiting it is
misuse (R197, R263). That the receive mode, which R30 lists as read here, makes no difference, is the model's reading, log
entry 23. -/
def Obligations.UartReceiveFetchTakesTheByte : Prop :=
  ∀ (s : State) (u : Byte) (x : Uart), s.fault = none → s.uart? u = some x →
    (x.rxFull = true → exec (.uartReceiveFetch u) s = .next { s with
      uarts := s.uarts.set u.toNat { x with rxFull := false }
      response := some (.data x.rxData) }) ∧
    (x.rxFull = false → ∃ t, exec (.uartReceiveFetch u) s = .next t ∧ t.fault = some .noData)

/-! ### UART events, the line and the bus -/

/-- UART_TX_EMPTY_EVENT, delivered: the event is cleared; with no stream outstanding nothing else happens; else the
cursor advances by one and, with bytes left, the byte at the new cursor goes to the empty data register. Memory and
everything else are unchanged (R230, R231). That no stream is outstanding outside `Auto` mode, where no run has such an
event pending (`EveryStepKeepsConsistency`), is the model's reading of R30, log entry 23. -/
def Obligations.TxEmptyEventStreamsTheNextByte : Prop :=
  ∀ (s : State) (u : Byte) (x : Uart), s.fault = none → s.gie = true → s.uart? u = some x → x.txEvt = true →
    let next := x.txBuf.cursor + 1
    (x.txMode ≠ .auto ∨ x.txBuf.cursor = x.txBuf.limit →
      exec (.uartTxEmptyEvent u) s = .next { s with uarts := s.uarts.set u.toNat { x with txEvt := false } }) ∧
    (x.txMode = .auto → x.txBuf.cursor ≠ x.txBuf.limit → next = x.txBuf.limit →
      exec (.uartTxEmptyEvent u) s = .next { s with uarts := s.uarts.set u.toNat { x with
        txEvt := false, txBuf := { x.txBuf with cursor := next } } }) ∧
    (x.txMode = .auto → x.txBuf.cursor ≠ x.txBuf.limit → next ≠ x.txBuf.limit → x.txData = none →
      exec (.uartTxEmptyEvent u) s = .next { s with uarts := s.uarts.set u.toNat { x with
        txEvt := false, txBuf := { x.txBuf with cursor := next }, txData := some (s.mem.read next) } }) ∧
    (x.txMode = .auto → x.txBuf.cursor ≠ x.txBuf.limit → next ≠ x.txBuf.limit → x.txData ≠ none →
      ∃ t, exec (.uartTxEmptyEvent u) s = .next t ∧ t.fault = some .overrun)

/-- UART_RX_DATA_EVENT, delivered: the event is cleared and nothing else happens (R232). -/
def Obligations.RxDataEventOnlyClearsTheEvent : Prop :=
  ∀ (s : State) (u : Byte) (x : Uart), s.fault = none → s.gie = true → s.uart? u = some x → x.rxEvt = true →
    exec (.uartRxDataEvent u) s = .next { s with uarts := s.uarts.set u.toNat { x with rxEvt := false } }

/-- The line's steps: load moves the data register into the empty shift stage and raises the transmit-empty event when it
is enabled; shift-out appends the byte to what was sent; a step that is not enabled changes nothing but the turn (R233,
R234; the turn is log entry 9). -/
def Obligations.LineMovesBytesOut : Prop :=
  ∀ (s : State) (u : Byte) (x : Uart) (ts : List Turn), s.fault = none → s.uart? u = some x →
    (∀ b, s.turns = .lineLoad u :: ts → x.txEn = true → x.txData = some b → x.txShift = none →
      step s = .next { s with turns := ts, uarts := s.uarts.set u.toNat { x with
        txShift := some b, txData := none, txEvt := x.txEvt || x.txIe } }) ∧
    (s.turns = .lineLoad u :: ts → x.txEn = false ∨ x.txData = none ∨ x.txShift ≠ none →
      step s = .next { s with turns := ts, uarts := s.uarts.set u.toNat x }) ∧
    (∀ b, s.turns = .lineShift u :: ts → x.txShift = some b →
      step s = .next { s with turns := ts, uarts := s.uarts.set u.toNat { x with
        lineOut := x.lineOut ++ [b], txShift := none } }) ∧
    (s.turns = .lineShift u :: ts → x.txShift = none →
      step s = .next { s with turns := ts, uarts := s.uarts.set u.toNat x })

/-- A byte from the wire: with the receiver enabled it waits in `rxData`, except that on an overrun either byte may be
kept; the data-received event is raised when it is enabled; with the receiver off there is no such step (R235; the turn
is log entry 9). -/
def Obligations.LineReceivesAByte : Prop :=
  ∀ (s : State) (u b : Byte) (keepOld : Bool) (x : Uart) (ts : List Turn),
    s.fault = none → s.uart? u = some x → s.turns = .lineReceive u b keepOld :: ts →
    (x.rxEn = true → ∃ v : Byte,
      step s = .next { s with turns := ts, uarts := s.uarts.set u.toNat { x with
        rxData := v, rxFull := true, rxEvt := x.rxEvt || x.rxIe } } ∧
      (x.rxFull = false → v = b) ∧ (x.rxFull = true → keepOld = true → v = x.rxData) ∧
      (x.rxFull = true → keepOld = false → v = b)) ∧
    (x.rxEn = false → step s = .next { s with turns := ts, uarts := s.uarts.set u.toNat x })

/-- The bus answers START (rows START of R158): with the start code when the bus was free, the repeated-start code when
this master held it, so a start on a held bus puts `Sr` and no `P` in the trace; or with a bus error. A bus not held to the
table may answer any other code: the data register takes a drawn byte, the trace `X(k)`, and the arbitration-lost code
releases the bus. The event carries the code, `PRESC` and the data register (R157, R158, R126). That the table is
consulted with bits 2:0 of the chosen byte cleared, and that the codes of R157 and R158 are the status table's, is log
entries 16 and 22, that a code outside the table leaves `addrPhase` is log entry 24, the turn log entry 9. -/
def Obligations.BusAnswersStart : Prop :=
  ∀ (s : State) (code b : Byte) (ts : List Turn),
    s.fault = none → s.turns = .bus code b :: ts → s.i2c.enabled = true → s.i2c.cmd = some .start →
    statusTableWf s.params.statusTable = true →
    let tbl := s.params.statusTable
    let k := code &&& 0xF8
    (k = tbl.start → s.i2c.busOwned = false →
      step s = .next (s.busAnswered ts k { s.i2c with
        busOwned := true, addrPhase := true, trace := s.i2c.trace ++ [.start] })) ∧
    (k = tbl.repStart → s.i2c.busOwned = true →
      step s = .next (s.busAnswered ts k { s.i2c with addrPhase := true, trace := s.i2c.trace ++ [.repStart] })) ∧
    (k = tbl.busError →
      step s = .next (s.busAnswered ts k { s.i2c with busOwned := false, trace := s.i2c.trace ++ [.busError] })) ∧
    (k ∉ s.i2c.allowedCodes tbl .start → s.params.busStrict = false →
      step s = .next (s.busAnswered ts k { s.i2c with
        dr := b, trace := s.i2c.trace ++ [.other k]
        busOwned := if k = tbl.busError ∨ k = tbl.arbLost then false else s.i2c.busOwned }))

/-- The bus answers SEND (rows SEND of R158): in the address phase an address code of the direction bit's class, outside
it a data code; the byte and its acknowledge go into the trace and the address phase ends; with arbitration lost or a bus
error the bus is no longer owned, the address phase ends and the trace shows `AL` or `BE`. A bus not held to the table may
answer any other code: the data register takes a drawn byte and the trace `X(k)` (R157, R158). That the table is consulted
with bits 2:0 of the chosen byte cleared, and that the codes of R157 and R158 are the status table's, is log entries 16
and 22, that a code outside the table leaves `addrPhase` is log entry 24, the turn log entry 9. -/
def Obligations.BusAnswersSend : Prop :=
  ∀ (s : State) (code b : Byte) (ts : List Turn) (a : Ack),
    s.fault = none → s.turns = .bus code b :: ts → s.i2c.enabled = true → s.i2c.cmd = some .send →
    statusTableWf s.params.statusTable = true →
    let tbl := s.params.statusTable
    let k := code &&& 0xF8
    ((s.i2c.addrPhase = true ∧ s.i2c.dr.getLsbD 0 = false ∧ k = (if a = .ack then tbl.slaWAck else tbl.slaWNack)) ∨
      (s.i2c.addrPhase = true ∧ s.i2c.dr.getLsbD 0 = true ∧ k = (if a = .ack then tbl.slaRAck else tbl.slaRNack)) ∨
      (s.i2c.addrPhase = false ∧ k = (if a = .ack then tbl.dataWAck else tbl.dataWNack)) →
      step s = .next (s.busAnswered ts k { s.i2c with
        addrPhase := false, trace := s.i2c.trace ++ [.wrote s.i2c.dr a] })) ∧
    (k = tbl.arbLost →
      step s = .next (s.busAnswered ts k { s.i2c with
        busOwned := false, addrPhase := false, trace := s.i2c.trace ++ [.arbLost] })) ∧
    (k = tbl.busError →
      step s = .next (s.busAnswered ts k { s.i2c with
        busOwned := false, addrPhase := false, trace := s.i2c.trace ++ [.busError] })) ∧
    (k ∉ s.i2c.allowedCodes tbl .send → s.params.busStrict = false →
      step s = .next (s.busAnswered ts k { s.i2c with dr := b, trace := s.i2c.trace ++ [.other k] }))

/-- The bus answers a receive (rows RECV_ACK and RECV_NACK of R158): with any byte (R160), which is then in the data
register and in the event, the trace showing the acknowledge the engine asked for; with arbitration lost or a bus error,
which leave the data register, the bus no longer owned, the address phase over and `AL` or `BE` in the trace. A bus not
held to the table may answer any other code: the data register takes a drawn byte and the trace `X(k)` (R157, R158, R160).
That the table is consulted with bits 2:0 of the chosen byte cleared, and that the codes of R157 and R158 are the status
table's, is log entries 16 and 22, that a code outside the table leaves `addrPhase` is log entry 24, the turn log entry
9. -/
def Obligations.BusAnswersReceive : Prop :=
  ∀ (s : State) (code b : Byte) (ts : List Turn) (c : BusCommand),
    s.fault = none → s.turns = .bus code b :: ts → s.i2c.enabled = true → s.i2c.cmd = some c →
    c = .recvAck ∨ c = .recvNack → statusTableWf s.params.statusTable = true →
    let tbl := s.params.statusTable
    let k := code &&& 0xF8
    (c = .recvAck → k = tbl.dataRAck →
      step s = .next (s.busAnswered ts k { s.i2c with dr := b, trace := s.i2c.trace ++ [.received b .ack] })) ∧
    (c = .recvNack → k = tbl.dataRNack →
      step s = .next (s.busAnswered ts k { s.i2c with dr := b, trace := s.i2c.trace ++ [.received b .nack] })) ∧
    (k = tbl.arbLost →
      step s = .next (s.busAnswered ts k { s.i2c with
        busOwned := false, addrPhase := false, trace := s.i2c.trace ++ [.arbLost] })) ∧
    (k = tbl.busError →
      step s = .next (s.busAnswered ts k { s.i2c with
        busOwned := false, addrPhase := false, trace := s.i2c.trace ++ [.busError] })) ∧
    (k ∉ s.i2c.allowedCodes tbl c → s.params.busStrict = false →
      step s = .next (s.busAnswered ts k { s.i2c with dr := b, trace := s.i2c.trace ++ [.other k] }))

/-- Under `BUS_STRICT` every event the bus raises has a code of the conforming table for the command it answers (R158).
A bus turn with no step to take, no command being pending, the peripheral being disabled, or the chosen code being outside
the table under `BUS_STRICT`, passes and changes nothing else (R157, R159). That the codes of R158 are the status table's
is log entry 22, the masked code and the choice outside the table log entry 16, the turn log entry 9. -/
def Obligations.StrictBusRaisesOnlyConformingCodes : Prop :=
  ∀ (s : State) (code b : Byte) (ts : List Turn), s.fault = none → s.turns = .bus code b :: ts →
    (∀ (t : State) (c : BusCommand) (e : BusEvent),
      s.params.busStrict = true → s.i2c.cmd = some c → s.i2c.event = none → step s = .next t → t.i2c.event = some e →
      e.status &&& 0xF8 ∈ s.i2c.allowedCodes s.params.statusTable c) ∧
    (s.i2c.cmd = none ∨ s.i2c.enabled = false ∨
        (s.params.busStrict = true ∧
          ∃ c, s.i2c.cmd = some c ∧ code &&& 0xF8 ∉ s.i2c.allowedCodes s.params.statusTable c) →
      step s = .next { s with turns := ts })

/-! ### Misuse, sticky flags and the platform -/

/-- After misuse every operation leaves every field of the block unspecified: the I2C context, every unit's context, the
memory, `gie`, the returned value and, unless it was set, `refused` take the values of one more draw, whatever they were
(R262, R37). That the misuse recorded first stays recorded, that the values are constants of the model applied to the
number of the draw, and that the number of units, each `registerBase`, the parameters and the agents' remaining steps are
kept, is log entry 2. -/
def Obligations.AfterMisuseEveryFieldIsUnspecified : Prop :=
  ∀ (i : Instr) (s : State) (m : Misuse), s.fault = some m →
    exec i s = .next { s with
      i2c := Config.anyI2c s.draws
      uarts := s.uarts.map fun x => { Config.anyUart s.draws x.registerBase with registerBase := x.registerBase }
      mem := Memory.ofCells (Config.anyCells s.draws)
      gie := Config.anyGie s.draws
      fault := some m
      refused := s.refused || Config.anyRefused s.draws
      split := none
      response := Config.anyResponse s.draws
      draws := s.draws + 1 }

/-- `fault.misuse` and `refused` are never cleared by a step (R37); that the misuse recorded first stays the one recorded
is log entry 2. -/
def Obligations.MisuseAndRefusedAreSticky : Prop :=
  ∀ s t : State, step s = .next t →
    (∀ m, s.fault = some m → t.fault = some m) ∧ (s.refused = true → t.refused = true)

/-- A step of the foreground whose operation is an access to a byte of a span that an engine owns is misuse: the I2C span
while the engine is not idle, a UART unit's span while its stream is outstanding; any other byte is read, or written alone,
and the foreground moves on (R76). That a UART span is owned in `Auto` mode with `cursor ≠ end` is log entry 17; the turn,
the moving on and the foreground's list of operations are log entry 9, the value returned log entry 20. -/
def Obligations.ForegroundAccessToAnOwnedSpanIsMisuse : Prop :=
  ∀ (s : State) (a : Addr) (v : Byte) (rest : List ForegroundOp) (ts : List Turn),
    s.fault = none → s.mem.wf = true → s.turns = .foreground :: ts ∨ (s.turns = [] ∧ ts = []) →
    let inside := fun b : TransferBuffer => b.start.toNat ≤ a.toNat ∧ a.toNat < b.limit.toNat
    let owned := (s.i2c.state ≠ .idle ∧ inside s.i2c.buf) ∨
      ∃ x ∈ s.uarts, (x.txMode = .auto ∧ x.txBuf.cursor ≠ x.txBuf.limit) ∧ inside x.txBuf
    (s.program = .memRead a :: rest ∨ s.program = .memWrite a v :: rest → owned →
      ∃ t, step s = .next t ∧ t.fault = some .bufferInUse) ∧
    (s.program = .memRead a :: rest → ¬owned →
      step s = .next { s with response := some (.memory (s.mem.read a)), program := rest, turns := ts }) ∧
    (s.program = .memWrite a v :: rest → ¬owned →
      ∃ m : Memory, step s = .next { s with mem := m, program := rest, turns := ts } ∧ m.read a = v ∧
        ∀ b, b ≠ a → m.read b = s.mem.read b)

/-- No step of the block writes `gie`; the platform does, giving it any value and changing nothing else (R36, R268; that
the platform steps at its own turn, and with what value, is log entries 9 and 21). -/
def Obligations.OnlyThePlatformWritesGie : Prop :=
  (∀ s t : State, step s = .next t → t.fault = none → (∀ g ts, s.turns ≠ .platform g :: ts) → t.gie = s.gie) ∧
  ∀ (s : State) (g : Bool) (ts : List Turn), s.fault = none → s.turns = .platform g :: ts →
    step s = .next { s with gie := g, turns := ts }

/-- Only the I2C handler writes `lastStatus`, and it writes the status of the event it handles (R24; the turn is log entry
9). -/
def Obligations.OnlyTheI2cHandlerWritesLastStatus : Prop :=
  ∀ s t : State, step s = .next t → t.fault = none →
    t.i2c.lastStatus = s.i2c.lastStatus ∨
    ∃ e ts, s.turns = .i2cHandler :: ts ∧ s.gie = true ∧ s.i2c.event = some e ∧ t.i2c.lastStatus = e.status

/-- The only bytes of memory a step changes are the one at the I2C cursor, when the handler takes a received byte with
room for it, which then holds the data register's byte, and the one that the operation of the foreground whose turn it is
writes, which no engine owns and which then holds the value written (R72, R76, R86; the memory being canonical). What an engine owns is the reading of
log entry 17, the turns and the foreground's operations are log entry 9. -/
def Obligations.MemoryChangesOnlyWhereStored : Prop :=
  ∀ (s t : State) (a : Addr), step s = .next t → t.fault = none → t.mem.read a ≠ s.mem.read a →
    (∃ e ts, s.turns = .i2cHandler :: ts ∧ s.gie = true ∧ s.i2c.event = some e ∧
      (e.status &&& 0xF8 = s.params.statusTable.dataRAck ∨ e.status &&& 0xF8 = s.params.statusTable.dataRNack) ∧
      s.i2c.buf.cursor ≠ s.i2c.buf.limit ∧ a = s.i2c.buf.cursor ∧
      (s.mem.wf = true → t.mem.read a = s.i2c.dr)) ∨
    (∃ v rest, (s.turns = [] ∨ ∃ ts, s.turns = .foreground :: ts) ∧ s.program = .memWrite a v :: rest ∧
      s.spanOwned a = false ∧ (s.mem.wf = true → t.mem.read a = v))

/-- Memories in canonical form that read alike at every address are the same data. -/
def Obligations.CanonicalMemoriesReadingAlikeAreEqual : Prop :=
  ∀ m m' : Memory, m.wf = true → m'.wf = true → (∀ a, m.read a = m'.read a) → m = m'

/-! ### Reset and the invariants -/

/-- After reset, with any parameters and any number of units: `Idle`, both engines disabled, no command, event or byte
pending, the bus not owned, the flags, trace and line empty, `gie = 0`, no fault and no refusal (R40, R300). Fields that
R40 leaves UNSPECIFIED are not mentioned. -/
def Obligations.ResetLeavesTheBlockIdleAndDisabled : Prop :=
  ∀ (p : Config.Params) (n : Nat),
    let s := State.resetWith p n
    s.i2c.state = .idle ∧ s.i2c.flags = 0x00 ∧ s.i2c.enabled = false ∧ s.i2c.cmd = none ∧ s.i2c.event = none ∧
    s.i2c.busOwned = false ∧ s.i2c.addrPhase = false ∧ s.i2c.trace = [] ∧
    s.gie = false ∧ s.fault = none ∧ s.refused = false ∧ s.uarts.length = n ∧
    ∀ x ∈ s.uarts,
      x.txMode = .disabled ∧ x.rxMode = .disabled ∧ x.doubleSpeed = false ∧
      x.txEn = false ∧ x.rxEn = false ∧ x.txIe = false ∧ x.rxIe = false ∧
      x.txData = none ∧ x.txShift = none ∧ x.rxFull = false ∧ x.txEvt = false ∧ x.rxEvt = false ∧ x.lineOut = []

/-- The invariant holds after reset. That the spans are ordered there rests on the model's choice of zero for fields the
spec leaves UNSPECIFIED (log entry 1), the number of units on log entry 4, and the status table is the default (log entry
5). -/
def Obligations.ResetIsConsistent : Prop :=
  State.reset.Consistent ∧ State.reset.i2c.Conforming State.reset.params.statusTable

/-- Every step of every agent keeps the invariant: the memory's canonical form, a status table that tells the phases
apart (an argument of the model, log entry 22), and, while no misuse has occurred, `start ≤ cursor ≤ end` of every span,
an engine that is never in `Error`, quiet while idle and armed by exactly one of command and event while busy, events
that carry `PRESC` and the data register, enables that follow the modes, and a transmit-empty event pending in `Auto`
mode only (R23, R27, R30, R94, R159, R191, R232, R233). -/
def Obligations.EveryStepKeepsConsistency : Prop :=
  ∀ s t : State, s.Consistent → step s = .next t → t.Consistent

/-- On a bus held to the conforming table every step keeps the relation between the pending command or event and the
transaction: the code's class follows the engine state, and a byte is received only where there is room for it, the last
one with NACK (R149, R150, R152, R158, R163). That the codes of R158 are the status table's is log entry 22. -/
def Obligations.EveryStepKeepsConformance : Prop :=
  ∀ s t : State, s.Consistent → s.params.busStrict = true → s.i2c.Conforming s.params.statusTable →
    step s = .next t → t.fault = none → t.i2c.Conforming t.params.statusTable

/-- On a bus held to the conforming table, from the start operation that leaves START pending and whatever the other
agents do in between, a transaction of `length` bytes is still outstanding only if at most `length + 1` handler
invocations have happened, and it has ended by the time `length + 2` have (R154). That the codes of the conforming table, R158,
are the status table's is log entry 22. -/
def Obligations.TransactionEndsWithinLengthPlusTwoEvents : Prop :=
  ∀ (s t : State) (n k : Nat),
    s.Consistent → s.params.busStrict = true → s.i2c.Conforming s.params.statusTable → s.i2c.cmd = some .start →
    transactionRun n s = some (t, k) → t.fault = none →
    k ≤ s.i2c.buf.progress.toNat + 2 ∧
    (t.i2c.state ≠ .idle → k ≤ s.i2c.buf.progress.toNat + 1)

/-- While unit `u` has a stream outstanding and no misuse occurs, whatever the other agents do, its progress has fallen by
exactly one for each invocation of its TX-empty handler: a stream of L bytes has progress 0 after exactly L of them
(R237). -/
def Obligations.StreamProgressCountsTxEvents : Prop :=
  ∀ (s t : State) (u : Byte) (x : Uart) (n k : Nat),
    s.uart? u = some x → streamRun u n s = some (t, k) → t.fault = none →
    ∃ y, t.uart? u = some y ∧ y.txBuf.limit = x.txBuf.limit ∧ y.txBuf.start = x.txBuf.start ∧
      x.txBuf.progress.toNat = y.txBuf.progress.toNat + k

/-- Two states that differ only in fields no rule reads, `RetryOnArbitrationLoss`, the bit rate, the divisors, speeds and
stop bits, the trace, the line's output and the receive buffers, step to states that differ only in those: none of them
has an effect on any step (R25, R161, R314). After misuse the two states agree because both take the values of the same
draw, which is the model's choice, log entry 2. -/
def Obligations.UnreadFieldsHaveNoEffect : Prop :=
  ∀ s s' t t' : State, s.eraseUnread = s'.eraseUnread → step s = .next t → step s' = .next t' →
    t.eraseUnread = t'.eraseUnread

/-- Every step answers a next state, with the parameters and the number of units it had: no step of the machine stops with
a fault or a refusal of the host's kind. The block raises no trap of its own (R260); an operation without a meaning is a
next state with `refused` set (R92), and caller misuse a next state with `fault` set (R262). The rest is the model's
choice: a turn whose agent has no enabled step, which the spec calls stuck (93_implementation_defined.md, section 2),
answers a next state too (log entry 9); misuse keeps the parameters and the units (log entry 2); the parameters and the
number of units are arguments of R8 that the state carries and no step changes (log entries 4 and 5). -/
def Obligations.EveryStepAnswersANextState : Prop :=
  ∀ s : State, ∃ t, step s = .next t ∧ t.params = s.params ∧ t.uarts.length = s.uarts.length
end

