-- ==== Sys2Proof/Laws/Decode.lean ====
section
/-!
SUPPORT. What the byte splits and joins of the operand records do (20_memory.md R74), and what decoding a record says
about its command word: the lemmas an encoding proof cites.
-/

namespace Sys2Proof

open Sys2Proof.Machine

theorem toNat_join {n m : Nat} (x : BitVec n) (y : BitVec m) : (x ++ y).toNat = x.toNat * 2 ^ m + y.toNat := by
  rw [BitVec.toNat_append, ← Nat.shiftLeft_add_eq_or_of_lt y.isLt, Nat.shiftLeft_eq]

/-- Byte `k` of a value is its digit `k` to the base 256. -/
theorem byteOf_toNat {w : Nat} (v : BitVec w) (k : Nat) : (byteOf v k).toNat = v.toNat / 2 ^ (8 * k) % 256 := by
  rw [byteOf, BitVec.extractLsb'_toNat, Nat.shiftRight_eq_div_pow]

theorem addrOfBytes_toNat (b0 b1 : Byte) : (addrOfBytes b0 b1).toNat = b0.toNat + 256 * b1.toNat := by
  have := toNat_join b1 b0
  rw [addrOfBytes]
  omega

theorem wordOfBytes_toNat (b0 b1 b2 b3 : Byte) :
    (wordOfBytes b0 b1 b2 b3).toNat =
      b0.toNat + 256 * b1.toNat + 65536 * b2.toNat + 16777216 * b3.toNat := by
  simp only [wordOfBytes, toNat_join]
  omega

/-- Joining the bytes of a 16-bit operand gives it back. -/
theorem addrOfBytes_byteOf (v : Addr) : addrOfBytes (byteOf v 0) (byteOf v 1) = v := by
  apply BitVec.eq_of_toNat_eq
  have := v.isLt
  simp only [addrOfBytes_toNat, byteOf_toNat]
  omega

/-- Joining the bytes of a 32-bit operand gives it back. -/
theorem wordOfBytes_byteOf (v : Word32) :
    wordOfBytes (byteOf v 0) (byteOf v 1) (byteOf v 2) (byteOf v 3) = v := by
  apply BitVec.eq_of_toNat_eq
  have := v.isLt
  simp only [wordOfBytes_toNat, byteOf_toNat]
  omega

/-- Splitting a join of two bytes gives them back. -/
theorem addrBytes_addrOfBytes (b0 b1 : Byte) : addrBytes (addrOfBytes b0 b1) = [b0, b1] := by
  have h0 := b0.isLt
  have h1 := b1.isLt
  have key : ∀ k (x : Byte), (addrOfBytes b0 b1).toNat / 2 ^ (8 * k) % 256 = x.toNat →
      byteOf (addrOfBytes b0 b1) k = x := by
    intro k x h
    apply BitVec.eq_of_toNat_eq
    rw [byteOf_toNat]
    exact h
  rw [addrBytes, key 0 b0, key 1 b1] <;> rw [addrOfBytes_toNat] <;> omega

/-- Splitting a join of four bytes gives them back. -/
theorem wordBytes_wordOfBytes (b0 b1 b2 b3 : Byte) :
    wordBytes (wordOfBytes b0 b1 b2 b3) = [b0, b1, b2, b3] := by
  have h0 := b0.isLt
  have h1 := b1.isLt
  have h2 := b2.isLt
  have h3 := b3.isLt
  have key : ∀ k (x : Byte), (wordOfBytes b0 b1 b2 b3).toNat / 2 ^ (8 * k) % 256 = x.toNat →
      byteOf (wordOfBytes b0 b1 b2 b3) k = x := by
    intro k x h
    apply BitVec.eq_of_toNat_eq
    rw [byteOf_toNat]
    exact h
  rw [wordBytes, key 0 b0, key 1 b1, key 2 b2, key 3 b3] <;> rw [wordOfBytes_toNat] <;> omega

/-- The row of a command word is in the table and has that word. -/
theorem commandRow?_mem {op : Byte} {row : CommandRow} (h : commandRow? op = some row) :
    row ∈ commandRows ∧ row.op = op := by
  unfold commandRow? at h
  exact ⟨List.mem_of_find?_eq_some h, by simpa using List.find?_some h⟩

/-- No two rows of the command table have the same word (30_encoding.md R90). -/
theorem commandRows_distinct : commandRows.Pairwise fun r q => r.op ≠ q.op := by
  decide

/-! ### The status table (30_encoding.md R101, R102) -/

/-- The default table tells the phases apart. -/
theorem defaultStatusTable_wf : statusTableWf Config.defaultStatusTable = true := by
  decide

theorem mem_statusPhases (p : Config.StatusPhase) : p ∈ statusPhases := by
  cases p <;> decide

/-- The phase the lookup finds has the code of the masked status. -/
theorem statusPhase?_code {t : Config.StatusTable} {status : Byte} {p : Config.StatusPhase}
    (h : statusPhase? t status = some p) : t.code p = statusCode status := by
  simpa using List.find?_some h

/-- The lookup finds nothing where no phase has the code. -/
theorem statusPhase?_none {t : Config.StatusTable} {status : Byte} :
    statusPhase? t status = none ↔ ∀ p, t.code p ≠ statusCode status := by
  simp [statusPhase?, List.find?_eq_none, mem_statusPhases]

/-- A phase that alone has the code of the masked status is the one the lookup finds. -/
theorem statusPhase?_of_unique {t : Config.StatusTable} {status : Byte} {p : Config.StatusPhase}
    (h : ∀ q, t.code q = statusCode status ↔ q = p) : statusPhase? t status = some p := by
  cases hp : statusPhase? t status with
  | none => exact absurd ((h p).2 rfl) (statusPhase?_none.1 hp p)
  | some q => rw [(h q).1 (statusPhase?_code hp)]

/-- The codes of a table that tells the phases apart lie in the bits the decoder looks at. -/
theorem statusTableWf_masked {t : Config.StatusTable} (h : statusTableWf t = true) (p : Config.StatusPhase) :
    statusCode (t.code p) = t.code p := by
  simp only [statusTableWf, Bool.and_eq_true, List.all_eq_true, beq_iff_eq] at h
  exact h.1 p (mem_statusPhases p)

/-- A table that tells the phases apart gives no code twice. -/
theorem statusTableWf_injective {t : Config.StatusTable} (h : statusTableWf t = true) {p q : Config.StatusPhase}
    (e : t.code p = t.code q) : p = q := by
  simp only [statusTableWf, Bool.and_eq_true, decide_eq_true_eq] at h
  exact List.inj_on_of_nodup_map h.2 (mem_statusPhases p) (mem_statusPhases q) e

/-- With a table that tells the phases apart, the lookup is the table read backwards. -/
theorem statusPhase?_iff {t : Config.StatusTable} (h : statusTableWf t = true) (status : Byte)
    (p : Config.StatusPhase) : statusPhase? t status = some p ↔ t.code p = statusCode status :=
  ⟨statusPhase?_code, fun e => statusPhase?_of_unique fun _ =>
    ⟨fun hq => statusTableWf_injective h (hq.trans e.symm), fun hq => hq ▸ e⟩⟩

/-- Only the masked bits of a status value select its phase (R102). -/
theorem statusPhase?_masked (t : Config.StatusTable) {a b : Byte} (h : statusCode a = statusCode b) :
    statusPhase? t a = statusPhase? t b := by
  simp only [statusPhase?, h]

/-- The status value the bus raises shows the code's bits 7:3 (41_i2c_event_engine.md R157). -/
theorem statusCode_statusOf (code : Byte) (presc : BitVec 3) : statusCode (statusOf code presc) = statusCode code := by
  revert presc code
  decide +kernel

end Sys2Proof
end

