-- ==== Sys2Proof/Laws/Memory.lean ====
section
/-!
SUPPORT. The laws of the caller's memory (20_memory.md R70): a read after a write, and the canonical form every memory
operation keeps.
-/

namespace Sys2Proof.Machine

open Sys2Proof

theorem Memory.readAt_consCell_self (a : Nat) (v : Byte) (m : Memory)
    (h : Memory.readAt m a = Config.unlistedByte) : Memory.readAt (Memory.consCell a v m) a = v := by
  unfold Memory.consCell
  split
  · rename_i hv; rw [h, hv]
  · simp [Memory.readAt]

theorem Memory.readAt_consCell_other {a b : Nat} (v : Byte) (m : Memory) (h : a ≠ b) :
    Memory.readAt (Memory.consCell a v m) b = Memory.readAt m b := by
  unfold Memory.consCell
  split
  · rfl
  · simp [Memory.readAt, h]

/-- A cell below the first listed address is unlisted. -/
theorem Memory.readAt_of_wfFrom {lo a : Nat} {m : Memory} (hm : Memory.wfFrom lo m = true) (h : a < lo) :
    Memory.readAt m a = Config.unlistedByte := by
  induction m generalizing lo with
  | nil => rfl
  | cons c rest ih =>
    simp only [Memory.wfFrom, Bool.and_eq_true, decide_eq_true_eq] at hm
    have hne : c.1 ≠ a := by omega
    simp only [Memory.readAt, hne, if_false]
    exact ih hm.2 (by omega)

theorem Memory.wfFrom_mono {lo hi : Nat} {m : Memory} (hm : Memory.wfFrom hi m = true) (h : lo ≤ hi) :
    Memory.wfFrom lo m = true := by
  cases m with
  | nil => rfl
  | cons c rest =>
    simp only [Memory.wfFrom, Bool.and_eq_true, decide_eq_true_eq] at hm ⊢
    exact ⟨⟨⟨by omega, hm.1.1.2⟩, hm.1.2⟩, hm.2⟩

theorem Memory.wfFrom_consCell {lo a : Nat} {v : Byte} {m : Memory} (ha : lo ≤ a) (hb : a < 2 ^ 16)
    (hm : Memory.wfFrom (a + 1) m = true) : Memory.wfFrom lo (Memory.consCell a v m) = true := by
  unfold Memory.consCell
  split
  · exact Memory.wfFrom_mono hm (by omega)
  · rename_i hv
    simp only [Memory.wfFrom, Bool.and_eq_true, decide_eq_true_eq]
    exact ⟨⟨⟨ha, hb⟩, by simpa using hv⟩, hm⟩

theorem Memory.wfFrom_writeAt {lo a : Nat} (v : Byte) {m : Memory} (ha : lo ≤ a) (hb : a < 2 ^ 16)
    (hm : Memory.wfFrom lo m = true) : Memory.wfFrom lo (Memory.writeAt m a v) = true := by
  induction m generalizing lo with
  | nil => exact Memory.wfFrom_consCell ha hb rfl
  | cons c rest ih =>
    have hc := hm
    simp only [Memory.wfFrom, Bool.and_eq_true, decide_eq_true_eq] at hc
    simp only [Memory.writeAt]
    split
    · refine Memory.wfFrom_consCell ha hb ?_
      simp only [Memory.wfFrom, Bool.and_eq_true, decide_eq_true_eq]
      exact ⟨⟨⟨by omega, hc.1.1.2⟩, hc.1.2⟩, hc.2⟩
    · split
      · rename_i h; exact Memory.wfFrom_consCell ha hb (h ▸ hc.2)
      · simp only [Memory.wfFrom, Bool.and_eq_true, decide_eq_true_eq]
        exact ⟨⟨⟨hc.1.1.1, hc.1.1.2⟩, hc.1.2⟩, ih (by omega) hc.2⟩

theorem Memory.readAt_writeAt_self {lo a : Nat} (v : Byte) {m : Memory} (hm : Memory.wfFrom lo m = true) :
    Memory.readAt (Memory.writeAt m a v) a = v := by
  induction m generalizing lo with
  | nil => exact Memory.readAt_consCell_self a v [] rfl
  | cons c rest ih =>
    simp only [Memory.wfFrom, Bool.and_eq_true, decide_eq_true_eq] at hm
    simp only [Memory.writeAt]
    split
    · rename_i h
      refine Memory.readAt_consCell_self a v _ ?_
      have hne : c.1 ≠ a := by omega
      simp only [Memory.readAt, hne, if_false]
      exact Memory.readAt_of_wfFrom hm.2 (by omega)
    · split
      · rename_i h
        exact Memory.readAt_consCell_self a v _ (Memory.readAt_of_wfFrom hm.2 (by omega))
      · rename_i h1 h2
        have hne : c.1 ≠ a := fun e => h2 e.symm
        simp only [Memory.readAt, hne, if_false]
        exact ih hm.2

theorem Memory.readAt_writeAt_other {a b : Nat} (v : Byte) (m : Memory) (h : a ≠ b) :
    Memory.readAt (Memory.writeAt m a v) b = Memory.readAt m b := by
  induction m with
  | nil => exact Memory.readAt_consCell_other v [] h
  | cons c rest ih =>
    simp only [Memory.writeAt]
    split
    · exact Memory.readAt_consCell_other v _ h
    · split
      · rename_i h2
        have hne : c.1 ≠ b := fun e => h (h2.trans e)
        rw [Memory.readAt_consCell_other v _ h]
        simp [Memory.readAt, hne]
      · simp only [Memory.readAt, ih]

/-- A write to another address leaves a byte alone. -/
theorem Memory.read_write_other (m : Memory) {a b : Addr} (v : Byte) (h : a ≠ b) :
    (m.write a v).read b = m.read b :=
  Memory.readAt_writeAt_other v m fun e => h (BitVec.eq_of_toNat_eq e)

theorem Memory.wf_write {m : Memory} (a : Addr) (v : Byte) (hm : m.wf = true) : (m.write a v).wf = true :=
  Memory.wfFrom_writeAt v (Nat.zero_le _) a.isLt hm

theorem Memory.wf_ofCells (l : List (Addr × Byte)) : (Memory.ofCells l).wf = true := by
  induction l with
  | nil => rfl
  | cons c rest ih => exact Memory.wf_write c.1 c.2 ih

end Sys2Proof.Machine
end

