-- ==== Sys2Proof/Laws/State.lean ====
section
/-!
SUPPORT. The fields of the state after each named update: one lemma per field per update, so that no later proof unfolds
an update.
-/

namespace Sys2Proof.Machine

open Sys2Proof


/-! ### State.withI2c -/

@[simp] theorem State.withI2c_params (s : State) (c : I2c) : (s.withI2c c).params = s.params := rfl
@[simp] theorem State.withI2c_i2c (s : State) (c : I2c) : (s.withI2c c).i2c = c := rfl
@[simp] theorem State.withI2c_uarts (s : State) (c : I2c) : (s.withI2c c).uarts = s.uarts := rfl
@[simp] theorem State.withI2c_mem (s : State) (c : I2c) : (s.withI2c c).mem = s.mem := rfl
@[simp] theorem State.withI2c_gie (s : State) (c : I2c) : (s.withI2c c).gie = s.gie := rfl
@[simp] theorem State.withI2c_fault (s : State) (c : I2c) : (s.withI2c c).fault = s.fault := rfl
@[simp] theorem State.withI2c_refused (s : State) (c : I2c) : (s.withI2c c).refused = s.refused := rfl
@[simp] theorem State.withI2c_program (s : State) (c : I2c) : (s.withI2c c).program = s.program := rfl
@[simp] theorem State.withI2c_turns (s : State) (c : I2c) : (s.withI2c c).turns = s.turns := rfl
@[simp] theorem State.withI2c_split (s : State) (c : I2c) : (s.withI2c c).split = s.split := rfl
@[simp] theorem State.withI2c_response (s : State) (c : I2c) : (s.withI2c c).response = s.response := rfl
@[simp] theorem State.withI2c_draws (s : State) (c : I2c) : (s.withI2c c).draws = s.draws := rfl

/-! ### State.withUart -/

@[simp] theorem State.withUart_params (s : State) (u : Byte) (x : Uart) : (s.withUart u x).params = s.params := rfl
@[simp] theorem State.withUart_i2c (s : State) (u : Byte) (x : Uart) : (s.withUart u x).i2c = s.i2c := rfl
@[simp] theorem State.withUart_uarts (s : State) (u : Byte) (x : Uart) :
    (s.withUart u x).uarts = s.uarts.set u.toNat x := rfl
@[simp] theorem State.withUart_mem (s : State) (u : Byte) (x : Uart) : (s.withUart u x).mem = s.mem := rfl
@[simp] theorem State.withUart_gie (s : State) (u : Byte) (x : Uart) : (s.withUart u x).gie = s.gie := rfl
@[simp] theorem State.withUart_fault (s : State) (u : Byte) (x : Uart) : (s.withUart u x).fault = s.fault := rfl
@[simp] theorem State.withUart_refused (s : State) (u : Byte) (x : Uart) : (s.withUart u x).refused = s.refused := rfl
@[simp] theorem State.withUart_program (s : State) (u : Byte) (x : Uart) : (s.withUart u x).program = s.program := rfl
@[simp] theorem State.withUart_turns (s : State) (u : Byte) (x : Uart) : (s.withUart u x).turns = s.turns := rfl
@[simp] theorem State.withUart_split (s : State) (u : Byte) (x : Uart) : (s.withUart u x).split = s.split := rfl
@[simp] theorem State.withUart_response (s : State) (u : Byte) (x : Uart) : (s.withUart u x).response = s.response :=
  rfl
@[simp] theorem State.withUart_draws (s : State) (u : Byte) (x : Uart) : (s.withUart u x).draws = s.draws := rfl

/-! ### State.respond -/

@[simp] theorem State.respond_params (s : State) (v : Response) : (s.respond v).params = s.params := rfl
@[simp] theorem State.respond_i2c (s : State) (v : Response) : (s.respond v).i2c = s.i2c := rfl
@[simp] theorem State.respond_uarts (s : State) (v : Response) : (s.respond v).uarts = s.uarts := rfl
@[simp] theorem State.respond_mem (s : State) (v : Response) : (s.respond v).mem = s.mem := rfl
@[simp] theorem State.respond_gie (s : State) (v : Response) : (s.respond v).gie = s.gie := rfl
@[simp] theorem State.respond_fault (s : State) (v : Response) : (s.respond v).fault = s.fault := rfl
@[simp] theorem State.respond_refused (s : State) (v : Response) : (s.respond v).refused = s.refused := rfl
@[simp] theorem State.respond_program (s : State) (v : Response) : (s.respond v).program = s.program := rfl
@[simp] theorem State.respond_turns (s : State) (v : Response) : (s.respond v).turns = s.turns := rfl
@[simp] theorem State.respond_split (s : State) (v : Response) : (s.respond v).split = s.split := rfl
@[simp] theorem State.respond_response (s : State) (v : Response) : (s.respond v).response = some v := rfl
@[simp] theorem State.respond_draws (s : State) (v : Response) : (s.respond v).draws = s.draws := rfl

/-! ### State.refuse -/

@[simp] theorem State.refuse_params (s : State) : s.refuse.params = s.params := rfl
@[simp] theorem State.refuse_i2c (s : State) : s.refuse.i2c = s.i2c := rfl
@[simp] theorem State.refuse_uarts (s : State) : s.refuse.uarts = s.uarts := rfl
@[simp] theorem State.refuse_mem (s : State) : s.refuse.mem = s.mem := rfl
@[simp] theorem State.refuse_gie (s : State) : s.refuse.gie = s.gie := rfl
@[simp] theorem State.refuse_fault (s : State) : s.refuse.fault = s.fault := rfl
@[simp] theorem State.refuse_refused (s : State) : s.refuse.refused = true := rfl
@[simp] theorem State.refuse_program (s : State) : s.refuse.program = s.program := rfl
@[simp] theorem State.refuse_turns (s : State) : s.refuse.turns = s.turns := rfl
@[simp] theorem State.refuse_split (s : State) : s.refuse.split = s.split := rfl
@[simp] theorem State.refuse_response (s : State) : s.refuse.response = s.response := rfl
@[simp] theorem State.refuse_draws (s : State) : s.refuse.draws = s.draws := rfl

/-! ### State.storeReceived -/

@[simp] theorem State.storeReceived_params (s : State) : s.storeReceived.params = s.params := rfl
@[simp] theorem State.storeReceived_i2c (s : State) : s.storeReceived.i2c = s.i2c.advance := rfl
@[simp] theorem State.storeReceived_uarts (s : State) : s.storeReceived.uarts = s.uarts := rfl
@[simp] theorem State.storeReceived_mem (s : State) : s.storeReceived.mem = s.mem.write s.i2c.buf.cursor s.i2c.dr :=
  rfl
@[simp] theorem State.storeReceived_gie (s : State) : s.storeReceived.gie = s.gie := rfl
@[simp] theorem State.storeReceived_fault (s : State) : s.storeReceived.fault = s.fault := rfl
@[simp] theorem State.storeReceived_refused (s : State) : s.storeReceived.refused = s.refused := rfl
@[simp] theorem State.storeReceived_program (s : State) : s.storeReceived.program = s.program := rfl
@[simp] theorem State.storeReceived_turns (s : State) : s.storeReceived.turns = s.turns := rfl
@[simp] theorem State.storeReceived_split (s : State) : s.storeReceived.split = s.split := rfl
@[simp] theorem State.storeReceived_response (s : State) : s.storeReceived.response = s.response := rfl
@[simp] theorem State.storeReceived_draws (s : State) : s.storeReceived.draws = s.draws := rfl

/-! ### State.unspecify and State.raiseMisuse -/

@[simp] theorem State.unspecify_params (s : State) : s.unspecify.params = s.params := rfl
@[simp] theorem State.unspecify_i2c (s : State) : s.unspecify.i2c = Config.anyI2c s.draws := rfl
@[simp] theorem State.unspecify_uarts (s : State) : s.unspecify.uarts = s.uarts.map (Uart.unspecify s.draws) := rfl
@[simp] theorem State.unspecify_mem (s : State) : s.unspecify.mem = Memory.ofCells (Config.anyCells s.draws) := rfl
@[simp] theorem State.unspecify_gie (s : State) : s.unspecify.gie = Config.anyGie s.draws := rfl
@[simp] theorem State.unspecify_fault (s : State) : s.unspecify.fault = s.fault := rfl
@[simp] theorem State.unspecify_refused (s : State) :
    s.unspecify.refused = (s.refused || Config.anyRefused s.draws) := rfl
@[simp] theorem State.unspecify_program (s : State) : s.unspecify.program = s.program := rfl
@[simp] theorem State.unspecify_turns (s : State) : s.unspecify.turns = s.turns := rfl
@[simp] theorem State.unspecify_split (s : State) : s.unspecify.split = none := rfl
@[simp] theorem State.unspecify_response (s : State) : s.unspecify.response = Config.anyResponse s.draws := rfl
@[simp] theorem State.unspecify_draws (s : State) : s.unspecify.draws = s.draws + 1 := rfl
@[simp] theorem State.raiseMisuse_params (s : State) (m : Misuse) : (s.raiseMisuse m).params = s.unspecify.params :=
  rfl
@[simp] theorem State.raiseMisuse_i2c (s : State) (m : Misuse) : (s.raiseMisuse m).i2c = s.unspecify.i2c := rfl
@[simp] theorem State.raiseMisuse_uarts (s : State) (m : Misuse) : (s.raiseMisuse m).uarts = s.unspecify.uarts := rfl
@[simp] theorem State.raiseMisuse_mem (s : State) (m : Misuse) : (s.raiseMisuse m).mem = s.unspecify.mem := rfl
@[simp] theorem State.raiseMisuse_gie (s : State) (m : Misuse) : (s.raiseMisuse m).gie = s.unspecify.gie := rfl
@[simp] theorem State.raiseMisuse_fault (s : State) (m : Misuse) : (s.raiseMisuse m).fault = some m := rfl
@[simp] theorem State.raiseMisuse_refused (s : State) (m : Misuse) :
    (s.raiseMisuse m).refused = s.unspecify.refused := rfl
@[simp] theorem State.raiseMisuse_program (s : State) (m : Misuse) :
    (s.raiseMisuse m).program = s.unspecify.program := rfl
@[simp] theorem State.raiseMisuse_turns (s : State) (m : Misuse) : (s.raiseMisuse m).turns = s.unspecify.turns := rfl
@[simp] theorem State.raiseMisuse_split (s : State) (m : Misuse) : (s.raiseMisuse m).split = s.unspecify.split := rfl
@[simp] theorem State.raiseMisuse_response (s : State) (m : Misuse) :
    (s.raiseMisuse m).response = s.unspecify.response := rfl
@[simp] theorem State.raiseMisuse_draws (s : State) (m : Misuse) : (s.raiseMisuse m).draws = s.unspecify.draws := rfl

/-! ### I2c.drive -/

@[simp] theorem I2c.drive_rearm_state (c : I2c) (k : BusCommand) : (c.drive (.rearm k)).state = c.state := rfl
@[simp] theorem I2c.drive_rearm_lastStatus (c : I2c) (k : BusCommand) :
    (c.drive (.rearm k)).lastStatus = c.lastStatus := rfl
@[simp] theorem I2c.drive_rearm_flags (c : I2c) (k : BusCommand) : (c.drive (.rearm k)).flags = c.flags := rfl
@[simp] theorem I2c.drive_rearm_sla (c : I2c) (k : BusCommand) : (c.drive (.rearm k)).sla = c.sla := rfl
@[simp] theorem I2c.drive_rearm_buf (c : I2c) (k : BusCommand) : (c.drive (.rearm k)).buf = c.buf := rfl
@[simp] theorem I2c.drive_rearm_dr (c : I2c) (k : BusCommand) : (c.drive (.rearm k)).dr = c.dr := rfl
@[simp] theorem I2c.drive_rearm_bitRate (c : I2c) (k : BusCommand) : (c.drive (.rearm k)).bitRate = c.bitRate := rfl
@[simp] theorem I2c.drive_rearm_enabled (c : I2c) (k : BusCommand) : (c.drive (.rearm k)).enabled = c.enabled := rfl
@[simp] theorem I2c.drive_rearm_cmd (c : I2c) (k : BusCommand) : (c.drive (.rearm k)).cmd = some k := rfl
@[simp] theorem I2c.drive_rearm_event (c : I2c) (k : BusCommand) : (c.drive (.rearm k)).event = c.event := rfl
@[simp] theorem I2c.drive_rearm_busOwned (c : I2c) (k : BusCommand) : (c.drive (.rearm k)).busOwned = c.busOwned :=
  rfl
@[simp] theorem I2c.drive_rearm_addrPhase (c : I2c) (k : BusCommand) : (c.drive (.rearm k)).addrPhase = c.addrPhase :=
  rfl
@[simp] theorem I2c.drive_rearm_trace (c : I2c) (k : BusCommand) : (c.drive (.rearm k)).trace = c.trace := rfl
@[simp] theorem I2c.drive_stop_state (c : I2c) : (c.drive .stop).state = c.state := rfl
@[simp] theorem I2c.drive_stop_lastStatus (c : I2c) : (c.drive .stop).lastStatus = c.lastStatus := rfl
@[simp] theorem I2c.drive_stop_flags (c : I2c) : (c.drive .stop).flags = c.flags := rfl
@[simp] theorem I2c.drive_stop_sla (c : I2c) : (c.drive .stop).sla = c.sla := rfl
@[simp] theorem I2c.drive_stop_buf (c : I2c) : (c.drive .stop).buf = c.buf := rfl
@[simp] theorem I2c.drive_stop_dr (c : I2c) : (c.drive .stop).dr = c.dr := rfl
@[simp] theorem I2c.drive_stop_bitRate (c : I2c) : (c.drive .stop).bitRate = c.bitRate := rfl
@[simp] theorem I2c.drive_stop_enabled (c : I2c) : (c.drive .stop).enabled = c.enabled := rfl
@[simp] theorem I2c.drive_stop_cmd (c : I2c) : (c.drive .stop).cmd = none := rfl
@[simp] theorem I2c.drive_stop_event (c : I2c) : (c.drive .stop).event = c.event := rfl
@[simp] theorem I2c.drive_stop_busOwned (c : I2c) : (c.drive .stop).busOwned = false := rfl
@[simp] theorem I2c.drive_stop_addrPhase (c : I2c) : (c.drive .stop).addrPhase = c.addrPhase := rfl
@[simp] theorem I2c.drive_stop_trace (c : I2c) :
    (c.drive .stop).trace = (if c.busOwned then c.trace ++ [.stop] else c.trace) := rfl
@[simp] theorem I2c.drive_hold_state (c : I2c) : (c.drive .hold).state = c.state := rfl
@[simp] theorem I2c.drive_hold_lastStatus (c : I2c) : (c.drive .hold).lastStatus = c.lastStatus := rfl
@[simp] theorem I2c.drive_hold_flags (c : I2c) : (c.drive .hold).flags = c.flags := rfl
@[simp] theorem I2c.drive_hold_sla (c : I2c) : (c.drive .hold).sla = c.sla := rfl
@[simp] theorem I2c.drive_hold_buf (c : I2c) : (c.drive .hold).buf = c.buf := rfl
@[simp] theorem I2c.drive_hold_dr (c : I2c) : (c.drive .hold).dr = c.dr := rfl
@[simp] theorem I2c.drive_hold_bitRate (c : I2c) : (c.drive .hold).bitRate = c.bitRate := rfl
@[simp] theorem I2c.drive_hold_enabled (c : I2c) : (c.drive .hold).enabled = c.enabled := rfl
@[simp] theorem I2c.drive_hold_cmd (c : I2c) : (c.drive .hold).cmd = none := rfl
@[simp] theorem I2c.drive_hold_event (c : I2c) : (c.drive .hold).event = c.event := rfl
@[simp] theorem I2c.drive_hold_busOwned (c : I2c) : (c.drive .hold).busOwned = c.busOwned := rfl
@[simp] theorem I2c.drive_hold_addrPhase (c : I2c) : (c.drive .hold).addrPhase = c.addrPhase := rfl
@[simp] theorem I2c.drive_hold_trace (c : I2c) : (c.drive .hold).trace = c.trace := rfl

/-! ### I2c.complete, I2c.abort -/

@[simp] theorem I2c.complete_state (c : I2c) : c.complete.state = .idle :=
  by unfold I2c.complete; cases c.holdBus <;> simp
@[simp] theorem I2c.complete_lastStatus (c : I2c) : c.complete.lastStatus = c.lastStatus :=
  by unfold I2c.complete; cases c.holdBus <;> simp
@[simp] theorem I2c.complete_flags (c : I2c) : c.complete.flags = c.flags :=
  by unfold I2c.complete; cases c.holdBus <;> simp
@[simp] theorem I2c.complete_sla (c : I2c) : c.complete.sla = c.sla :=
  by unfold I2c.complete; cases c.holdBus <;> simp
@[simp] theorem I2c.complete_buf (c : I2c) : c.complete.buf = c.buf :=
  by unfold I2c.complete; cases c.holdBus <;> simp
@[simp] theorem I2c.complete_dr (c : I2c) : c.complete.dr = c.dr := by unfold I2c.complete; cases c.holdBus <;> simp
@[simp] theorem I2c.complete_bitRate (c : I2c) : c.complete.bitRate = c.bitRate :=
  by unfold I2c.complete; cases c.holdBus <;> simp
@[simp] theorem I2c.complete_enabled (c : I2c) : c.complete.enabled = c.enabled :=
  by unfold I2c.complete; cases c.holdBus <;> simp
@[simp] theorem I2c.complete_cmd (c : I2c) : c.complete.cmd = none := by unfold I2c.complete; cases c.holdBus <;> simp
@[simp] theorem I2c.complete_event (c : I2c) : c.complete.event = c.event :=
  by unfold I2c.complete; cases c.holdBus <;> simp
@[simp] theorem I2c.complete_busOwned (c : I2c) : c.complete.busOwned = (c.holdBus && c.busOwned) :=
  by unfold I2c.complete; cases c.holdBus <;> simp
@[simp] theorem I2c.complete_addrPhase (c : I2c) : c.complete.addrPhase = c.addrPhase :=
  by unfold I2c.complete; cases c.holdBus <;> simp
@[simp] theorem I2c.complete_trace (c : I2c) :
    c.complete.trace = (if !c.holdBus && c.busOwned then c.trace ++ [.stop] else c.trace) := by unfold I2c.complete; cases c.holdBus <;> simp
@[simp] theorem I2c.abort_state (c : I2c) : c.abort.state = .idle := rfl
@[simp] theorem I2c.abort_lastStatus (c : I2c) : c.abort.lastStatus = c.lastStatus := rfl
@[simp] theorem I2c.abort_flags (c : I2c) : c.abort.flags = c.flags := rfl
@[simp] theorem I2c.abort_sla (c : I2c) : c.abort.sla = c.sla := rfl
@[simp] theorem I2c.abort_buf (c : I2c) : c.abort.buf = c.buf := rfl
@[simp] theorem I2c.abort_dr (c : I2c) : c.abort.dr = c.dr := rfl
@[simp] theorem I2c.abort_bitRate (c : I2c) : c.abort.bitRate = c.bitRate := rfl
@[simp] theorem I2c.abort_enabled (c : I2c) : c.abort.enabled = c.enabled := rfl
@[simp] theorem I2c.abort_cmd (c : I2c) : c.abort.cmd = none := rfl
@[simp] theorem I2c.abort_event (c : I2c) : c.abort.event = c.event := rfl
@[simp] theorem I2c.abort_busOwned (c : I2c) : c.abort.busOwned = false := rfl
@[simp] theorem I2c.abort_addrPhase (c : I2c) : c.abort.addrPhase = c.addrPhase := rfl
@[simp] theorem I2c.abort_trace (c : I2c) : c.abort.trace = (if c.busOwned then c.trace ++ [.stop] else c.trace) :=
  rfl

/-! ### I2c.advance, I2c.enterHandler -/

@[simp] theorem I2c.advance_state (c : I2c) : c.advance.state = c.state := rfl
@[simp] theorem I2c.advance_lastStatus (c : I2c) : c.advance.lastStatus = c.lastStatus := rfl
@[simp] theorem I2c.advance_flags (c : I2c) : c.advance.flags = c.flags := rfl
@[simp] theorem I2c.advance_sla (c : I2c) : c.advance.sla = c.sla := rfl
@[simp] theorem I2c.advance_buf (c : I2c) : c.advance.buf = c.buf.advance := rfl
@[simp] theorem I2c.advance_dr (c : I2c) : c.advance.dr = c.dr := rfl
@[simp] theorem I2c.advance_bitRate (c : I2c) : c.advance.bitRate = c.bitRate := rfl
@[simp] theorem I2c.advance_enabled (c : I2c) : c.advance.enabled = c.enabled := rfl
@[simp] theorem I2c.advance_cmd (c : I2c) : c.advance.cmd = c.cmd := rfl
@[simp] theorem I2c.advance_event (c : I2c) : c.advance.event = c.event := rfl
@[simp] theorem I2c.advance_busOwned (c : I2c) : c.advance.busOwned = c.busOwned := rfl
@[simp] theorem I2c.advance_addrPhase (c : I2c) : c.advance.addrPhase = c.addrPhase := rfl
@[simp] theorem I2c.advance_trace (c : I2c) : c.advance.trace = c.trace := rfl
@[simp] theorem I2c.enterHandler_state (c : I2c) (st : Byte) : (c.enterHandler st).state = c.state := rfl
@[simp] theorem I2c.enterHandler_lastStatus (c : I2c) (st : Byte) : (c.enterHandler st).lastStatus = st := rfl
@[simp] theorem I2c.enterHandler_flags (c : I2c) (st : Byte) : (c.enterHandler st).flags = c.flags := rfl
@[simp] theorem I2c.enterHandler_sla (c : I2c) (st : Byte) : (c.enterHandler st).sla = c.sla := rfl
@[simp] theorem I2c.enterHandler_buf (c : I2c) (st : Byte) : (c.enterHandler st).buf = c.buf := rfl
@[simp] theorem I2c.enterHandler_dr (c : I2c) (st : Byte) : (c.enterHandler st).dr = c.dr := rfl
@[simp] theorem I2c.enterHandler_bitRate (c : I2c) (st : Byte) : (c.enterHandler st).bitRate = c.bitRate := rfl
@[simp] theorem I2c.enterHandler_enabled (c : I2c) (st : Byte) : (c.enterHandler st).enabled = c.enabled := rfl
@[simp] theorem I2c.enterHandler_cmd (c : I2c) (st : Byte) : (c.enterHandler st).cmd = c.cmd := rfl
@[simp] theorem I2c.enterHandler_event (c : I2c) (st : Byte) : (c.enterHandler st).event = none := rfl
@[simp] theorem I2c.enterHandler_busOwned (c : I2c) (st : Byte) : (c.enterHandler st).busOwned = c.busOwned := rfl
@[simp] theorem I2c.enterHandler_addrPhase (c : I2c) (st : Byte) : (c.enterHandler st).addrPhase = c.addrPhase := rfl
@[simp] theorem I2c.enterHandler_trace (c : I2c) (st : Byte) : (c.enterHandler st).trace = c.trace := rfl

/-! ### I2c.startTransaction -/

@[simp] theorem I2c.startTransaction_state (c : I2c) (e : EngineState) (d : BitVec 1) (a f : Byte) (b l : Addr) :
    (c.startTransaction e d a f b l).state = e := rfl
@[simp] theorem I2c.startTransaction_lastStatus (c : I2c) (e : EngineState) (d : BitVec 1) (a f : Byte) (b l : Addr) :
    (c.startTransaction e d a f b l).lastStatus = c.lastStatus := rfl
@[simp] theorem I2c.startTransaction_flags (c : I2c) (e : EngineState) (d : BitVec 1) (a f : Byte) (b l : Addr) :
    (c.startTransaction e d a f b l).flags = f := rfl
@[simp] theorem I2c.startTransaction_sla (c : I2c) (e : EngineState) (d : BitVec 1) (a f : Byte) (b l : Addr) :
    (c.startTransaction e d a f b l).sla = slaOf a d := rfl
@[simp] theorem I2c.startTransaction_buf (c : I2c) (e : EngineState) (d : BitVec 1) (a f : Byte) (b l : Addr) :
    (c.startTransaction e d a f b l).buf = ⟨b, b, b + l⟩ := rfl
@[simp] theorem I2c.startTransaction_dr (c : I2c) (e : EngineState) (d : BitVec 1) (a f : Byte) (b l : Addr) :
    (c.startTransaction e d a f b l).dr = c.dr := rfl
@[simp] theorem I2c.startTransaction_bitRate (c : I2c) (e : EngineState) (d : BitVec 1) (a f : Byte) (b l : Addr) :
    (c.startTransaction e d a f b l).bitRate = c.bitRate := rfl
@[simp] theorem I2c.startTransaction_enabled (c : I2c) (e : EngineState) (d : BitVec 1) (a f : Byte) (b l : Addr) :
    (c.startTransaction e d a f b l).enabled = c.enabled := rfl
@[simp] theorem I2c.startTransaction_cmd (c : I2c) (e : EngineState) (d : BitVec 1) (a f : Byte) (b l : Addr) :
    (c.startTransaction e d a f b l).cmd = some .start := rfl
@[simp] theorem I2c.startTransaction_event (c : I2c) (e : EngineState) (d : BitVec 1) (a f : Byte) (b l : Addr) :
    (c.startTransaction e d a f b l).event = c.event := rfl
@[simp] theorem I2c.startTransaction_busOwned (c : I2c) (e : EngineState) (d : BitVec 1) (a f : Byte) (b l : Addr) :
    (c.startTransaction e d a f b l).busOwned = c.busOwned := rfl
@[simp] theorem I2c.startTransaction_addrPhase (c : I2c) (e : EngineState) (d : BitVec 1) (a f : Byte) (b l : Addr) :
    (c.startTransaction e d a f b l).addrPhase = c.addrPhase := rfl
@[simp] theorem I2c.startTransaction_trace (c : I2c) (e : EngineState) (d : BitVec 1) (a f : Byte) (b l : Addr) :
    (c.startTransaction e d a f b l).trace = c.trace := rfl

/-! ### The bus side -/

@[simp] theorem I2c.loseBus_state (c : I2c) (y : BusSymbol) : (c.loseBus y).state = c.state := rfl
@[simp] theorem I2c.loseBus_lastStatus (c : I2c) (y : BusSymbol) : (c.loseBus y).lastStatus = c.lastStatus := rfl
@[simp] theorem I2c.loseBus_flags (c : I2c) (y : BusSymbol) : (c.loseBus y).flags = c.flags := rfl
@[simp] theorem I2c.loseBus_sla (c : I2c) (y : BusSymbol) : (c.loseBus y).sla = c.sla := rfl
@[simp] theorem I2c.loseBus_buf (c : I2c) (y : BusSymbol) : (c.loseBus y).buf = c.buf := rfl
@[simp] theorem I2c.loseBus_dr (c : I2c) (y : BusSymbol) : (c.loseBus y).dr = c.dr := rfl
@[simp] theorem I2c.loseBus_bitRate (c : I2c) (y : BusSymbol) : (c.loseBus y).bitRate = c.bitRate := rfl
@[simp] theorem I2c.loseBus_enabled (c : I2c) (y : BusSymbol) : (c.loseBus y).enabled = c.enabled := rfl
@[simp] theorem I2c.loseBus_cmd (c : I2c) (y : BusSymbol) : (c.loseBus y).cmd = c.cmd := rfl
@[simp] theorem I2c.loseBus_event (c : I2c) (y : BusSymbol) : (c.loseBus y).event = c.event := rfl
@[simp] theorem I2c.loseBus_busOwned (c : I2c) (y : BusSymbol) : (c.loseBus y).busOwned = false := rfl
@[simp] theorem I2c.loseBus_addrPhase (c : I2c) (y : BusSymbol) : (c.loseBus y).addrPhase = false := rfl
@[simp] theorem I2c.loseBus_trace (c : I2c) (y : BusSymbol) : (c.loseBus y).trace = c.trace ++ [y] := rfl
@[simp] theorem I2c.sent_state (c : I2c) (a : Ack) : (c.sent a).state = c.state := rfl
@[simp] theorem I2c.sent_lastStatus (c : I2c) (a : Ack) : (c.sent a).lastStatus = c.lastStatus := rfl
@[simp] theorem I2c.sent_flags (c : I2c) (a : Ack) : (c.sent a).flags = c.flags := rfl
@[simp] theorem I2c.sent_sla (c : I2c) (a : Ack) : (c.sent a).sla = c.sla := rfl
@[simp] theorem I2c.sent_buf (c : I2c) (a : Ack) : (c.sent a).buf = c.buf := rfl
@[simp] theorem I2c.sent_dr (c : I2c) (a : Ack) : (c.sent a).dr = c.dr := rfl
@[simp] theorem I2c.sent_bitRate (c : I2c) (a : Ack) : (c.sent a).bitRate = c.bitRate := rfl
@[simp] theorem I2c.sent_enabled (c : I2c) (a : Ack) : (c.sent a).enabled = c.enabled := rfl
@[simp] theorem I2c.sent_cmd (c : I2c) (a : Ack) : (c.sent a).cmd = c.cmd := rfl
@[simp] theorem I2c.sent_event (c : I2c) (a : Ack) : (c.sent a).event = c.event := rfl
@[simp] theorem I2c.sent_busOwned (c : I2c) (a : Ack) : (c.sent a).busOwned = c.busOwned := rfl
@[simp] theorem I2c.sent_addrPhase (c : I2c) (a : Ack) : (c.sent a).addrPhase = false := rfl
@[simp] theorem I2c.sent_trace (c : I2c) (a : Ack) : (c.sent a).trace = c.trace ++ [.wrote c.dr a] := rfl
@[simp] theorem I2c.receive_state (c : I2c) (b : Byte) (a : Ack) : (c.receive b a).state = c.state := rfl
@[simp] theorem I2c.receive_lastStatus (c : I2c) (b : Byte) (a : Ack) : (c.receive b a).lastStatus = c.lastStatus :=
  rfl
@[simp] theorem I2c.receive_flags (c : I2c) (b : Byte) (a : Ack) : (c.receive b a).flags = c.flags := rfl
@[simp] theorem I2c.receive_sla (c : I2c) (b : Byte) (a : Ack) : (c.receive b a).sla = c.sla := rfl
@[simp] theorem I2c.receive_buf (c : I2c) (b : Byte) (a : Ack) : (c.receive b a).buf = c.buf := rfl
@[simp] theorem I2c.receive_dr (c : I2c) (b : Byte) (a : Ack) : (c.receive b a).dr = b := rfl
@[simp] theorem I2c.receive_bitRate (c : I2c) (b : Byte) (a : Ack) : (c.receive b a).bitRate = c.bitRate := rfl
@[simp] theorem I2c.receive_enabled (c : I2c) (b : Byte) (a : Ack) : (c.receive b a).enabled = c.enabled := rfl
@[simp] theorem I2c.receive_cmd (c : I2c) (b : Byte) (a : Ack) : (c.receive b a).cmd = c.cmd := rfl
@[simp] theorem I2c.receive_event (c : I2c) (b : Byte) (a : Ack) : (c.receive b a).event = c.event := rfl
@[simp] theorem I2c.receive_busOwned (c : I2c) (b : Byte) (a : Ack) : (c.receive b a).busOwned = c.busOwned := rfl
@[simp] theorem I2c.receive_addrPhase (c : I2c) (b : Byte) (a : Ack) : (c.receive b a).addrPhase = c.addrPhase := rfl
@[simp] theorem I2c.receive_trace (c : I2c) (b : Byte) (a : Ack) :
    (c.receive b a).trace = c.trace ++ [.received b a] := rfl
@[simp] theorem I2c.raiseEvent_state (c : I2c) (k : Byte) (p : BitVec 3) : (c.raiseEvent k p).state = c.state := rfl
@[simp] theorem I2c.raiseEvent_lastStatus (c : I2c) (k : Byte) (p : BitVec 3) :
    (c.raiseEvent k p).lastStatus = c.lastStatus := rfl
@[simp] theorem I2c.raiseEvent_flags (c : I2c) (k : Byte) (p : BitVec 3) : (c.raiseEvent k p).flags = c.flags := rfl
@[simp] theorem I2c.raiseEvent_sla (c : I2c) (k : Byte) (p : BitVec 3) : (c.raiseEvent k p).sla = c.sla := rfl
@[simp] theorem I2c.raiseEvent_buf (c : I2c) (k : Byte) (p : BitVec 3) : (c.raiseEvent k p).buf = c.buf := rfl
@[simp] theorem I2c.raiseEvent_dr (c : I2c) (k : Byte) (p : BitVec 3) : (c.raiseEvent k p).dr = c.dr := rfl
@[simp] theorem I2c.raiseEvent_bitRate (c : I2c) (k : Byte) (p : BitVec 3) : (c.raiseEvent k p).bitRate = c.bitRate :=
  rfl
@[simp] theorem I2c.raiseEvent_enabled (c : I2c) (k : Byte) (p : BitVec 3) : (c.raiseEvent k p).enabled = c.enabled :=
  rfl
@[simp] theorem I2c.raiseEvent_cmd (c : I2c) (k : Byte) (p : BitVec 3) : (c.raiseEvent k p).cmd = none := rfl
@[simp] theorem I2c.raiseEvent_event (c : I2c) (k : Byte) (p : BitVec 3) :
    (c.raiseEvent k p).event = some ⟨statusOf k p, c.dr⟩ := rfl
@[simp] theorem I2c.raiseEvent_busOwned (c : I2c) (k : Byte) (p : BitVec 3) :
    (c.raiseEvent k p).busOwned = c.busOwned := rfl
@[simp] theorem I2c.raiseEvent_addrPhase (c : I2c) (k : Byte) (p : BitVec 3) :
    (c.raiseEvent k p).addrPhase = c.addrPhase := rfl
@[simp] theorem I2c.raiseEvent_trace (c : I2c) (k : Byte) (p : BitVec 3) : (c.raiseEvent k p).trace = c.trace := rfl
@[simp] theorem I2c.otherAnswer_state (c : I2c) (p : Option Config.StatusPhase) (k b : Byte) :
    (c.otherAnswer p k b).state = c.state := rfl
@[simp] theorem I2c.otherAnswer_lastStatus (c : I2c) (p : Option Config.StatusPhase) (k b : Byte) :
    (c.otherAnswer p k b).lastStatus = c.lastStatus := rfl
@[simp] theorem I2c.otherAnswer_flags (c : I2c) (p : Option Config.StatusPhase) (k b : Byte) :
    (c.otherAnswer p k b).flags = c.flags := rfl
@[simp] theorem I2c.otherAnswer_sla (c : I2c) (p : Option Config.StatusPhase) (k b : Byte) :
    (c.otherAnswer p k b).sla = c.sla := rfl
@[simp] theorem I2c.otherAnswer_buf (c : I2c) (p : Option Config.StatusPhase) (k b : Byte) :
    (c.otherAnswer p k b).buf = c.buf := rfl
@[simp] theorem I2c.otherAnswer_dr (c : I2c) (p : Option Config.StatusPhase) (k b : Byte) :
    (c.otherAnswer p k b).dr = b := rfl
@[simp] theorem I2c.otherAnswer_bitRate (c : I2c) (p : Option Config.StatusPhase) (k b : Byte) :
    (c.otherAnswer p k b).bitRate = c.bitRate := rfl
@[simp] theorem I2c.otherAnswer_enabled (c : I2c) (p : Option Config.StatusPhase) (k b : Byte) :
    (c.otherAnswer p k b).enabled = c.enabled := rfl
@[simp] theorem I2c.otherAnswer_cmd (c : I2c) (p : Option Config.StatusPhase) (k b : Byte) :
    (c.otherAnswer p k b).cmd = c.cmd := rfl
@[simp] theorem I2c.otherAnswer_event (c : I2c) (p : Option Config.StatusPhase) (k b : Byte) :
    (c.otherAnswer p k b).event = c.event := rfl
@[simp] theorem I2c.otherAnswer_busOwned (c : I2c) (p : Option Config.StatusPhase) (k b : Byte) :
    (c.otherAnswer p k b).busOwned = (if p = some .busError ∨ p = some .arbLost then false else c.busOwned) := rfl
@[simp] theorem I2c.otherAnswer_addrPhase (c : I2c) (p : Option Config.StatusPhase) (k b : Byte) :
    (c.otherAnswer p k b).addrPhase = c.addrPhase := rfl
@[simp] theorem I2c.otherAnswer_trace (c : I2c) (p : Option Config.StatusPhase) (k b : Byte) :
    (c.otherAnswer p k b).trace = c.trace ++ [.other k] := rfl

/-! ### Spans -/

@[simp] theorem TransferBuffer.advance_start (b : TransferBuffer) : b.advance.start = b.start := rfl
@[simp] theorem TransferBuffer.advance_cursor (b : TransferBuffer) : b.advance.cursor = b.cursor + 1 := rfl
@[simp] theorem TransferBuffer.advance_limit (b : TransferBuffer) : b.advance.limit = b.limit := rfl

end Sys2Proof.Machine
end

