-- ==== Sys2Proof/Laws/Ops.lean ====
section
/-!
SUPPORT. One lemma for each shared operation, saying once everything it can do; later proofs cite these.
-/

namespace Sys2Proof.Machine

open Sys2Proof

/-! ### Meanings -/

@[simp] theorem State.perform_clear {s : State} (h : s.fault = none) (f : State → State) :
    s.perform f = .next (f s) := by
  simp [State.perform, State.effect, State.misused, h]

theorem State.perform_misused {s : State} {m : Misuse} (h : s.fault = some m) (f : State → State) :
    s.perform f = .next s.unspecify := by
  simp [State.perform, State.effect, State.misused, h]

/-- What a meaning can answer: the next state of its effect, or, after misuse, an unspecified one. -/
theorem State.perform_cases {s t : State} {f : State → State} (h : s.perform f = .next t) :
    (s.fault = none ∧ t = f s) ∨ (s.fault.isSome = true ∧ t = s.unspecify) := by
  cases hf : s.fault with
  | none => left; rw [State.perform_clear hf] at h; exact ⟨rfl, by injection h with h; exact h.symm⟩
  | some m => right; rw [State.perform_misused hf] at h; exact ⟨rfl, by injection h with h; exact h.symm⟩

@[simp] theorem State.onUnit_some {s : State} {u : Byte} {x : Uart} (h : s.uart? u = some x) (f : Uart → State) :
    s.onUnit u f = f x := by
  simp [State.onUnit, h]

@[simp] theorem State.onUnit_none {s : State} {u : Byte} (h : s.uart? u = none) (f : Uart → State) :
    s.onUnit u f = s.refuse := by
  simp [State.onUnit, h]

@[simp] theorem mapNext_next (f : State → State) (t : State) : mapNext f (.next t) = .next (f t) := rfl

/-! ### Units -/

theorem State.uart?_lt {s : State} {u : Byte} {x : Uart} (h : s.uart? u = some x) : u.toNat < s.uarts.length := by
  simp only [State.uart?, List.getElem?_eq_some_iff] at h
  exact h.1

theorem State.mem_of_uart? {s : State} {u : Byte} {x : Uart} (h : s.uart? u = some x) : x ∈ s.uarts :=
  List.mem_of_getElem? h

/-- The context of a unit after it has been replaced. -/
theorem State.uart?_withUart_self {s : State} {u : Byte} {x : Uart} (y : Uart) (h : s.uart? u = some x) :
    (s.withUart u y).uart? u = some y := by
  simp only [State.uart?, State.withUart_uarts]
  rw [List.getElem?_set_self (State.uart?_lt h)]

/-- Replacing a unit's context leaves the other units alone. -/
theorem State.uart?_withUart_other (s : State) {u v : Byte} (y : Uart) (h : u ≠ v) :
    (s.withUart u y).uart? v = s.uart? v := by
  simp only [State.uart?, State.withUart_uarts]
  rw [List.getElem?_set_ne fun e => h (BitVec.eq_of_toNat_eq e)]

/-! ### Spans -/

theorem TransferBuffer.exhausted_iff (b : TransferBuffer) : b.exhausted = true ↔ b.cursor = b.limit := by
  simp [TransferBuffer.exhausted]

/-- An ordered span's progress is the exact difference. -/
theorem TransferBuffer.progress_toNat {b : TransferBuffer} (h : b.cursor.toNat ≤ b.limit.toNat) :
    b.progress.toNat = b.limit.toNat - b.cursor.toNat := by
  simp only [TransferBuffer.progress]
  rw [BitVec.toNat_sub_of_le h]

/-- A span that does not wrap ends where the exact sum says (30_encoding.md R97). -/
theorem spanLegal_toNat {b l : Addr} (h : spanLegal b l = true) : (b + l).toNat = b.toNat + l.toNat := by
  simp only [spanLegal, decide_eq_true_eq] at h
  rw [BitVec.toNat_add, Nat.mod_eq_of_lt h]

/-- The cursor of a span that is not exhausted moves on without wrapping. -/
theorem TransferBuffer.advance_cursor_toNat {b : TransferBuffer} (h : b.cursor.toNat < b.limit.toNat) :
    b.advance.cursor.toNat = b.cursor.toNat + 1 := by
  have := b.limit.isLt
  simp only [TransferBuffer.advance_cursor, BitVec.toNat_add]
  exact Nat.mod_eq_of_lt (by simp; omega)

/-! ### Drive -/

/-- What COMPLETE leaves: `Idle`, no command, and the bus held or stopped (41_i2c_event_engine.md R142). -/
theorem I2c.complete_eq (c : I2c) :
    c.complete = if c.holdBus then { c with state := .idle, cmd := none }
      else { c with state := .idle, cmd := none, busOwned := false,
                    trace := if c.busOwned then c.trace ++ [.stop] else c.trace } := by
  unfold I2c.complete
  cases c.holdBus <;> rfl

/-- What ABORT leaves (R143). -/
theorem I2c.abort_eq (c : I2c) :
    c.abort = { c with state := .idle, cmd := none, busOwned := false,
                       trace := if c.busOwned then c.trace ++ [.stop] else c.trace } := rfl

/-- What ARM_RECEIVE does (R147). -/
theorem I2c.armReceive_cases (c : I2c) :
    (c.buf.progress = 0 ∧ c.armReceive = c.complete) ∨
    (c.buf.progress = 1 ∧ c.armReceive = { c with cmd := some .recvNack }) ∨
    (c.buf.progress ≠ 0 ∧ c.buf.progress ≠ 1 ∧ c.armReceive = { c with cmd := some .recvAck }) := by
  unfold I2c.armReceive
  split
  · rename_i h; exact .inl ⟨h, rfl⟩
  · rename_i h0
    split
    · rename_i h1; exact .inr (.inl ⟨h1, rfl⟩)
    · rename_i h1; exact .inr (.inr ⟨h0, h1, rfl⟩)

/-- What a start operation can do (40_i2c_foreground.md R121, R122). -/
theorem State.startTransaction_cases (s : State) (e : EngineState) (d : BitVec 1) (a f : Byte) (b l : Addr) :
    (startLegal a f b l = false ∧ s.startTransaction e d a f b l = s.refuse) ∨
    (startLegal a f b l = true ∧ s.i2c.state ≠ .idle ∧
      s.startTransaction e d a f b l = s.raiseMisuse .startWhileBusy) ∨
    (startLegal a f b l = true ∧ s.i2c.state = .idle ∧ s.i2c.enabled = false ∧
      s.startTransaction e d a f b l = s.raiseMisuse .notInitialised) ∨
    (startLegal a f b l = true ∧ s.i2c.state = .idle ∧ s.i2c.enabled = true ∧
      s.startTransaction e d a f b l = s.withI2c (s.i2c.startTransaction e d a f b l)) := by
  unfold State.startTransaction
  cases h1 : startLegal a f b l <;> cases h2 : s.i2c.state <;> cases h3 : s.i2c.enabled <;> simp_all

theorem State.beginSplit_eq (s : State) (g : ProgressTarget) (p : Addr) :
    ∃ k, s.beginSplit g p = { s with split := some ⟨g, byteOf p k⟩ } := by
  unfold State.beginSplit
  cases s.params.progressReadOrder
  · exact ⟨0, rfl⟩
  · exact ⟨1, rfl⟩

theorem State.finishSplit_eq (s : State) (b : Byte) (p : Addr) :
    ∃ v, s.finishSplit b p = { s with split := none, response := some (.progress v) } := by
  unfold State.finishSplit
  cases s.params.progressReadOrder
  · exact ⟨_, rfl⟩
  · exact ⟨_, rfl⟩

/-- What one step of a progress read can do (20_memory.md R78): answer the whole count, read the first byte, or read the
second byte and answer. -/
theorem State.readProgress_cases (s : State) (g : ProgressTarget) (p : Addr) :
    (s.params.progressReadAtomic = true ∧ s.readProgress g p = s.respond (.progress p)) ∨
    (s.params.progressReadAtomic = false ∧
      ((∃ k, s.readProgress g p = { s with split := some ⟨g, byteOf p k⟩ }) ∨
       (∃ v, s.readProgress g p = { s with split := none, response := some (.progress v) }))) := by
  unfold State.readProgress
  split
  · rename_i h; exact .inl ⟨h, rfl⟩
  · rename_i h
    refine .inr ⟨by simpa using h, ?_⟩
    split
    · exact .inl (s.beginSplit_eq g p)
    · split
      · exact .inr (s.finishSplit_eq _ p)
      · exact .inl (s.beginSplit_eq g p)

/-- What the body of the TX-empty handler can do (43_uart_event_engine.md R231). -/
theorem State.streamNextByte_cases (s : State) (u : Byte) (x : Uart) :
    (x.streamActive = false ∧ s.streamNextByte u x = s.withUart u x) ∨
    (x.streamActive = true ∧ x.txBuf.advance.exhausted = true ∧
      s.streamNextByte u x = s.withUart u { x with txBuf := x.txBuf.advance }) ∨
    (x.streamActive = true ∧ x.txBuf.advance.exhausted = false ∧ x.txEmpty = false ∧
      s.streamNextByte u x = s.raiseMisuse .overrun) ∨
    (x.streamActive = true ∧ x.txBuf.advance.exhausted = false ∧ x.txEmpty = true ∧
      s.streamNextByte u x =
        s.withUart u { x with txBuf := x.txBuf.advance, txData := some (s.mem.read x.txBuf.advance.cursor) }) := by
  unfold State.streamNextByte
  cases h1 : x.streamActive <;> cases h2 : x.txBuf.advance.exhausted <;> cases h3 : x.txEmpty <;> simp

/-- A stream is outstanding in `Auto` mode with bytes left, and there alone (10_state.md R38). -/
theorem Uart.streamActive_iff (x : Uart) :
    x.streamActive = true ↔ x.txMode = .auto ∧ x.txBuf.exhausted = false := by
  simp [Uart.streamActive]

/-- A received byte is ready when one waits and the receiver is not `Disabled`, and then alone (42_uart_foreground.md
R196). -/
theorem Uart.receiveReady_iff (x : Uart) : x.receiveReady = true ↔ x.rxMode ≠ .disabled ∧ x.rxFull = true := by
  simp [Uart.receiveReady]

/-- What an answer of the bus can be (41_i2c_event_engine.md R157): a row of the conforming table, any other code, or,
under `BUS_STRICT`, no step. -/
theorem I2c.answer_cases (c : I2c) (p : Config.Params) (k : BusCommand) (code b : Byte) :
    (∃ c', c.conformingAnswer k (statusPhase? p.statusTable code) b = some c' ∧
      c.answer p k code b = c'.raiseEvent (statusCode code) p.presc) ∨
    (c.conformingAnswer k (statusPhase? p.statusTable code) b = none ∧ p.busStrict = true ∧ c.answer p k code b = c) ∨
    (c.conformingAnswer k (statusPhase? p.statusTable code) b = none ∧ p.busStrict = false ∧
      c.answer p k code b = (c.otherAnswer (statusPhase? p.statusTable code) (statusCode code) b).raiseEvent
        (statusCode code) p.presc) := by
  unfold I2c.answer
  dsimp only
  cases h : c.conformingAnswer k (statusPhase? p.statusTable code) b with
  | some c' => exact .inl ⟨c', rfl, rfl⟩
  | none => cases hp : p.busStrict <;> simp

/-- What a step of the bus can do (R157). -/
theorem State.busStep_cases (s : State) (code b : Byte) :
    s.busStep code b = s ∨
    ∃ k, s.i2c.cmd = some k ∧ s.i2c.enabled = true ∧
      s.busStep code b = s.withI2c (s.i2c.answer s.params k code b) := by
  unfold State.busStep
  split
  · exact .inl rfl
  · rename_i k hk
    split
    · rename_i he; exact .inr ⟨k, hk, he, rfl⟩
    · exact .inl rfl

/-- What a step of a line can do: nothing, or the unit's context changes by `f`. -/
theorem State.lineStep_cases (s : State) (u : Byte) (f : Uart → Uart) :
    s.lineStep u f = s ∨ ∃ x, s.uart? u = some x ∧ s.lineStep u f = s.withUart u (f x) := by
  unfold State.lineStep
  split
  · rename_i x hx; exact .inr ⟨x, hx, rfl⟩
  · exact .inl rfl

end Sys2Proof.Machine
end

