-- ==== Sys2Proof/Laws/Bus.lean ====
section
/-!
SUPPORT. What the answers of the bus can be (41_i2c_event_engine.md R157, R158): a conforming answer has a code that the
table allows and leaves the engine's own fields alone.
-/

namespace Sys2Proof.Machine

open Sys2Proof

/-- A conforming answer has one of the allowed codes; so a code outside them has no conforming answer. -/
theorem I2c.conformingAnswer_allowed {t : Config.StatusTable} {c c' : I2c} {k : BusCommand} {code b : Byte}
    (h : c.conformingAnswer k (statusPhase? t code) b = some c') : statusCode code ∈ c.allowedCodes t k := by
  have hp : ∀ p, statusPhase? t code = some p → statusCode code = t.code p := fun p h => (statusPhase?_code h).symm
  generalize statusPhase? t code = phase at h hp
  cases phase with
  | none => cases k <;> simp [I2c.conformingAnswer] at h
  | some p =>
    rw [hp p rfl]
    cases k <;> cases p <;> simp_all [I2c.conformingAnswer, I2c.sendAck?, I2c.allowedCodes, Config.StatusTable.code]
    all_goals (repeat' split) <;> simp

/-- A conforming answer leaves the engine's fields and the peripheral's setting alone. -/
theorem I2c.conformingAnswer_frame {c c' : I2c} {k : BusCommand} {phase : Option Config.StatusPhase} {b : Byte}
    (h : c.conformingAnswer k phase b = some c') :
    c'.state = c.state ∧ c'.lastStatus = c.lastStatus ∧ c'.flags = c.flags ∧ c'.sla = c.sla ∧ c'.buf = c.buf ∧
    c'.bitRate = c.bitRate ∧ c'.enabled = c.enabled ∧ c'.event = c.event := by
  cases phase with
  | none => cases k <;> simp [I2c.conformingAnswer] at h
  | some p =>
    cases k <;> cases p <;> simp only [I2c.conformingAnswer, I2c.sendAck?] at h
    all_goals (repeat' split at h)
    all_goals simp at h
    all_goals subst h
    all_goals simp

end Sys2Proof.Machine
end

