-- ==== Sys2Proof/Laws/PerInstr.lean ====
section
/-!
SUPPORT. The per-instruction family `EncodingLength`: every operation of a given word has the same, fixed number of
bytes (30_encoding.md R107). One lemma per constructor of `Instr`.
-/

namespace Sys2Proof.Laws.EncodingLength

open Sys2Proof

/-- The number of bytes of an operation: the command word and its operand record (30_encoding.md R90, R91), or one byte
of status (R100). -/
def size : Instr → Nat
  | .i2cInit .. => 9
  | .i2cStartWrite .. => 7
  | .i2cStartRead .. => 7
  | .i2cGetState => 1
  | .i2cGetStatus => 1
  | .i2cGetProgress => 1
  | .uartInit .. => 11
  | .uartSendReady .. => 2
  | .uartSendManual .. => 3
  | .uartSendAuto .. => 6
  | .uartSendAutoProgress .. => 2
  | .uartReceiveReady .. => 2
  | .uartReceiveFetch .. => 2
  | .i2cEvent .. => 3
  | .uartTxEmptyEvent .. => 2
  | .uartRxDataEvent .. => 2
  | .statusStart .. => 1
  | .statusRepStart .. => 1
  | .statusSlaWAck .. => 1
  | .statusSlaWNack .. => 1
  | .statusDataWAck .. => 1
  | .statusDataWNack .. => 1
  | .statusArbLost .. => 1
  | .statusSlaRAck .. => 1
  | .statusSlaRNack .. => 1
  | .statusDataRAck .. => 1
  | .statusDataRNack .. => 1
  | .statusBusError .. => 1
  | .statusNoInfo .. => 1
  | .statusOther .. => 1

/-- The encoding has the operation's fixed length, whatever the status table. -/
def Statement (i : Instr) : Prop := ∀ t : Config.StatusTable, (encode t i).length = size i

theorem i2cInit (cpuClockHz bitRate : Word32) : Statement (.i2cInit cpuClockHz bitRate) := fun _ => rfl

theorem i2cStartWrite (address flags : Byte) (buffer length : Addr) :
    Statement (.i2cStartWrite address flags buffer length) := fun _ => rfl

theorem i2cStartRead (address flags : Byte) (buffer length : Addr) :
    Statement (.i2cStartRead address flags buffer length) := fun _ => rfl

theorem i2cGetState : Statement .i2cGetState := fun _ => rfl

theorem i2cGetStatus : Statement .i2cGetStatus := fun _ => rfl

theorem i2cGetProgress : Statement .i2cGetProgress := fun _ => rfl

theorem uartInit (unit : Byte) (cpuClockHz baud : Word32) (config : Byte) :
    Statement (.uartInit unit cpuClockHz baud config) := fun _ => rfl

theorem uartSendReady (unit : Byte) : Statement (.uartSendReady unit) := fun _ => rfl

theorem uartSendManual (unit byte : Byte) : Statement (.uartSendManual unit byte) := fun _ => rfl

theorem uartSendAuto (unit : Byte) (buffer length : Addr) : Statement (.uartSendAuto unit buffer length) := fun _ => rfl

theorem uartSendAutoProgress (unit : Byte) : Statement (.uartSendAutoProgress unit) := fun _ => rfl

theorem uartReceiveReady (unit : Byte) : Statement (.uartReceiveReady unit) := fun _ => rfl

theorem uartReceiveFetch (unit : Byte) : Statement (.uartReceiveFetch unit) := fun _ => rfl

theorem i2cEvent (status data : Byte) : Statement (.i2cEvent status data) := fun _ => rfl

theorem uartTxEmptyEvent (unit : Byte) : Statement (.uartTxEmptyEvent unit) := fun _ => rfl

theorem uartRxDataEvent (unit : Byte) : Statement (.uartRxDataEvent unit) := fun _ => rfl

theorem statusStart (presc : BitVec 3) : Statement (.statusStart presc) := fun _ => rfl

theorem statusRepStart (presc : BitVec 3) : Statement (.statusRepStart presc) := fun _ => rfl

theorem statusSlaWAck (presc : BitVec 3) : Statement (.statusSlaWAck presc) := fun _ => rfl

theorem statusSlaWNack (presc : BitVec 3) : Statement (.statusSlaWNack presc) := fun _ => rfl

theorem statusDataWAck (presc : BitVec 3) : Statement (.statusDataWAck presc) := fun _ => rfl

theorem statusDataWNack (presc : BitVec 3) : Statement (.statusDataWNack presc) := fun _ => rfl

theorem statusArbLost (presc : BitVec 3) : Statement (.statusArbLost presc) := fun _ => rfl

theorem statusSlaRAck (presc : BitVec 3) : Statement (.statusSlaRAck presc) := fun _ => rfl

theorem statusSlaRNack (presc : BitVec 3) : Statement (.statusSlaRNack presc) := fun _ => rfl

theorem statusDataRAck (presc : BitVec 3) : Statement (.statusDataRAck presc) := fun _ => rfl

theorem statusDataRNack (presc : BitVec 3) : Statement (.statusDataRNack presc) := fun _ => rfl

theorem statusBusError (presc : BitVec 3) : Statement (.statusBusError presc) := fun _ => rfl

theorem statusNoInfo (presc : BitVec 3) : Statement (.statusNoInfo presc) := fun _ => rfl

theorem statusOther (status : Byte) : Statement (.statusOther status) := fun _ => rfl

end Sys2Proof.Laws.EncodingLength
end

