-- ==== Sys2Proof/Laws/Step.lean ====
section
/-!
SUPPORT. What a step can do, said once: `Effect s tn t` lists the effects the agent of turn `tn` can have on a state in
which no misuse has occurred, and `step_effect` says that every step is one of them, up to the foreground's remaining
operations and the remaining turns. Invariants are proved by cases on `Effect`.
-/

namespace Sys2Proof.Machine

open Sys2Proof

/-- The effects a step of the agent of turn `tn` can have on `s`, the bookkeeping of operations and turns apart. -/
inductive Effect (s : State) : Turn → State → Prop
  /-- Nothing: the agent had no step to take. -/
  | stay (tn : Turn) (hi : tn = .i2cHandler → s.i2cDeliverable = false)
      (ht : ∀ u, tn = .txHandler u → s.txDeliverable u = false) : Effect s tn s
  | refuse : Effect s .foreground s.refuse
  | misuse (tn : Turn) (m : Misuse) : Effect s tn (s.raiseMisuse m)
  /-- An observer answers, or a split read takes a byte. -/
  | answer (sp : Option SplitRead) (r : Option Response) : Effect s .foreground { s with split := sp, response := r }
  | memWrite (a : Addr) (v : Byte) (rest : List ForegroundOp) (hp : s.program = .memWrite a v :: rest)
      (ho : s.spanOwned a = false) : Effect s .foreground { s with mem := s.mem.write a v }
  | i2cInit (n : Nat) (hb : s.i2c.busy = false) :
      Effect s .foreground (s.withI2c { s.i2c with bitRate := n, enabled := true })
  | i2cStart (e : EngineState) (d : BitVec 1) (a f : Byte) (b l : Addr)
      (hd : (e = .masterWriting ∧ d = 0) ∨ (e = .masterReading ∧ d = 1))
      (hl : startLegal a f b l = true) (hi : s.i2c.state = .idle) (he : s.i2c.enabled = true) :
      Effect s .foreground (s.withI2c (s.i2c.startTransaction e d a f b l))
  | uartInit (u : Byte) (x : Uart) (d : BitVec 12) (config : Byte) (txm rxm : UartMode) (hx : s.uart? u = some x)
      (hb : x.busy = false) (hr : configRxMode config = some rxm) :
      Effect s .foreground (s.withUart u (x.configure d config txm rxm))
  | sendManual (u b : Byte) (x : Uart) (hx : s.uart? u = some x) (hs : x.streamActive = false) :
      Effect s .foreground (s.withUart u { x with txData := some b })
  | sendAuto (u : Byte) (x : Uart) (b l : Addr) (v : Option Byte) (hx : s.uart? u = some x)
      (hl : spanLegal b l = true) (he : x.streamActive = false) :
      Effect s .foreground (s.withUart u { x with txBuf := ⟨b, b, b + l⟩, txData := v })
  | fetch (u : Byte) (x : Uart) (hx : s.uart? u = some x) :
      Effect s .foreground ((s.withUart u { x with rxFull := false }).respond (.data x.rxData))
  | i2cEvent (e : BusEvent) (hg : s.gie = true) (he : s.i2c.event = some e) :
      Effect s .i2cHandler ((s.withI2c (s.i2c.enterHandler e.status)).performAction
        (decodeStatusAction s.params.statusTable e.status))
  | txEvent (u : Byte) (x : Uart) (hg : s.gie = true) (hx : s.uart? u = some x) (he : x.txEvt = true) :
      Effect s (.txHandler u) (s.streamNextByte u { x with txEvt := false })
  | rxEvent (u : Byte) (x : Uart) (hx : s.uart? u = some x) :
      Effect s (.rxHandler u) (s.withUart u { x with rxEvt := false })
  | bus (code b : Byte) : Effect s (.bus code b) (s.busStep code b)
  | lineLoad (u : Byte) : Effect s (.lineLoad u) (s.lineStep u Uart.loadShift)
  | lineShift (u : Byte) : Effect s (.lineShift u) (s.lineStep u Uart.shiftOut)
  | lineReceive (u b : Byte) (k : Bool) : Effect s (.lineReceive u b k) (s.lineStep u fun x => x.receive b k)
  | platform (g : Bool) : Effect s (.platform g) { s with gie := g }

theorem decode_command_port {tbl : Config.StatusTable} {bytes : List Byte} {i : Instr}
    (h : decode tbl .command bytes = .ok i) :
    i.port = .command := by
  cases bytes with
  | nil => cases h
  | cons op args =>
    simp only [decode] at h
    split at h
    · split at h
      · injection h with h; subst h; assumption
      · cases h
    · cases h

theorem startTransaction_effect (s : State) (e : EngineState) (d : BitVec 1) (a f : Byte) (b l : Addr)
    (hd : (e = .masterWriting ∧ d = 0) ∨ (e = .masterReading ∧ d = 1)) :
    Effect s .foreground (s.startTransaction e d a f b l) := by
  obtain ⟨-, h⟩ | ⟨-, -, h⟩ | ⟨-, -, -, h⟩ | ⟨hl, hi, he, h⟩ := s.startTransaction_cases e d a f b l <;> rw [h]
  · exact .refuse
  · exact .misuse _ _
  · exact .misuse _ _
  · exact .i2cStart e d a f b l hd hl hi he

theorem readProgress_effect (s : State) (g : ProgressTarget) (p : Addr) :
    Effect s .foreground (s.readProgress g p) := by
  obtain ⟨-, h⟩ | ⟨-, ⟨k, h⟩ | ⟨v, h⟩⟩ := s.readProgress_cases g p <;> rw [h]
  · exact .answer s.split _
  · exact .answer _ s.response
  · exact .answer _ _

/-- An operation on a unit is refused, or is an operation on the unit's context. -/
theorem onUnit_effect {s : State} {u : Byte} {f : Uart → State}
    (h : ∀ x, s.uart? u = some x → Effect s .foreground (f x)) : Effect s .foreground (s.onUnit u f) := by
  unfold State.onUnit
  split
  · exact .refuse
  · exact h _ (by assumption)

/-- What an operation of the command port can do. -/
theorem exec_effect {i : Instr} {s t : State} (hf : s.fault = none) (hp : i.port = .command)
    (h : exec i s = .next t) : Effect s .foreground t := by
  have key : ∀ f : State → State, Effect s .foreground (f s) → s.perform f = .next t → Effect s .foreground t := by
    intro f he h
    rw [State.perform_clear hf] at h
    injection h with h
    exact h ▸ he
  cases i <;> first | (cases hp; done) | refine key _ ?_ h
  · split
    · exact .refuse
    · split
      · exact .misuse _ _
      · rename_i hb; exact .i2cInit _ (by simpa using hb)
  · exact startTransaction_effect _ _ _ _ _ _ _ (.inl ⟨rfl, rfl⟩)
  · exact startTransaction_effect _ _ _ _ _ _ _ (.inr ⟨rfl, rfl⟩)
  · exact .answer s.split _
  · exact .answer s.split _
  · exact readProgress_effect _ _ _
  · refine onUnit_effect fun x hx => ?_
    split
    · exact .refuse
    · split
      · split
        · exact .misuse _ _
        · split
          · exact .uartInit _ x _ _ _ _ hx (by simp_all) (by assumption)
          · exact .refuse
      · exact .refuse
  · exact onUnit_effect fun x hx => .answer s.split _
  · refine onUnit_effect fun x hx => ?_
    split
    · exact .misuse _ _
    · split
      · exact .misuse _ _
      · split
        · exact .misuse _ _
        · exact .sendManual _ _ x hx (by simp_all)
  · refine onUnit_effect fun x hx => ?_
    split
    · exact .refuse
    · split
      · exact .misuse _ _
      · split
        · exact .misuse _ _
        · split
          · exact .misuse _ _
          · exact .sendAuto _ x _ _ _ hx (by simp_all) (by simp_all [Uart.streamActive])
  · exact onUnit_effect fun x hx => readProgress_effect _ _ _
  · exact onUnit_effect fun x hx => .answer s.split _
  · refine onUnit_effect fun x hx => ?_
    split
    · exact .misuse _ _
    · exact .fetch _ x hx

/-- What an operation the foreground issues can do. -/
theorem issue_effect {op : ForegroundOp} {rest : List ForegroundOp} {s t : State} (hf : s.fault = none)
    (hp : s.program = op :: rest) (h : s.issue op = .next t) : Effect s .foreground t := by
  cases op with
  | command words =>
    simp only [State.issue] at h
    split at h
    · rename_i i hi
      exact exec_effect hf (decode_command_port hi) h
    · rw [State.perform_clear hf] at h
      injection h with h
      exact h ▸ .refuse
  | memRead a =>
    simp only [State.issue, State.perform_clear hf, State.foregroundRead] at h
    injection h with h
    subst h
    split
    · exact .misuse _ _
    · exact .answer s.split _
  | memWrite a v =>
    simp only [State.issue, State.perform_clear hf, State.foregroundWrite] at h
    injection h with h
    subst h
    split
    · exact .misuse _ _
    · exact .memWrite a v rest hp (by simp_all)

theorem retire_eq (s t : State) (rest : List ForegroundOp) : ∃ p, s.retire rest t = { t with program := p } := by
  unfold State.retire
  split
  · exact ⟨t.program, rfl⟩
  · exact ⟨rest, rfl⟩

/-- What a step of the foreground can do. -/
theorem foregroundStep_effect {s t : State} (hf : s.fault = none) (h : s.foregroundStep = .next t) :
    ∃ t' p, Effect s .foreground t' ∧ t = { t' with program := p } := by
  unfold State.foregroundStep at h
  split at h
  · rw [State.perform_clear hf] at h
    injection h with h
    exact ⟨s, s.program, .stay _ nofun nofun, h ▸ rfl⟩
  · rename_i op rest hp
    cases ho : s.issue op with
    | next t' =>
      rw [ho] at h
      injection h with h
      obtain ⟨p, hr⟩ := retire_eq s t' rest
      exact ⟨t', p, issue_effect hf hp ho, by rw [← h, hr]⟩
    | fault r => cases r
    | refused r => rw [ho] at h; cases h

/-- What a step of a handler can do. -/
theorem handlerStep_effect {s t : State} {tn : Turn} (hf : s.fault = none)
    (htn : tn = .i2cHandler ∨ (∃ u, tn = .txHandler u) ∨ ∃ u, tn = .rxHandler u)
    (h : s.handlerStep tn = .next t) : Effect s tn t := by
  unfold State.handlerStep at h
  obtain rfl | ⟨u, rfl⟩ | ⟨u, rfl⟩ := htn
  · cases hd : s.i2cDeliverable with
    | false =>
      simp only [State.eventWords, hd, Bool.false_eq_true, if_false, State.perform_clear hf, id] at h
      injection h with h
      exact h ▸ .stay _ (fun _ => hd) nofun
    | true =>
      have hg := hd
      simp only [State.i2cDeliverable, Bool.and_eq_true, Option.isSome_iff_exists] at hg
      obtain ⟨hg, e, he⟩ := hg
      have hx : exec (.i2cEvent e.status e.data) s = .next t := by
        simp only [State.eventWords, hd, he, if_true, Option.map_some] at h
        exact h
      have hc : (s.gie && s.i2c.event == some ⟨e.status, e.data⟩) = true := by simp [hg, he]
      simp only [exec, execI2cEvent, State.perform_clear hf, if_pos hc] at hx
      injection hx with hx
      exact hx ▸ .i2cEvent e hg he
  · cases hd : s.txDeliverable u with
    | false =>
      simp only [State.eventWords, hd, Bool.false_eq_true, if_false, State.perform_clear hf, id] at h
      injection h with h
      exact h ▸ .stay _ nofun (fun v hv => by injection hv with hv; exact hv ▸ hd)
    | true =>
      have hg := hd
      simp only [State.txDeliverable, Bool.and_eq_true, Option.any_eq_true] at hg
      obtain ⟨hg, x, hx, he⟩ := hg
      have hr : exec (.uartTxEmptyEvent u) s = .next t := by
        simp only [State.eventWords, hd, if_true] at h
        exact h
      simp only [exec, execUartTxEmptyEvent, State.perform_clear hf, State.onUnit_some hx, if_pos hd] at hr
      injection hr with hr
      exact hr ▸ .txEvent u x hg hx he
  · cases hd : s.rxDeliverable u with
    | false =>
      simp only [State.eventWords, hd, Bool.false_eq_true, if_false, State.perform_clear hf, id] at h
      injection h with h
      exact h ▸ .stay _ nofun nofun
    | true =>
      have hg := hd
      simp only [State.rxDeliverable, Bool.and_eq_true, Option.any_eq_true] at hg
      obtain ⟨hg, x, hx, he⟩ := hg
      have hr : exec (.uartRxDataEvent u) s = .next t := by
        simp only [State.eventWords, hd, if_true] at h
        exact h
      simp only [exec, execUartRxDataEvent, State.perform_clear hf, State.onUnit_some hx, if_pos hd] at hr
      injection hr with hr
      exact hr ▸ .rxEvent u x hx

/-- What a step of the agent whose turn it is can do. -/
theorem turnStep_effect {s t : State} {tn : Turn} (hf : s.fault = none) (h : s.turnStep tn = .next t) :
    ∃ t' p, Effect s tn t' ∧ t = { t' with program := p } := by
  have key : ∀ f : State → State, Effect s tn (f s) → s.perform f = .next t →
      ∃ t' p, Effect s tn t' ∧ t = { t' with program := p } := by
    intro f he h
    rw [State.perform_clear hf] at h
    injection h with h
    exact ⟨t, t.program, h ▸ he, rfl⟩
  cases tn with
  | foreground => exact foregroundStep_effect hf h
  | i2cHandler => exact ⟨t, t.program, handlerStep_effect hf (.inl rfl) h, rfl⟩
  | txHandler u => exact ⟨t, t.program, handlerStep_effect hf (.inr (.inl ⟨u, rfl⟩)) h, rfl⟩
  | rxHandler u => exact ⟨t, t.program, handlerStep_effect hf (.inr (.inr ⟨u, rfl⟩)) h, rfl⟩
  | bus code b => exact key _ (.bus code b) h
  | lineLoad u => exact key _ (.lineLoad u) h
  | lineShift u => exact key _ (.lineShift u) h
  | lineReceive u b k => exact key _ (.lineReceive u b k) h
  | platform g => exact key _ (.platform g) h

/-- What a step can do while no misuse has occurred: with turns left, an effect of the first one's agent on the state
with the other turns left; with none left, an effect of the foreground. -/
theorem step_effect {s t : State} (hf : s.fault = none) (h : step s = .next t) :
    ∃ tn ts t' p, (s.turns = tn :: ts ∨ (s.turns = [] ∧ tn = .foreground ∧ ts = [])) ∧
      Effect { s with turns := ts } tn t' ∧ t = { t' with program := p } := by
  unfold step at h
  split at h
  · rename_i hs
    obtain ⟨t', p, he, ht⟩ := foregroundStep_effect hf h
    have e : { s with turns := [] } = s := by rw [← hs]
    exact ⟨.foreground, [], t', p, .inr ⟨hs, rfl, rfl⟩, e.symm ▸ he, ht⟩
  · rename_i tn ts hs
    obtain ⟨t', p, he, ht⟩ := turnStep_effect (s := { s with turns := ts }) hf h
    exact ⟨tn, ts, t', p, .inl hs, he, ht⟩

/-! ### After misuse -/

theorem exec_misused (i : Instr) {s : State} {m : Misuse} (hf : s.fault = some m) : exec i s = .next s.unspecify := by
  cases i <;> exact State.perform_misused hf _

theorem issue_misused (op : ForegroundOp) {s : State} {m : Misuse} (hf : s.fault = some m) :
    s.issue op = .next s.unspecify := by
  cases op with
  | command words =>
    simp only [State.issue]
    split
    · exact exec_misused _ hf
    · exact State.perform_misused hf _
  | memRead a => exact State.perform_misused hf _
  | memWrite a v => exact State.perform_misused hf _

/-- What a step does after misuse: every field the spec gives the state is unspecified. -/
theorem step_misused {s t : State} {m : Misuse} (hf : s.fault = some m) (h : step s = .next t) :
    ∃ p ts, t = { s.unspecify with program := p, turns := ts } := by
  have fg : ∀ (s : State), s.fault = some m → s.foregroundStep = .next t →
      ∃ p, t = { s.unspecify with program := p } := by
    intro s hf h
    unfold State.foregroundStep at h
    split at h
    · rw [State.perform_misused hf] at h
      injection h with h
      exact ⟨s.program, h ▸ rfl⟩
    · rename_i op rest hp
      rw [issue_misused op hf] at h
      injection h with h
      obtain ⟨p, hr⟩ := retire_eq s s.unspecify rest
      exact ⟨p, by rw [← h, hr]⟩
  unfold step at h
  split at h
  · obtain ⟨p, h⟩ := fg s hf h
    exact ⟨p, s.turns, h⟩
  · rename_i tn ts hs
    have hf' : ({ s with turns := ts } : State).fault = some m := hf
    have key : ∀ f, ({ s with turns := ts } : State).perform f = .next t →
        ∃ p ts, t = { s.unspecify with program := p, turns := ts } := by
      intro f h
      rw [State.perform_misused hf'] at h
      injection h with h
      exact ⟨s.program, ts, h ▸ rfl⟩
    have hd : ({ s with turns := ts } : State).handlerStep tn = .next t →
        ∃ p ts, t = { s.unspecify with program := p, turns := ts } := by
      intro h
      unfold State.handlerStep at h
      split at h
      · exact key _ h
      · split at h
        · rw [exec_misused _ hf'] at h
          injection h with h
          exact ⟨s.program, ts, h ▸ rfl⟩
        · exact key _ h
    cases tn with
    | foreground =>
      obtain ⟨p, h⟩ := fg _ hf' h
      exact ⟨p, ts, h⟩
    | i2cHandler => exact hd h
    | txHandler u => exact hd h
    | rxHandler u => exact hd h
    | bus code b => exact key _ h
    | lineLoad u => exact key _ h
    | lineShift u => exact key _ h
    | lineReceive u b k => exact key _ h
    | platform g => exact key _ h

end Sys2Proof.Machine
end

