-- ==== Sys2Proof/Tests/Slice0.lean ====
section
/-!
SUPPORT. The model's own tests: a smoke test of well-formedness with an ill-formed operation for each check, one word
written out from the tables of 30_encoding.md for each constructor, one or two steps for each operation with the result
95_test_vectors.md gives (the vector is named in the docstring), and a concrete state that meets the hypotheses of each
obligation, clause by clause.
-/

namespace Sys2Proof.Tests

open Sys2Proof Sys2Proof.Machine

/-- The status table of 30_encoding.md R101. -/
abbrev codes : Config.StatusTable := Config.defaultStatusTable

/-- Another status table, as 92_eei_decisions.md D4 lets a model take: the codes of a start and of arbitration loss
exchanged, and no code for the rest changed. -/
abbrev otherCodes : Config.StatusTable := { codes with start := 0x38, arbLost := 0x08 }

/-! ### Well-formedness: one ill-formed operation or table for each check -/

/-- R100: a code outside the bits the decoder looks at. -/
theorem smoke_refused_table_masked : statusTableWf { codes with start := 0x09 } = false := by decide

/-- R101: two phases with one code. -/
theorem smoke_refused_table_twice : statusTableWf { codes with repStart := 0x08 } = false := by decide

/-- V-ENC-11: bit 7 of the address is set. -/
theorem smoke_refused_startWrite_address : Instr.wf codes (.i2cStartWrite 0x80 0x00 0x0100 1) = false := by decide

/-- V-ENC-12: a reserved bit of `flags` is set. -/
theorem smoke_refused_startWrite_flags : Instr.wf codes (.i2cStartWrite 0x50 0x04 0x0100 1) = false := by decide

/-- V-MEM-2: the span ends at 2^16. -/
theorem smoke_refused_startWrite_span : Instr.wf codes (.i2cStartWrite 0x50 0x00 0xFFFF 1) = false := by decide

/-- R95. -/
theorem smoke_refused_startRead_address : Instr.wf codes (.i2cStartRead 0x80 0x00 0x0100 1) = false := by decide

/-- R94. -/
theorem smoke_refused_startRead_flags : Instr.wf codes (.i2cStartRead 0x50 0x80 0x0100 1) = false := by decide

/-- R97. -/
theorem smoke_refused_startRead_span : Instr.wf codes (.i2cStartRead 0x50 0x00 0x8000 0x8000) = false := by decide

/-- V-MEM-2. -/
theorem smoke_refused_sendAuto_span : Instr.wf codes (.uartSendAuto 0 0x8000 0x8000) = false := by decide

/-- R91: the clock is at least 1. -/
theorem smoke_refused_i2cInit_clock : Instr.wf codes (.i2cInit 0 100000) = false := by decide

/-- R91: the rate is at least 1. -/
theorem smoke_refused_i2cInit_rate : Instr.wf codes (.i2cInit 16000000 0) = false := by decide

/-- R91. -/
theorem smoke_refused_uartInit_clock : Instr.wf codes (.uartInit 0 0 9600 0x18) = false := by decide

/-- R91. -/
theorem smoke_refused_uartInit_baud : Instr.wf codes (.uartInit 0 16000000 0 0x18) = false := by decide

/-- V-ENC-15: receive `Auto` is reserved. -/
theorem smoke_refused_uartInit_rxAuto : Instr.wf codes (.uartInit 0 16000000 9600 0x20) = false := by decide

/-- V-ENC-15. -/
theorem smoke_refused_uartInit_rxThree : Instr.wf codes (.uartInit 0 16000000 9600 0x30) = false := by decide

/-- V-ENC-15. -/
theorem smoke_refused_uartInit_txThree : Instr.wf codes (.uartInit 0 16000000 9600 0x0C) = false := by decide

/-- V-ENC-15. -/
theorem smoke_refused_uartInit_bitSix : Instr.wf codes (.uartInit 0 16000000 9600 0x40) = false := by decide

/-- R102: 0x0F has the code of STATUS_START. -/
theorem smoke_refused_statusOther_named : Instr.wf codes (.statusOther 0x0F) = false := by decide

/-- V-MEM-1, V-MEM-2b, V-ENC-13, V-ENC-8. -/
theorem smoke_accepted :
    Instr.wf codes (.i2cStartWrite 0x7F 0x03 0xFFFE 1) = true ∧ Instr.wf codes (.i2cStartRead 0x00 0x00 0xFFFF 0) = true ∧
    Instr.wf codes (.uartInit 0 16000000 9600 0x18) = true ∧ Instr.wf codes (.statusOther 0x60) = true := by decide

/-! ### Decoding: a word written out from the tables of 30_encoding.md R90, R91 and R101 for each constructor -/

/-- `0x10` with `cpuClockHz 0x00F42400`, `bitRate 0x000186A0` (P1, operation 1). -/
theorem test_decode_i2cInit :
    decode codes .command [0x10, 0x00, 0x24, 0xF4, 0x00, 0xA0, 0x86, 0x01, 0x00] = .ok (.i2cInit 16000000 100000) := rfl

/-- `0x11` with `address 0x50, flags 0x00, buffer 0x0100, length 0x0002` (P1, operation 2). -/
theorem test_decode_i2cStartWrite :
    decode codes .command [0x11, 0x50, 0x00, 0x00, 0x01, 0x02, 0x00] = .ok (.i2cStartWrite 0x50 0x00 0x0100 2) := rfl

/-- `0x12` with the operands of V-I2C-F2. -/
theorem test_decode_i2cStartRead :
    decode codes .command [0x12, 0x68, 0x01, 0x00, 0x02, 0x03, 0x00] = .ok (.i2cStartRead 0x68 0x01 0x0200 3) := rfl

/-- `0x13`. -/
theorem test_decode_i2cGetState : decode codes .command [0x13] = .ok .i2cGetState := rfl

/-- `0x14`. -/
theorem test_decode_i2cGetStatus : decode codes .command [0x14] = .ok .i2cGetStatus := rfl

/-- `0x15`. -/
theorem test_decode_i2cGetProgress : decode codes .command [0x15] = .ok .i2cGetProgress := rfl

/-- `0x20` with `unit 0, cpuClockHz 0x00F42400, baud 0x00002580, config 0x18` (P3, operation 1). -/
theorem test_decode_uartInit :
    decode codes .command [0x20, 0x00, 0x00, 0x24, 0xF4, 0x00, 0x80, 0x25, 0x00, 0x00, 0x18] = .ok (.uartInit 0 16000000 9600 0x18) :=
  rfl

/-- `0x21` with `unit 2`. -/
theorem test_decode_uartSendReady : decode codes .command [0x21, 0x02] = .ok (.uartSendReady 2) := rfl

/-- `0x22` with `unit 1, byte 0x5A`. -/
theorem test_decode_uartSendManual : decode codes .command [0x22, 0x01, 0x5A] = .ok (.uartSendManual 1 0x5A) := rfl

/-- `0x23` with `unit 0, buffer 0x0300, length 0x001A` (P3, operation 2). -/
theorem test_decode_uartSendAuto :
    decode codes .command [0x23, 0x00, 0x00, 0x03, 0x1A, 0x00] = .ok (.uartSendAuto 0 0x0300 26) := rfl

/-- `0x24` with `unit 3`. -/
theorem test_decode_uartSendAutoProgress : decode codes .command [0x24, 0x03] = .ok (.uartSendAutoProgress 3) := rfl

/-- `0x25` with `unit 1`. -/
theorem test_decode_uartReceiveReady : decode codes .command [0x25, 0x01] = .ok (.uartReceiveReady 1) := rfl

/-- `0x26` with `unit 1`. -/
theorem test_decode_uartReceiveFetch : decode codes .command [0x26, 0x01] = .ok (.uartReceiveFetch 1) := rfl

/-- `0x80` with `status 0x1B, data 0x22`. -/
theorem test_decode_i2cEvent : decode codes .event [0x80, 0x1B, 0x22] = .ok (.i2cEvent 0x1B 0x22) := rfl

/-- `0x90` with `unit 1`. -/
theorem test_decode_uartTxEmptyEvent : decode codes .event [0x90, 0x01] = .ok (.uartTxEmptyEvent 1) := rfl

/-- `0x91` with `unit 1`. -/
theorem test_decode_uartRxDataEvent : decode codes .event [0x91, 0x01] = .ok (.uartRxDataEvent 1) := rfl

/-- Status `00001 011`. -/
theorem test_decode_statusStart : decode codes .status [0x0B] = .ok (.statusStart 3) := rfl

/-- Status `00010 000`. -/
theorem test_decode_statusRepStart : decode codes .status [0x10] = .ok (.statusRepStart 0) := rfl

/-- Status `00011 111`. -/
theorem test_decode_statusSlaWAck : decode codes .status [0x1F] = .ok (.statusSlaWAck 7) := rfl

/-- Status `00100 000`. -/
theorem test_decode_statusSlaWNack : decode codes .status [0x20] = .ok (.statusSlaWNack 0) := rfl

/-- Status `00101 001`. -/
theorem test_decode_statusDataWAck : decode codes .status [0x29] = .ok (.statusDataWAck 1) := rfl

/-- Status `00110 010`. -/
theorem test_decode_statusDataWNack : decode codes .status [0x32] = .ok (.statusDataWNack 2) := rfl

/-- Status `00111 100`. -/
theorem test_decode_statusArbLost : decode codes .status [0x3C] = .ok (.statusArbLost 4) := rfl

/-- Status `01000 101`. -/
theorem test_decode_statusSlaRAck : decode codes .status [0x45] = .ok (.statusSlaRAck 5) := rfl

/-- Status `01001 110`. -/
theorem test_decode_statusSlaRNack : decode codes .status [0x4E] = .ok (.statusSlaRNack 6) := rfl

/-- Status `01010 000`. -/
theorem test_decode_statusDataRAck : decode codes .status [0x50] = .ok (.statusDataRAck 0) := rfl

/-- Status `01011 111`. -/
theorem test_decode_statusDataRNack : decode codes .status [0x5F] = .ok (.statusDataRNack 7) := rfl

/-- Status `00000 001`. -/
theorem test_decode_statusBusError : decode codes .status [0x01] = .ok (.statusBusError 1) := rfl

/-- Status `11111 111`. -/
theorem test_decode_statusNoInfo : decode codes .status [0xFF] = .ok (.statusNoInfo 7) := rfl

/-- V-ENC-8: a slave-mode code is no named row. -/
theorem test_decode_statusOther : decode codes .status [0x60] = .ok (.statusOther 0x60) := rfl

/-- V-ENC-16. -/
theorem test_decode_unknown_words :
    decode codes .command [0x16] = .error (.unknownCommand 0x16) ∧ decode codes .command [0x27] = .error (.unknownCommand 0x27) ∧
    decode codes .command [0x00] = .error (.unknownCommand 0x00) ∧ decode codes .command [0xFF] = .error (.unknownCommand 0xFF) :=
  ⟨rfl, rfl, rfl, rfl⟩

/-- R107 and R90: a record of another length, and a word on the wrong port. -/
theorem test_decode_length_and_port :
    decode codes .command [0x13, 0x00] = .error (.wrongLength 0x13) ∧ decode codes .command [0x80, 0x08, 0x00] = .error (.wrongPort 0x80) ∧
    decode codes .event [0x13] = .error (.wrongPort 0x13) ∧ decode codes .command [] = .error .empty := ⟨rfl, rfl, rfl, rfl⟩

/-- The opcode table numbers the bits from the first byte. -/
theorem test_decodeTableWord :
    decodeTableWord 8 0x13 = some .i2cGetState ∧ decodeTableWord 16 0x0280 = some (.i2cEvent 0x02 0x00) ∧
    decodeTableWord 8 0x42 = some (.statusSlaRAck 2) ∧ decodeTableWord 8 0x60 = some (.statusOther 0x60) :=
  ⟨rfl, rfl, rfl, rfl⟩

/-- V-ENC-2, V-ENC-3, V-ENC-4, V-ENC-6, V-ENC-7, V-ENC-8. -/
theorem test_decoder_vectors :
    decodeStatusAction codes 0x0B = .a1 ∧ decodeStatusAction codes 0x29 = .a2 ∧ decodeStatusAction codes 0x30 = .a3 ∧
    decodeStatusAction codes 0x5F = .a7 ∧ decodeStatusAction codes 0x38 = .a8 ∧ decodeStatusAction codes 0xA8 = .a8 := by decide

/-- D4: with another table the decoder follows that table's codes. -/
theorem test_decoder_other_table :
    decodeStatusAction otherCodes 0x3B = .a1 ∧ decodeStatusAction otherCodes 0x08 = .a8 ∧
    decode otherCodes .status [0x3B] = .ok (.statusStart 3) ∧ encode otherCodes (.statusStart 3) = [0x3B] := by
  exact ⟨rfl, rfl, rfl, rfl⟩

/-- V-ENC-9, V-ENC-10. -/
theorem test_sla : slaOf 0x50 0 = 0xA0 ∧ slaOf 0x50 1 = 0xA1 ∧ slaOf 0x7F 1 = 0xFF ∧ slaOf 0x00 0 = 0x00 := by decide

/-- V-ENC-13, V-ENC-14. -/
theorem test_config_fields :
    configStopBits 0x07 = .two ∧ configDoubleSpeed 0x07 = true ∧ configTxMode 0x07 = some .manual ∧
    configRxMode 0x07 = some .disabled ∧ configTxMode 0x18 = some .auto ∧ configRxMode 0x18 = some .manual := by decide

/-- V-UART-D1, D2, D4, D6, D9, D12. -/
theorem test_divisor :
    baudDivisor 16000000 9600 false = some 103 ∧ baudDivisor 16000000 9600 true = some 207 ∧
    baudDivisor 16000000 115200 true = some 16 ∧ baudDivisor 1000000 62500 false = some 0 ∧
    baudDivisor 16000000 2000000 false = none ∧ baudDivisor 16000000 245 false = some 4080 := by decide

/-- V-UART-D13, D14: the largest divisor, and the first that is refused. -/
theorem test_divisor_limits : baudDivisor 65536 1 false = some 4095 ∧ baudDivisor 65552 1 false = none := by decide

/-! ### States the tests start from -/

/-- What the next state of an outcome shows; none when there is no next state. -/
def after {α : Type} (r : Host.Outcome State Fault Refusal) (f : State → α) : Option α :=
  match r with
  | .next t => some (f t)
  | .fault _ => none
  | .refused _ => none

/-- An enabled I2C engine in `state` with `flags` and the span `[start, limit)` at `cursor`, and memory `m`. -/
def i2cIn (state : EngineState) (flags : Byte) (cursor limit : Addr) (m : Memory := []) : State :=
  { State.reset with
    i2c := { I2c.reset with state := state, flags := flags, sla := 0xA0, buf := ⟨0x0100, cursor, limit⟩, enabled := true }
    mem := m
    gie := true }

/-- The same with another I2C context. -/
def withContext (s : State) (f : I2c → I2c) : State := { s with i2c := f s.i2c }

/-- A machine whose one UART unit is `f` of the unit after reset. -/
def unitIs (f : Uart → Uart) (m : Memory := []) : State :=
  { State.reset with uarts := [f (Uart.reset 0)], mem := m, gie := true }

/-- Unit 0 in transmit `Auto` mode with a stream over `[0x0300, limit)` at `cursor`. -/
def streaming (cursor limit : Addr) (x : Uart) : Uart :=
  { x with txMode := .auto, txEn := true, txIe := true, txBuf := ⟨0x0300, cursor, limit⟩ }

/-- The machine with one operation to issue and one turn to take. -/
def issuing (s : State) (op : ForegroundOp) : State := { s with program := [op], turns := [.foreground] }

/-! ### Steps of the I2C foreground -/

/-- P1, operation 1. -/
theorem test_i2cInit :
    after (exec (.i2cInit 16000000 100000) State.reset) (fun t => (t.i2c.enabled, t.i2c.state, t.fault, t.refused)) =
      some (true, .idle, none, false) := by decide

/-- V-I2C-F5. -/
theorem test_i2cInit_held_bus :
    after (exec (.i2cInit 16000000 100000) (withContext (i2cIn .idle 0 0 0) fun c => { c with busOwned := true }))
      (fun t => t.fault) = some (some .initWhileBusy) := by decide

/-- V-I2C-F1. -/
theorem test_i2cStartWrite :
    after (exec (.i2cStartWrite 0x50 0x00 0x0100 2) (i2cIn .idle 0 0 0))
      (fun t => (t.i2c.state, t.i2c.sla, t.i2c.buf, t.i2c.cmd, t.i2c.lastStatus)) =
      some (.masterWriting, 0xA0, ⟨0x0100, 0x0100, 0x0102⟩, some .start, 0) := by decide

/-- V-I2C-F4. -/
theorem test_i2cStartWrite_uninitialised :
    after (exec (.i2cStartWrite 0x50 0x00 0x0100 1) State.reset) (fun t => t.fault) = some (some .notInitialised) :=
  by decide

/-- V-I2C-F2. -/
theorem test_i2cStartRead :
    after (exec (.i2cStartRead 0x68 0x01 0x0200 3) (i2cIn .idle 0 0 0))
      (fun t => (t.i2c.state, t.i2c.sla, t.i2c.flags, t.i2c.buf.limit, t.i2c.cmd)) =
      some (.masterReading, 0xD1, 0x01, 0x0203, some .start) := by decide

/-- V-I2C-F3. -/
theorem test_i2cStartRead_busy :
    after (exec (.i2cStartRead 0x68 0x00 0x0200 1) (i2cIn .masterWriting 0 0 0)) (fun t => t.fault) =
      some (some .startWhileBusy) := by decide

/-- V-I2C-F7. -/
theorem test_i2cGetState :
    after (exec .i2cGetState (i2cIn .masterWriting 0 0x0100 0x0102)) (fun t => t.response) =
      some (some (.engineState 1)) := by decide

/-- V-I2C-F8. -/
theorem test_i2cGetStatus :
    after (exec .i2cGetStatus (withContext State.reset fun c => { c with lastStatus := 0x29 })) (fun t => t.response) =
      some (some (.status 0x29)) := by decide

/-- V-MEM-3, byte step 1: the low byte of 0x0100. -/
theorem test_i2cGetProgress_first_byte :
    after (exec .i2cGetProgress (i2cIn .masterWriting 0 0x1000 0x1100)) (fun t => (t.split, t.response)) =
      some (some ⟨.i2c, 0x00⟩, none) := by decide

/-- V-MEM-3, byte step 2: 0x0000 is returned while 255 bytes remain. -/
theorem test_i2cGetProgress_second_byte :
    after (exec .i2cGetProgress { i2cIn .masterWriting 0 0x1001 0x1100 with split := some ⟨.i2c, 0x00⟩ })
      (fun t => (t.split, t.response)) = some (none, some (.progress 0x0000)) := by decide

/-! ### Steps of the I2C handler -/

/-- V-I2C-E19 and V-I2C-E2: raw 0x1B is decoded as 0x18 and recorded whole. -/
theorem test_i2cEvent :
    after (exec (.i2cEvent 0x1B 0xA0) (withContext (i2cIn .masterWriting 0 0x0100 0x0102 [(0x0100, 0xA5)])
        fun c => { c with event := some ⟨0x1B, 0xA0⟩ }))
      (fun t => (t.i2c.event, t.i2c.lastStatus, t.i2c.dr, t.i2c.cmd)) = some (none, 0x1B, 0xA5, some .send) := by decide

/-- V-I2C-E1. -/
theorem test_statusStart :
    after (exec (.statusStart 0) (i2cIn .masterWriting 0 0x0100 0x0102)) (fun t => (t.i2c.dr, t.i2c.cmd)) =
      some (0xA0, some .send) := by decide

/-- P4, step 7. -/
theorem test_statusRepStart :
    after (exec (.statusRepStart 0) (i2cIn .masterWriting 0 0x0100 0x0102)) (fun t => (t.i2c.dr, t.i2c.cmd)) =
      some (0xA0, some .send) := by decide

/-- V-I2C-E2. -/
theorem test_statusSlaWAck :
    after (exec (.statusSlaWAck 0) (i2cIn .masterWriting 0 0x0100 0x0102 [(0x0100, 0xA5)]))
      (fun t => (t.i2c.dr, t.i2c.buf.cursor, t.i2c.cmd)) = some (0xA5, 0x0101, some .send) := by decide

/-- V-I2C-E3. -/
theorem test_statusSlaWAck_empty :
    after (exec (.statusSlaWAck 0) (withContext (i2cIn .masterWriting 0 0x0100 0x0100) fun c => { c with busOwned := true }))
      (fun t => (t.i2c.state, t.i2c.cmd, t.i2c.busOwned, t.i2c.trace)) = some (.idle, none, false, [.stop]) := by decide

/-- V-I2C-E4: the bus is held. -/
theorem test_statusDataWAck :
    after (exec (.statusDataWAck 0) (withContext (i2cIn .masterWriting 0x01 0x0102 0x0102) fun c => { c with busOwned := true }))
      (fun t => (t.i2c.state, t.i2c.cmd, t.i2c.busOwned, t.i2c.trace)) = some (.idle, none, true, []) := by decide

/-- P1, step 8. -/
theorem test_statusDataWAck_more :
    after (exec (.statusDataWAck 1) (i2cIn .masterWriting 0 0x0101 0x0102 [(0x0101, 0x3C)]))
      (fun t => (t.i2c.dr, t.i2c.buf.cursor)) = some (0x3C, 0x0102) := by decide

/-- V-I2C-E5. -/
theorem test_statusSlaWNack :
    after (exec (.statusSlaWNack 0) (withContext (i2cIn .masterWriting 0x01 0x0100 0x0102) fun c => { c with busOwned := true }))
      (fun t => (t.i2c.state, t.i2c.busOwned, t.i2c.buf.progress)) = some (.idle, true, 2) := by decide

/-- V-I2C-E6. -/
theorem test_statusDataWNack :
    after (exec (.statusDataWNack 0) (withContext (i2cIn .masterWriting 0 0x0102 0x0102) fun c => { c with busOwned := true }))
      (fun t => (t.i2c.state, t.i2c.busOwned, t.i2c.trace, t.i2c.buf.progress)) = some (.idle, false, [.stop], 0) :=
  by decide

/-- V-I2C-E15: no retry. -/
theorem test_statusArbLost :
    after (exec (.statusArbLost 0) (i2cIn .masterWriting 0x03 0x0100 0x0104))
      (fun t => (t.i2c.state, t.i2c.cmd, t.i2c.busOwned, t.i2c.buf.progress)) = some (.idle, none, false, 4) :=
  by decide

/-- V-I2C-E7. -/
theorem test_statusSlaRAck_last :
    after (exec (.statusSlaRAck 0) (i2cIn .masterReading 0 0x0200 0x0201)) (fun t => t.i2c.cmd) =
      some (some .recvNack) := by decide

/-- V-I2C-E9. -/
theorem test_statusSlaRAck_more :
    after (exec (.statusSlaRAck 0) (i2cIn .masterReading 0 0x0200 0x0205)) (fun t => t.i2c.cmd) =
      some (some .recvAck) := by decide

/-- V-I2C-E10: STOP and not HOLD. -/
theorem test_statusSlaRNack :
    after (exec (.statusSlaRNack 0) (withContext (i2cIn .masterReading 0x01 0x0200 0x0203) fun c => { c with busOwned := true }))
      (fun t => (t.i2c.state, t.i2c.busOwned, t.i2c.trace, t.i2c.buf.progress)) = some (.idle, false, [.stop], 3) :=
  by decide

/-- V-I2C-E11. -/
theorem test_statusDataRAck :
    after (exec (.statusDataRAck 0) (withContext (i2cIn .masterReading 0 0x0201 0x0203) fun c => { c with dr := 0x22 }))
      (fun t => (t.mem, t.i2c.buf.cursor, t.i2c.cmd)) = some ([(0x0201, 0x22)], 0x0202, some .recvNack) := by decide

/-- V-I2C-E12: no room, no write. -/
theorem test_statusDataRAck_full :
    after (exec (.statusDataRAck 0) (withContext (i2cIn .masterReading 0 0x0203 0x0203) fun c => { c with dr := 0x99 }))
      (fun t => (t.mem, t.i2c.state, t.i2c.cmd)) = some ([], .idle, none) := by decide

/-- V-I2C-E13. -/
theorem test_statusDataRNack :
    after (exec (.statusDataRNack 0) (withContext (i2cIn .masterReading 0x01 0x0202 0x0203)
        fun c => { c with dr := 0x33, busOwned := true }))
      (fun t => (t.mem, t.i2c.buf.cursor, t.i2c.state, t.i2c.busOwned)) = some ([(0x0202, 0x33)], 0x0203, .idle, true) :=
  by decide

/-- V-I2C-E14. -/
theorem test_statusDataRNack_full :
    after (exec (.statusDataRNack 0) (withContext (i2cIn .masterReading 0 0x0203 0x0203) fun c => { c with dr := 0x33 }))
      (fun t => (t.mem, t.i2c.state)) = some ([], .idle) := by decide

/-- R151. -/
theorem test_statusBusError :
    after (exec (.statusBusError 0) (i2cIn .masterReading 0x01 0x0200 0x0203)) (fun t => (t.i2c.state, t.i2c.buf.progress)) =
      some (.idle, 3) := by decide

/-- P5, step 6: A8 ignores `HoldBus`. -/
theorem test_statusNoInfo :
    after (exec (.statusNoInfo 0) (withContext (i2cIn .masterWriting 0x01 0x0101 0x0103) fun c => { c with busOwned := true }))
      (fun t => (t.i2c.state, t.i2c.busOwned, t.i2c.trace, t.i2c.buf.progress)) = some (.idle, false, [.stop], 2) :=
  by decide

/-- V-ENC-8. -/
theorem test_statusOther :
    after (exec (.statusOther 0x60) (i2cIn .masterWriting 0 0x0100 0x0103)) (fun t => (t.i2c.state, t.i2c.buf.progress)) =
      some (.idle, 3) := by decide

/-! ### Steps of the UART -/

/-- V-UART-F1. -/
theorem test_uartInit :
    after (exec (.uartInit 0 16000000 9600 0x18) State.reset)
      (fun t => t.uarts.map fun x => (x.divisor, x.txEn, x.txIe, x.rxEn, x.rxIe)) =
      some [(103, true, true, true, false)] := by decide

/-- V-UART-F14. -/
theorem test_uartInit_streaming :
    after (exec (.uartInit 0 16000000 9600 0x18) (unitIs (streaming 0x0300 0x0304))) (fun t => t.fault) =
      some (some .initWhileBusy) := by decide

/-- V-UART-F3. -/
theorem test_uartSendReady :
    after (exec (.uartSendReady 0) State.reset) (fun t => t.response) = some (some (.ready true)) := by decide

/-- V-ENC-17. -/
theorem test_uartSendReady_no_unit :
    after (exec (.uartSendReady 1) State.reset) (fun t => (t.refused, t.response)) = some (true, none) := by decide

/-- V-UART-F9. -/
theorem test_uartSendManual :
    after (exec (.uartSendManual 0 0x41) (unitIs fun x => { x with txMode := .manual, txEn := true }))
      (fun t => t.uarts.map Uart.txData) = some [some 0x41] := by decide

/-- V-UART-F10. -/
theorem test_uartSendManual_overrun :
    after (exec (.uartSendManual 0 0x42) (unitIs fun x => { x with txMode := .manual, txEn := true, txData := some 0x41 }))
      (fun t => t.fault) = some (some .overrun) := by decide

/-- V-UART-F4. -/
theorem test_uartSendAuto :
    after (exec (.uartSendAuto 0 0x0300 26) (unitIs (streaming 0 0) [(0x0300, 0x41)]))
      (fun t => t.uarts.map fun x => (x.txBuf, x.txData, x.txBuf.progress)) =
      some [(⟨0x0300, 0x0300, 0x031A⟩, some 0x41, 26)] := by decide

/-- V-UART-F8. -/
theorem test_uartSendAuto_empty :
    after (exec (.uartSendAuto 0 0x0300 0) (unitIs (streaming 0 0) [(0x0300, 0x41)]))
      (fun t => t.uarts.map fun x => (x.txBuf, x.txData, x.txEvt)) =
      some [(⟨0x0300, 0x0300, 0x0300⟩, none, false)] := by decide

/-- V-UART-F5, the first byte. -/
theorem test_uartSendAutoProgress :
    after (exec (.uartSendAutoProgress 0) (unitIs (streaming 0x0300 0x0400))) (fun t => t.split) =
      some (some ⟨.uart 0, 0x00⟩) := by decide

/-- V-UART-F5, the second byte: 0x0000 while 0x00FF bytes remain. -/
theorem test_uartSendAutoProgress_second_byte :
    after (exec (.uartSendAutoProgress 0) { unitIs (streaming 0x0301 0x0400) with split := some ⟨.uart 0, 0x00⟩ })
      (fun t => t.response) = some (some (.progress 0)) := by decide

/-- P6, operation 4. -/
theorem test_uartReceiveReady :
    after (exec (.uartReceiveReady 0) (unitIs fun x => { x with rxMode := .manual, rxFull := true })) (fun t => t.response) =
      some (some (.ready true)) := by decide

/-- R196: with the receiver `Disabled` the call returns 0. -/
theorem test_uartReceiveReady_disabled :
    after (exec (.uartReceiveReady 0) (unitIs fun x => { x with rxFull := true })) (fun t => t.response) =
      some (some (.ready false)) := by decide

/-- V-UART-F12, which says nothing of the receive mode: here `Disabled`. -/
theorem test_uartReceiveFetch :
    after (exec (.uartReceiveFetch 0) (unitIs fun x => { x with rxFull := true, rxData := 0x5A }))
      (fun t => (t.response, t.uarts.map Uart.rxFull)) = some (some (.data 0x5A), [false]) := by decide

/-- V-UART-F13. -/
theorem test_uartReceiveFetch_none :
    after (exec (.uartReceiveFetch 0) State.reset) (fun t => t.fault) = some (some .noData) := by decide

/-- V-UART-E4. -/
theorem test_uartTxEmptyEvent :
    after (exec (.uartTxEmptyEvent 0)
        (unitIs (fun x => { streaming 0x0318 0x031A x with txEvt := true }) [(0x0319, 0x5A)]))
      (fun t => t.uarts.map fun x => (x.txEvt, x.txBuf.cursor, x.txData)) = some [(false, 0x0319, some 0x5A)] :=
  by decide

/-- V-UART-E5. -/
theorem test_uartTxEmptyEvent_last :
    after (exec (.uartTxEmptyEvent 0) (unitIs fun x => { streaming 0x0319 0x031A x with txEvt := true }))
      (fun t => t.uarts.map fun x => (x.txBuf.cursor, x.txData)) = some [(0x031A, none)] := by decide

/-- R232. -/
theorem test_uartRxDataEvent :
    after (exec (.uartRxDataEvent 0) (unitIs fun x => { x with rxEvt := true, rxFull := true }))
      (fun t => t.uarts.map fun x => (x.rxEvt, x.rxFull)) = some [(false, true)] := by decide

/-! ### Steps of the other agents -/

/-- V-UART-E1. -/
theorem test_line_load :
    after (step { unitIs (fun x => { streaming 0x0300 0x0302 x with txData := some 0x41 }) with turns := [.lineLoad 0] })
      (fun t => t.uarts.map fun x => (x.txShift, x.txData, x.txEvt)) = some [(some 0x41, none, true)] := by decide

/-- V-UART-E3. -/
theorem test_line_shift :
    after (step { unitIs (fun x => { x with txShift := some 0x41 }) with turns := [.lineShift 0] })
      (fun t => t.uarts.map fun x => (x.lineOut, x.txShift)) = some [([0x41], none)] := by decide

/-- V-UART-E7. -/
theorem test_line_receive :
    after (step { unitIs (fun x => { x with rxEn := true }) with turns := [.lineReceive 0 0x5A true] })
      (fun t => t.uarts.map fun x => (x.rxData, x.rxFull, x.rxEvt)) = some [(0x5A, true, false)] := by decide

/-- P1, step 3. -/
theorem test_bus_start :
    after (step { withContext (i2cIn .masterWriting 0 0x0100 0x0102) (fun c => { c with cmd := some .start })
        with turns := [.bus 0x08 0] })
      (fun t => (t.i2c.event, t.i2c.cmd, t.i2c.busOwned, t.i2c.trace)) =
      some (some ⟨0x08, 0⟩, none, true, [.start]) := by decide

/-- D4: with another table the bus answers START with that table's code. -/
theorem test_bus_start_other_table :
    after (step { withContext (i2cIn .masterWriting 0 0x0100 0x0102) (fun c => { c with cmd := some .start })
        with turns := [.bus 0x38 0], params := { Config.defaultParams with statusTable := otherCodes } })
      (fun t => (t.i2c.event, t.i2c.busOwned, t.i2c.trace)) = some (some ⟨0x38, 0⟩, true, [.start]) := by decide

/-- R157: a bus that is not held to the table answers SEND with the code of a start; the data register is drawn. -/
theorem test_bus_other_code :
    after (step { withContext (i2cIn .masterWriting 0 0x0100 0x0102) (fun c => { c with cmd := some .send })
        with turns := [.bus 0x08 0x77] })
      (fun t => (t.i2c.event, t.i2c.dr, t.i2c.trace)) = some (some ⟨0x08, 0x77⟩, 0x77, [.other 0x08]) := by decide

/-- V-EXC-1. -/
theorem test_no_delivery :
    after (step { withContext (i2cIn .masterWriting 0 0x0100 0x0102) (fun c => { c with event := some ⟨0x08, 0⟩ })
        with turns := [.i2cHandler], gie := false })
      (fun t => t.i2c.event) = some (some ⟨0x08, 0⟩) := by decide

/-- V-MEM-5. -/
theorem test_foreground_owned :
    after (step (issuing (i2cIn .masterReading 0 0x0100 0x0103) (.memRead 0x0100))) (fun t => t.fault) =
      some (some .bufferInUse) := by decide

/-- V-RST-2: I2C_GET_STATE returns 0 after reset; and an I2C event placed there is handled. -/
theorem test_step_runs_placed_word :
    after (step (State.reset.withFetchWord 8 0x13)) (fun t => t.response) = some (some (.engineState 0)) ∧
    after (step (State.reset.withFetchWord 16 0x4080)) (fun t => t.i2c.lastStatus) = some 0x40 := by decide

/-- The memory after reset is in canonical form. -/
theorem test_reset_memory : Memory.wf State.reset.mem = true := by decide

/-! ### Witnesses: concrete states and operands that meet the hypotheses of the obligations -/

theorem witness_DecodeOfEncodeIsIdentity :
    statusTableWf codes = true ∧ statusTableWf otherCodes = true ∧
    Instr.wf codes (.i2cStartWrite 0x7F 0x03 0xFFFF 0) = true ∧ Instr.wf codes (.uartInit 255 1 1 0x1B) = true ∧
    Instr.wf otherCodes (.statusOther 0xF7) = true := by decide

theorem witness_DecodableBytesAreTheEncoding :
    decode codes .status [0xFF] = .ok (.statusNoInfo 7) ∧ decode codes .command [0x21, 0xFF] = .ok (.uartSendReady 255) ∧
    decode codes .event [0x91, 0x00] = .ok (.uartRxDataEvent 0) := ⟨rfl, rfl, rfl⟩

/-- Status values of the lowest and the highest code and of one between, each of which one phase alone has. -/
theorem witness_StatusDecoderIsTheTable :
    (∀ q, codes.code q = (0x07 : Byte) &&& 0xF8 ↔ q = .busError) ∧
    (∀ q, codes.code q = (0xFF : Byte) &&& 0xF8 ↔ q = .noInfo) ∧
    (∀ q, otherCodes.code q = (0x3F : Byte) &&& 0xF8 ↔ q = .start) := by
  refine ⟨?_, ?_, ?_⟩ <;> intro q <;> cases q <;> decide

/-- Values no phase has, next to the named ones. -/
theorem witness_StatusDecoderIsTheTable_other :
    ∀ q, codes.code q ≠ (0x60 : Byte) &&& 0xF8 ∧ codes.code q ≠ (0xF7 : Byte) &&& 0xF8 := by
  intro q
  cases q <;> decide

/-- Both clauses: the foreground has the turn, or no turn is left. -/
theorem witness_StepRunsTheForegroundsCommand :
    (issuing State.reset (.command [0x13])).program = .command [0x13] :: [] ∧
    decode codes .command [0x13] = .ok .i2cGetState ∧ (issuing State.reset (.command [0x13])).turns = .foreground :: [] ∧
    ({ State.reset with program := [.command [0x13]] } : State).turns = [] := ⟨rfl, rfl, rfl, rfl⟩

/-- Nothing is being read; and a split read has just begun. -/
theorem witness_ForegroundMovesPastAnOperation :
    (State.reset.split = none) ∧
    ({ State.reset with split := some ⟨.i2c, 1⟩ } : State).split = some ⟨.i2c, 1⟩ ∧ State.reset.split ≠ some ⟨.i2c, 1⟩ :=
  by decide

/-- One state for each handler. -/
theorem witness_StepRunsTheDeliveredEvent :
    let s := fun t => { withContext (unitIs fun x => { x with txEvt := true, rxEvt := true })
        (fun c => { c with event := some ⟨0x08, 0⟩ }) with turns := [t] }
    (s .i2cHandler).gie = true ∧ (s .i2cHandler).turns = [.i2cHandler] ∧ (s .i2cHandler).i2c.event = some ⟨0x08, 0⟩ ∧
    (s (.txHandler 0)).turns = [.txHandler 0] ∧ (s (.rxHandler 0)).turns = [.rxHandler 0] ∧
    ∃ x, (s (.txHandler 0)).uart? 0 = some x ∧ x.txEvt = true ∧ x.rxEvt = true :=
  ⟨rfl, rfl, rfl, rfl, rfl, _, rfl, rfl, rfl⟩

/-- `gie` clear; and `gie` set with nothing pending. -/
theorem witness_NoHandlerStepWithoutDelivery :
    let s := fun t g => { unitIs id with turns := [t], gie := g }
    (s .i2cHandler true).fault = none ∧ (s .i2cHandler true).turns = [.i2cHandler] ∧
    (s .i2cHandler true).i2c.event = none ∧ (s .i2cHandler false).gie = false ∧
    (s (.txHandler 0) false).turns = [.txHandler 0] ∧ (s (.rxHandler 0) false).turns = [.rxHandler 0] ∧
    ∃ x, (s (.txHandler 0) true).uart? 0 = some x ∧ x.txEvt = false ∧ x.rxEvt = false :=
  ⟨rfl, rfl, rfl, rfl, rfl, rfl, _, rfl, rfl, rfl⟩

/-- An event word from the foreground, and a record of another length with no turn left. -/
theorem witness_UndecodableCommandIsRefused :
    let s := issuing State.reset (.command [0x90, 0])
    let s' : State := { State.reset with program := [.command [0x13, 0]] }
    s.fault = none ∧ s.split = none ∧ s.program = [.command [0x90, 0]] ∧ s.turns = [.foreground] ∧
    decode s.params.statusTable .command [0x90, 0] = .error (.wrongPort 0x90) ∧
    s'.fault = none ∧ s'.split = none ∧ s'.program = [.command [0x13, 0]] ∧ s'.turns = [] ∧
    decode s'.params.statusTable .command [0x13, 0] = .error (.wrongLength 0x13) :=
  ⟨rfl, rfl, rfl, rfl, rfl, rfl, rfl, rfl, rfl, rfl⟩

theorem witness_I2cInitCompletes :
    State.reset.fault = none ∧ (1 : Word32) ≠ 0 ∧ (0xFFFFFFFF : Word32) ≠ 0 ∧ State.reset.i2c.state = .idle ∧
    State.reset.i2c.cmd = none ∧ State.reset.i2c.event = none ∧ State.reset.i2c.busOwned = false := by decide

/-- Each way to be busy; an operand of 0 is a clause of its own, met by the operands alone. -/
theorem witness_I2cInitRefusedOrMisuse :
    (i2cIn .masterReading 0 0 0).fault = none ∧ State.reset.fault = none ∧ (i2cIn .masterReading 0 0 0).i2c.state ≠ .idle ∧
    (withContext State.reset fun c => { c with cmd := some .start }).i2c.cmd ≠ none ∧
    (withContext State.reset fun c => { c with event := some ⟨0, 0⟩ }).i2c.event ≠ none ∧
    (withContext State.reset fun c => { c with busOwned := true }).i2c.busOwned = true := by decide

theorem witness_I2cStartWriteCompletes :
    (i2cIn .idle 0 0 0).fault = none ∧ (0x7F : Byte).toNat < 128 ∧ (0x03 : Byte).toNat < 4 ∧
    (0xFFFE : Addr).toNat + (1 : Addr).toNat < 65536 ∧ (i2cIn .idle 0 0 0).i2c.state = .idle ∧
    (i2cIn .idle 0 0 0).i2c.enabled = true := by decide

theorem witness_I2cStartReadCompletes :
    (i2cIn .idle 0 0 0).fault = none ∧ (0x00 : Byte).toNat < 128 ∧ (0x00 : Byte).toNat < 4 ∧
    (0xFFFF : Addr).toNat + (0 : Addr).toNat < 65536 ∧ (i2cIn .idle 0 0 0).i2c.state = .idle ∧
    (i2cIn .idle 0 0 0).i2c.enabled = true := by decide

/-- Each clause at its boundary; the legal operands are those of the two witnesses above. -/
theorem witness_I2cStartRefusedOrMisuse :
    State.reset.fault = none ∧ (i2cIn .masterWriting 0 0 0).fault = none ∧ 128 ≤ (0x80 : Byte).toNat ∧ 4 ≤ (0x04 : Byte).toNat ∧ 65536 ≤ (0xFFFF : Addr).toNat + (1 : Addr).toNat ∧
    (i2cIn .masterWriting 0 0 0).i2c.state ≠ .idle ∧ State.reset.i2c.state = .idle ∧ State.reset.i2c.enabled = false :=
  by decide

theorem witness_ObserversReturnAndChangeNothing :
    State.reset.fault = none ∧ State.reset.uart? 0 = some (Uart.reset 0) := ⟨rfl, rfl⟩

theorem witness_AtomicProgressReadCompletes :
    let s : State := .resetWith { Config.defaultParams with progressReadAtomic := true } 1
    s.fault = none ∧ s.params.progressReadAtomic = true ∧ s.uart? 0 = some (Uart.reset 0) := ⟨rfl, rfl, rfl⟩

theorem witness_SplitProgressReadTakesItsFirstByte :
    State.reset.fault = none ∧ State.reset.params.progressReadAtomic = false ∧ State.reset.split = none ∧
    State.reset.uart? 0 = some (Uart.reset 0) := ⟨rfl, rfl, rfl, rfl⟩

/-- The first byte of either read has been taken. -/
theorem witness_SplitProgressReadCompletes :
    ({ State.reset with split := some ⟨.i2c, 0xFF⟩ } : State).params.progressReadAtomic = false ∧
    ({ State.reset with split := some ⟨.i2c, 0xFF⟩ } : State).fault = none ∧
    ({ State.reset with split := some ⟨.i2c, 0xFF⟩ } : State).split = some ⟨.i2c, 0xFF⟩ ∧
    ({ State.reset with split := some ⟨.uart 0, 0⟩ } : State).split = some ⟨.uart 0, 0⟩ ∧
    ({ State.reset with split := some ⟨.uart 0, 0⟩ } : State).uart? 0 = some (Uart.reset 0) := ⟨rfl, rfl, rfl, rfl, rfl⟩

theorem witness_CompleteHoldsOrStopsAndAbortStops :
    (i2cIn .masterWriting 0x03 0 0).i2c.flags.getLsbD 0 = true ∧
    (i2cIn .masterWriting 0x02 0 0).i2c.flags.getLsbD 0 = false := by decide

theorem witness_I2cEventRunsTheSelectedRow :
    let s := withContext (i2cIn .masterWriting 0 0x0100 0x0102) fun c => { c with event := some ⟨0x18, 0xA0⟩ }
    s.fault = none ∧ s.gie = true ∧ s.i2c.event = some ⟨0x18, 0xA0⟩ := by decide

/-- A byte left, and none; the rows of A1, A3, A5 and A8 ask for `fault = none` only. -/
theorem witness_WriteAckRowsLoadTheNextByte :
    (i2cIn .masterWriting 0 0xFFFE 0xFFFF).fault = none ∧
    (i2cIn .masterWriting 0 0xFFFE 0xFFFF).i2c.buf.cursor ≠ (i2cIn .masterWriting 0 0xFFFE 0xFFFF).i2c.buf.limit ∧
    (i2cIn .masterWriting 0 0xFFFF 0xFFFF).i2c.buf.cursor = (i2cIn .masterWriting 0 0xFFFF 0xFFFF).i2c.buf.limit :=
  by decide

theorem witness_ReadAddressAckRowArmsReceive :
    let r := fun limit : Addr => (i2cIn .masterReading 0 0x0200 limit).i2c.buf
    (r 0x0200).limit - (r 0x0200).cursor = 0 ∧ (r 0x0201).limit - (r 0x0201).cursor = 1 ∧
    (r 0x0202).limit - (r 0x0202).cursor ≠ 0 ∧ (r 0x0202).limit - (r 0x0202).cursor ≠ 1 := by decide

/-- Room for one byte, for two, for three and for none. -/
theorem witness_ReadDataAckRowStoresAndRearms :
    let b := fun limit : Addr => (i2cIn .masterReading 0 0x0200 limit).i2c.buf
    (i2cIn .masterReading 0 0x0200 0x0203).fault = none ∧ (i2cIn .masterReading 0 0x0200 0x0203).mem.wf = true ∧
    (b 0x0203).cursor ≠ (b 0x0203).limit ∧ (b 0x0201).limit = (b 0x0201).cursor + 1 ∧
    (b 0x0202).limit = (b 0x0202).cursor + 2 ∧ (b 0x0203).limit ≠ (b 0x0203).cursor + 1 ∧
    (b 0x0203).limit ≠ (b 0x0203).cursor + 2 ∧ (b 0x0200).cursor = (b 0x0200).limit := by decide

theorem witness_ReadDataNackRowStoresAndCompletes :
    let s := i2cIn .masterReading 0 0x0202 0x0203
    s.fault = none ∧ s.mem.wf = true ∧ s.i2c.buf.cursor ≠ s.i2c.buf.limit ∧
    (i2cIn .masterReading 0 0x0203 0x0203).i2c.buf.cursor = (i2cIn .masterReading 0 0x0203 0x0203).i2c.buf.limit :=
  by decide

/-- Either end of the range of divisors. -/
theorem witness_BaudDivisorIsTheFloor :
    (1 : Word32) ≠ 0 ∧ baudDivisor 65551 1 false = some 4095 ∧ baudDivisor 65552 1 false = none ∧
    baudDivisor 15 1 false = none ∧ baudDivisor 16 1 false = some 0 := by decide

theorem witness_UartInitCompletes :
    State.reset.fault = none ∧ State.reset.uart? 0 = some (Uart.reset 0) ∧ (0x1B : Byte).toNat < 64 ∧
    configTxMode 0x1B = some .auto ∧ configRxMode 0x1B = some .manual ∧ (Uart.reset 0).txData = none ∧
    (Uart.reset 0).txShift = none ∧ (Uart.reset 0).txEvt = false ∧ (Uart.reset 0).rxEvt = false ∧
    ((Uart.reset 0).txMode = .auto → (Uart.reset 0).txBuf.cursor = (Uart.reset 0).txBuf.limit) ∧
    baudDivisor 16000000 9600 ((0x1B : Byte).getLsbD 1) = some 207 := by decide

/-- An illegal `config`; a byte waiting; a divisor out of range on the unit after reset. -/
theorem witness_UartInitRefusedOrMisuse :
    configLegal 0x40 = false ∧ configLegal 0x3B = false ∧ configLegal 0x1B = true ∧
    (unitIs fun x => { x with txData := some 0 }).fault = none ∧ State.reset.fault = none ∧
    State.reset.uart? 0 = some (Uart.reset 0) ∧ (Uart.reset 0).busy = false ∧
    (unitIs fun x => { x with txData := some 0 }).uart? 0 = some { Uart.reset 0 with txData := some 0 } ∧
    baudDivisor 16000000 2000000 ((0x18 : Byte).getLsbD 1) = none := by decide

theorem witness_MissingUnitIsRefused :
    State.reset.fault = none ∧ State.reset.uarts.length ≤ (1 : Byte).toNat := by decide

theorem witness_UartSendManualCompletes :
    let x := { Uart.reset 0 with txMode := .manual }
    (unitIs fun _ => x).fault = none ∧ (unitIs fun _ => x).uart? 0 = some x ∧ x.txMode ≠ .disabled ∧ x.txData = none ∧
    (x.txMode = .auto → x.txBuf.cursor = x.txBuf.limit) := by decide

theorem witness_UartSendManualMisuse :
    (∀ f, (unitIs f).fault = none ∧ (unitIs f).uart? 0 = some (f (Uart.reset 0))) ∧
    (Uart.reset 0).txMode = .disabled ∧ (streaming 0 1 { Uart.reset 0 with txData := some 0 }).txData ≠ none ∧
    (streaming 0 1 (Uart.reset 0)).txMode = .auto ∧ (streaming 0 1 (Uart.reset 0)).txData = none ∧
    (streaming 0 1 (Uart.reset 0)).txBuf.cursor ≠ (streaming 0 1 (Uart.reset 0)).txBuf.limit := ⟨fun _ => ⟨rfl, rfl⟩, by decide⟩

theorem witness_UartSendAutoCompletes :
    let x := streaming 0 0 (Uart.reset 0)
    (unitIs fun _ => x).fault = none ∧ (unitIs fun _ => x).uart? 0 = some x ∧ x.txMode = .auto ∧
    x.txBuf.cursor = x.txBuf.limit ∧ x.txData = none ∧ (0xFFFE : Addr).toNat + (1 : Addr).toNat < 65536 := by decide

theorem witness_UartSendAutoRefusedOrMisuse :
    (∀ f, (unitIs f).fault = none ∧ (unitIs f).uart? 0 = some (f (Uart.reset 0))) ∧
    65536 ≤ (0x8000 : Addr).toNat + (0x8000 : Addr).toNat ∧ (Uart.reset 0).txMode ≠ .auto ∧
    (streaming 0 1 (Uart.reset 0)).txBuf.cursor ≠ (streaming 0 1 (Uart.reset 0)).txBuf.limit ∧
    (streaming 0 0 { Uart.reset 0 with txData := some 0 }).txData ≠ none := ⟨fun _ => ⟨rfl, rfl⟩, by decide⟩

/-- A byte that waits with the receiver on and with it off, and none. -/
theorem witness_UartReceiveFetchTakesTheByte :
    let x := fun m => { Uart.reset 0 with rxMode := m, rxFull := true }
    (∀ m, (unitIs fun _ => x m).uart? 0 = some (x m) ∧ (unitIs fun _ => x m).fault = none ∧ (x m).rxFull = true) ∧
    State.reset.fault = none ∧ State.reset.uart? 0 = some (Uart.reset 0) ∧ (Uart.reset 0).rxFull = false :=
  ⟨fun _ => ⟨rfl, rfl, rfl⟩, rfl, rfl, rfl⟩

/-- Nothing left, the last byte, a byte in between, and a byte still in the data register. -/
theorem witness_TxEmptyEventStreamsTheNextByte :
    let x := fun cursor => { streaming cursor 0x0302 (Uart.reset 0) with txEvt := true }
    (unitIs fun _ => x 0x0300).fault = none ∧ (unitIs fun _ => x 0x0300).gie = true ∧ (x 0x0300).txEvt = true ∧
    (unitIs fun _ => x 0x0300).uart? 0 = some (x 0x0300) ∧
    (x 0x0302).txBuf.cursor = (x 0x0302).txBuf.limit ∧ (x 0x0301).txBuf.cursor + 1 = (x 0x0301).txBuf.limit ∧
    (x 0x0300).txBuf.cursor + 1 ≠ (x 0x0300).txBuf.limit ∧ (x 0x0300).txData = none ∧
    (x 0x0300).txMode = .auto ∧ ({ x 0x0300 with txMode := .manual } : Uart).txMode ≠ .auto ∧
    ({ x 0x0300 with txData := some 0 } : Uart).txData ≠ none := by decide

theorem witness_RxDataEventOnlyClearsTheEvent :
    let s := unitIs fun x => { x with rxEvt := true }
    s.fault = none ∧ s.gie = true ∧ s.uart? 0 = some { Uart.reset 0 with rxEvt := true } := by decide

theorem witness_LineMovesBytesOut :
    let x := streaming 0x0300 0x0302 { Uart.reset 0 with txData := some 0x41 }
    let s : State := { unitIs (fun _ => x) with turns := [.lineLoad 0] }
    s.fault = none ∧ s.turns = [.lineLoad 0] ∧ ({ s with turns := [.lineShift 0] } : State).turns = [.lineShift 0] ∧
    (unitIs fun _ => x).uart? 0 = some x ∧ x.txEn = true ∧ x.txData = some 0x41 ∧ x.txShift = none ∧
    (Uart.reset 0).txEn = false ∧ ({ x with txShift := some 0x41 } : Uart).txShift = some 0x41 ∧
    (Uart.reset 0).txShift = none := by decide

theorem witness_LineReceivesAByte :
    let x := { Uart.reset 0 with rxEn := true }
    let s : State := { unitIs (fun _ => x) with turns := [.lineReceive 0 0x5A true] }
    s.fault = none ∧ s.turns = [.lineReceive 0 0x5A true] ∧
    (unitIs fun _ => x).uart? 0 = some x ∧ x.rxEn = true ∧ x.rxFull = false ∧ ({ x with rxFull := true } : Uart).rxFull = true ∧
    (Uart.reset 0).rxEn = false := by decide

/-- A machine whose bus has command `k` to answer, in the address phase or not, with turn `.bus code 0x77`. -/
def answering (k : BusCommand) (code : Byte) (f : I2c → I2c := id) : State :=
  { withContext (i2cIn .masterWriting 0 0x0100 0x0102) (fun c => f { c with cmd := some k }) with turns := [.bus code 0x77] }

/-- What the statements about an answer of the bus ask of every state. -/
theorem witness_BusAnswers (k : BusCommand) (code : Byte) :
    (answering k code).fault = none ∧ (answering k code).turns = [.bus code 0x77] ∧
    (answering k code).i2c.enabled = true ∧ (answering k code).i2c.cmd = some k ∧
    statusTableWf (answering k code).params.statusTable = true ∧ (answering k code).params.busStrict = false :=
  ⟨rfl, rfl, rfl, rfl, (by decide : statusTableWf codes = true), rfl⟩

/-- The three rows, and codes outside them: arbitration loss, and a start code on a bus that is held. -/
theorem witness_BusAnswersStart :
    let free := (answering .start 0x08).i2c
    let held := (answering .start 0x17 fun c => { c with busOwned := true }).i2c
    (0x08 : Byte) &&& 0xF8 = codes.start ∧ free.busOwned = false ∧
    (0x17 : Byte) &&& 0xF8 = codes.repStart ∧ held.busOwned = true ∧ (0x07 : Byte) &&& 0xF8 = codes.busError ∧
    (0x38 : Byte) &&& 0xF8 ∉ free.allowedCodes codes .start ∧ (0x08 : Byte) &&& 0xF8 ∉ held.allowedCodes codes .start :=
  by decide

/-- A row for each phase of a byte sent, the two rows of a lost bus, and a code outside them. -/
theorem witness_BusAnswersSend :
    let data := (answering .send 0x28).i2c
    let write := (answering .send 0x18 fun c => { c with addrPhase := true, dr := 0xD0 }).i2c
    let read := (answering .send 0x48 fun c => { c with addrPhase := true, dr := 0xD1 }).i2c
    (data.addrPhase = false ∧ (0x28 : Byte) &&& 0xF8 = codes.dataWAck) ∧
    (write.addrPhase = true ∧ write.dr.getLsbD 0 = false ∧ (0x18 : Byte) &&& 0xF8 = codes.slaWAck) ∧
    (read.addrPhase = true ∧ read.dr.getLsbD 0 = true ∧ (0x4F : Byte) &&& 0xF8 = codes.slaRNack) ∧
    (0x38 : Byte) &&& 0xF8 = codes.arbLost ∧ (0x00 : Byte) &&& 0xF8 = codes.busError ∧
    (0x28 : Byte) &&& 0xF8 ∉ write.allowedCodes codes .send ∧ (0x18 : Byte) &&& 0xF8 ∉ read.allowedCodes codes .send ∧
    (0xF8 : Byte) &&& 0xF8 ∉ data.allowedCodes codes .send := by decide

/-- The rows of either receive, and the code of the other one, which is outside them. -/
theorem witness_BusAnswersReceive :
    (0x50 : Byte) &&& 0xF8 = codes.dataRAck ∧ (0x5F : Byte) &&& 0xF8 = codes.dataRNack ∧
    (0x38 : Byte) &&& 0xF8 = codes.arbLost ∧ (0x00 : Byte) &&& 0xF8 = codes.busError ∧
    (0x58 : Byte) &&& 0xF8 ∉ (answering .recvAck 0x58).i2c.allowedCodes codes .recvAck ∧
    (0x50 : Byte) &&& 0xF8 ∉ (answering .recvNack 0x50).i2c.allowedCodes codes .recvNack := by decide

/-- A strict bus that answers; and the three ways a bus turn passes. -/
theorem witness_StrictBusRaisesOnlyConformingCodes :
    let strict := fun s : State => { s with params := { s.params with busStrict := true } }
    let s := strict (answering .start 0x08)
    s.fault = none ∧ s.params.busStrict = true ∧ s.turns = [.bus 0x08 0x77] ∧ s.i2c.cmd = some .start ∧
    s.i2c.event = none ∧ after (step s) (fun t => t.i2c.event) = some (some ⟨0x08, 0⟩) ∧
    { State.reset with turns := [.bus 0x08 0] }.i2c.cmd = none ∧
    (answering .start 0x08 fun c => { c with enabled := false }).i2c.enabled = false ∧
    (strict (answering .start 0x10)).params.busStrict = true ∧
    (0x10 : Byte) &&& 0xF8 ∉ (strict (answering .start 0x10)).i2c.allowedCodes codes .start := by decide

/-- A state that a misuse has left. -/
theorem witness_AfterMisuseEveryFieldIsUnspecified : (State.reset.raiseMisuse .noData).fault = some .noData := rfl

theorem witness_MisuseAndRefusedAreSticky :
    after (step { State.reset with refused := true }) (fun t => (t.refused, t.fault)) = some (true, none) := by decide

/-- The first and the last byte of the I2C span and of a unit's span, and the bytes next to them, read and written. -/
theorem witness_ForegroundAccessToAnOwnedSpanIsMisuse :
    let s := i2cIn .masterReading 0 0x0100 0x0103
    let u := unitIs (streaming 0x0301 0x0302)
    s.fault = none ∧ s.mem.wf = true ∧ s.i2c.state ≠ .idle ∧ s.spanOwned 0x0100 = true ∧ s.spanOwned 0x0102 = true ∧
    s.spanOwned 0x0103 = false ∧ s.spanOwned 0x00FF = false ∧
    u.fault = none ∧ u.mem.wf = true ∧ u.spanOwned 0x0300 = true ∧ u.spanOwned 0x0301 = true ∧
    u.spanOwned 0x0302 = false ∧ u.spanOwned 0x02FF = false ∧
    (issuing u (.memRead 0x0300)).turns = [.foreground] ∧ (issuing u (.memRead 0x0300)).program = [.memRead 0x0300] ∧
    (issuing u (.memWrite 0x0300 1)).program = [.memWrite 0x0300 1] ∧
    after (step (issuing u (.memWrite 0x0301 1))) (fun t => t.fault) = some (some .bufferInUse) := by decide

theorem witness_OnlyThePlatformWritesGie :
    ({ State.reset with turns := [.platform true] } : State).fault = none ∧
    after (step { State.reset with turns := [.platform true] }) (fun t => (t.gie, t.fault)) = some (true, none) ∧
    after (step State.reset) (fun t => (t.gie, t.fault)) = some (false, none) ∧
    ∀ g ts, State.reset.turns ≠ .platform g :: ts := ⟨rfl, by decide, by decide, nofun⟩

theorem witness_OnlyTheI2cHandlerWritesLastStatus :
    after (step { withContext (i2cIn .masterWriting 0 0x0100 0x0102) (fun c => { c with event := some ⟨0x0B, 0⟩ })
        with turns := [.i2cHandler] }) (fun t => (t.i2c.lastStatus, t.fault)) = some (0x0B, none) := by decide

/-- The foreground writes a byte no engine owns; and the handler stores a received byte. -/
theorem witness_MemoryChangesOnlyWhereStored :
    after (step (issuing State.reset (.memWrite 0x0200 0x5A))) (fun t => (t.mem.read 0x0200, t.fault)) = some (0x5A, none) ∧
    after (step { withContext (i2cIn .masterReading 0 0x0201 0x0203) (fun c => { c with dr := 0x22, event := some ⟨0x50, 0x22⟩ })
        with turns := [.i2cHandler] }) (fun t => (t.mem.read 0x0201, t.fault)) = some (0x22, none) := by decide

/-- A canonical memory at both ends of the address space; three lists that are not canonical. -/
theorem witness_CanonicalMemoriesReadingAlikeAreEqual :
    Memory.wf [(0x0000, 0x01), (0xFFFF, 0x02)] = true ∧ Memory.wf [(0x0001, 0x01), (0x0000, 0x02)] = false ∧
    Memory.wf [(0x0000, 0x00)] = false ∧ Memory.wf [(0x10000, 0x01)] = false := by decide

/-- A write of two bytes of the span `[0x0100, 0x0102)` with START pending, on a bus held to the conforming table. -/
def startPending : State :=
  { withContext (i2cIn .masterWriting 0 0x0100 0x0102) (fun c => { c with cmd := some .start }) with
    params := { Config.defaultParams with busStrict := true }
    turns := [.bus 0x08 0, .i2cHandler] }

theorem witness_EveryStepKeepsConsistency : startPending.Consistent where
  memory := rfl
  table := by decide
  units := by decide
  bases := by
    intro k h
    simp [startPending, withContext, i2cIn, State.reset, State.resetWith, Uart.reset]
  i2c _ := ⟨by decide, by decide, by decide, by decide, ⟨by decide, by decide⟩, nofun⟩
  uart := by
    intro _ x hx
    simp only [startPending, withContext, i2cIn, State.reset, State.resetWith, List.mem_map] at hx
    obtain ⟨k, _, rfl⟩ := hx
    exact ⟨⟨Nat.le_refl _, Nat.le_refl _⟩, rfl, rfl, nofun, rfl, nofun, rfl, rfl⟩

theorem witness_EveryStepKeepsConformance :
    startPending.params.busStrict = true ∧ startPending.i2c.Conforming codes ∧
      after (step startPending) (fun t => t.fault) = some none := by
  refine ⟨rfl, ⟨by decide, by decide, fun k hk => ?_, nofun⟩, rfl⟩
  injection hk with hk
  subst hk
  trivial

/-- Consistent and conforming by the two witnesses above; two steps, one of them an invocation of the handler. -/
theorem witness_TransactionEndsWithinLengthPlusTwoEvents :
    startPending.i2c.cmd = some .start ∧
    (transactionRun 2 startPending).map (fun r => (r.2, r.1.fault, r.1.i2c.state)) = some (1, none, .masterWriting) :=
  by decide

theorem witness_StreamProgressCountsTxEvents :
    let s : State := { unitIs (fun x => { streaming 0x0300 0x0302 x with txEvt := true }) with turns := [.txHandler 0] }
    (s.uart? 0).isSome = true ∧ (streamRun 0 1 s).map (fun r => (r.2, r.1.fault)) = some (1, none) := by decide

/-- Two states that differ in the erased fields. -/
theorem witness_UnreadFieldsHaveNoEffect :
    let s := unitIs fun x => { x with divisor := 7, stopBits := .two, lineOut := [0x41] }
    let s' := withContext (unitIs id) fun c => { c with flags := 0x02, bitRate := 9, trace := [.stop] }
    s.eraseUnread = s'.eraseUnread ∧ s ≠ s' ∧ after (step s) (fun t => t.fault) = some none ∧
    after (step s') (fun t => t.fault) = some none := by decide

end Sys2Proof.Tests
end

