-- ==== Sys2Proof/Proofs/StepFrame.lean ====
section
/-!
PROOFS. What an effect of a step leaves alone, and the safety statements of 10_state.md that follow: the sticky bits of
R37, the writer of `gie` (R36) and the writer of `lastStatus` (R24).
-/

namespace Sys2Proof.Machine

open Sys2Proof

/-! ### What the shared operations leave alone -/

/-- An action of the I2C handler changes the I2C context, and the memory at most by storing the data register at the
cursor (41_i2c_event_engine.md R144 to R151). -/
theorem State.performAction_frame (s : State) (a : Config.Action) :
    ∃ c m, s.performAction a = { s with i2c := c, mem := m } ∧
      (m = s.mem ∨ m = s.mem.write s.i2c.buf.cursor s.i2c.dr) := by
  have setsI2c : ∀ c : I2c, ∃ c' m, s.withI2c c = { s with i2c := c', mem := m } ∧
      (m = s.mem ∨ m = s.mem.write s.i2c.buf.cursor s.i2c.dr) :=
    fun c => ⟨c, s.mem, rfl, .inl rfl⟩
  have stores : ∀ c : I2c, ∃ c' m, s.storeReceived.withI2c c = { s with i2c := c', mem := m } ∧
      (m = s.mem ∨ m = s.mem.write s.i2c.buf.cursor s.i2c.dr) :=
    fun c => ⟨c, _, rfl, .inr rfl⟩
  cases a with
  | a1 => exact setsI2c _
  | a2 =>
    simp only [State.performAction, State.actionA2]
    split <;> exact setsI2c _
  | a3 => exact setsI2c _
  | a4 => exact setsI2c _
  | a5 => exact setsI2c _
  | a6 =>
    simp only [State.performAction, State.actionA6]
    split
    · exact setsI2c _
    · exact stores _
  | a7 =>
    simp only [State.performAction, State.actionA7]
    split
    · exact setsI2c _
    · exact stores _
  | a8 => exact setsI2c _

@[simp] theorem I2c.armReceive_lastStatus (c : I2c) : c.armReceive.lastStatus = c.lastStatus := by
  obtain ⟨-, h⟩ | ⟨-, h⟩ | ⟨-, -, h⟩ := c.armReceive_cases <;> simp [h]

/-- No action writes `lastStatus`: the handler's entry has done so (R140). -/
@[simp] theorem State.performAction_lastStatus (s : State) (a : Config.Action) :
    (s.performAction a).i2c.lastStatus = s.i2c.lastStatus := by
  cases a with
  | a1 => rfl
  | a2 =>
    simp only [State.performAction, State.actionA2]
    split <;> simp
  | a3 => simp [State.performAction, State.actionA3]
  | a4 => simp [State.performAction, State.actionA4]
  | a5 => rfl
  | a6 =>
    simp only [State.performAction, State.actionA6]
    split <;> simp
  | a7 =>
    simp only [State.performAction, State.actionA7]
    split <;> simp
  | a8 => rfl

/-- An answer of the bus does not write `lastStatus`. -/
@[simp] theorem I2c.answer_lastStatus (c : I2c) (p : Config.Params) (k : BusCommand) (code b : Byte) :
    (c.answer p k code b).lastStatus = c.lastStatus := by
  obtain ⟨c', hc, h⟩ | ⟨-, -, h⟩ | ⟨-, -, h⟩ := c.answer_cases p k code b <;> rw [h]
  · obtain ⟨-, hl, -⟩ := I2c.conformingAnswer_frame hc
    exact hl
  · rfl

/-! ### What an effect leaves alone -/

/-- What an effect in the turn `tn` leaves alone: it is misuse, a refusal or the platform's write of `gie`, or it keeps
the parameters, `gie`, the sticky bits and the number of draws. -/
inductive EffectFrame (s : State) (tn : Turn) : State → Prop
  | misuse (m : Misuse) : EffectFrame s tn (s.raiseMisuse m)
  | refuse : EffectFrame s tn s.refuse
  | platform (g : Bool) (htn : tn = .platform g) : EffectFrame s tn { s with gie := g }
  | parts (c : I2c) (us : List Uart) (m : Memory) (sp : Option SplitRead) (r : Option Response) :
    EffectFrame s tn { s with i2c := c, uarts := us, mem := m, split := sp, response := r }

theorem EffectFrame.unchanged (s : State) (tn : Turn) : EffectFrame s tn s :=
  .parts s.i2c s.uarts s.mem s.split s.response

theorem EffectFrame.withI2c (s : State) (tn : Turn) (c : I2c) : EffectFrame s tn (s.withI2c c) :=
  .parts c s.uarts s.mem s.split s.response

theorem EffectFrame.withUart (s : State) (tn : Turn) (u : Byte) (x : Uart) : EffectFrame s tn (s.withUart u x) :=
  .parts s.i2c _ s.mem s.split s.response

theorem EffectFrame.lineStep (s : State) (tn : Turn) (u : Byte) (f : Uart → Uart) :
    EffectFrame s tn (s.lineStep u f) := by
  obtain h | ⟨x, -, h⟩ := s.lineStep_cases u f <;> rw [h]
  · exact .unchanged s tn
  · exact .withUart s tn u (f x)

theorem EffectFrame.streamNextByte (s : State) (tn : Turn) (u : Byte) (x : Uart) :
    EffectFrame s tn (s.streamNextByte u x) := by
  obtain ⟨-, h⟩ | ⟨-, -, h⟩ | ⟨-, -, -, h⟩ | ⟨-, -, -, h⟩ := s.streamNextByte_cases u x <;> rw [h]
  · exact .withUart s tn u _
  · exact .withUart s tn u _
  · exact .misuse _
  · exact .withUart s tn u _

/-- Every effect has such a frame. -/
theorem Effect.frame {s t : State} {tn : Turn} (h : Effect s tn t) : EffectFrame s tn t := by
  cases h with
  | stay => exact .unchanged s tn
  | refuse => exact .refuse
  | misuse _ m => exact .misuse m
  | answer sp r => exact .parts s.i2c s.uarts s.mem sp r
  | memWrite a v => exact .parts s.i2c s.uarts (s.mem.write a v) s.split s.response
  | i2cInit => exact .withI2c s _ _
  | i2cStart => exact .withI2c s _ _
  | uartInit u => exact .withUart s _ u _
  | sendManual u => exact .withUart s _ u _
  | sendAuto u => exact .withUart s _ u _
  | fetch u x => exact .parts s.i2c _ s.mem s.split (some (.data x.rxData))
  | i2cEvent e =>
    obtain ⟨c, m, h, -⟩ := (s.withI2c (s.i2c.enterHandler e.status)).performAction_frame
      (decodeStatusAction s.params.statusTable e.status)
    rw [h]
    exact .parts c s.uarts m s.split s.response
  | txEvent u => exact .streamNextByte s _ u _
  | rxEvent u => exact .withUart s _ u _
  | bus code b =>
    obtain h | ⟨k, -, -, h⟩ := s.busStep_cases code b <;> rw [h]
    · exact .unchanged s _
    · exact .withI2c s _ _
  | lineLoad u => exact .lineStep s _ u _
  | lineShift u => exact .lineStep s _ u _
  | lineReceive u => exact .lineStep s _ u _
  | platform g => exact .platform g rfl

/-- No effect clears `refused` (R37). -/
theorem Effect.refused_sticky {s t : State} {tn : Turn} (h : Effect s tn t) (hr : s.refused = true) :
    t.refused = true := by
  cases h.frame with
  | misuse m => simp [hr]
  | refuse => rfl
  | platform => exact hr
  | parts => exact hr

/-- An effect that is no misuse writes `gie` in the platform's turn only (R36). -/
theorem Effect.gie_unchanged {s t : State} {tn : Turn} (h : Effect s tn t) (hf : t.fault = none)
    (hp : ∀ g, tn ≠ .platform g) : t.gie = s.gie := by
  cases h.frame with
  | misuse => cases hf
  | refuse => rfl
  | platform g htn => exact absurd htn (hp g)
  | parts => rfl

@[simp] theorem State.lineStep_i2c (s : State) (u : Byte) (f : Uart → Uart) : (s.lineStep u f).i2c = s.i2c := by
  obtain h | ⟨x, -, h⟩ := s.lineStep_cases u f <;> rw [h]
  rfl

/-- The TX-empty handler writes the I2C context by misuse only. -/
theorem State.streamNextByte_i2c {s : State} {u : Byte} {x : Uart} (hf : (s.streamNextByte u x).fault = none) :
    (s.streamNextByte u x).i2c = s.i2c := by
  obtain ⟨-, h⟩ | ⟨-, -, h⟩ | ⟨-, -, -, h⟩ | ⟨-, -, -, h⟩ := s.streamNextByte_cases u x <;> rw [h] at hf ⊢
  · rfl
  · rfl
  · cases hf
  · rfl

/-- An effect that is no misuse writes `lastStatus` in the I2C handler's turn only, with the status of the event handled
(R24, R140). -/
theorem Effect.lastStatus_cases {s t : State} {tn : Turn} (h : Effect s tn t) (hf : t.fault = none) :
    t.i2c.lastStatus = s.i2c.lastStatus ∨
    ∃ e, tn = .i2cHandler ∧ s.gie = true ∧ s.i2c.event = some e ∧ t.i2c.lastStatus = e.status := by
  cases h with
  | i2cEvent e hg he => exact .inr ⟨e, rfl, hg, he, by simp⟩
  | misuse => cases hf
  | stay => exact .inl rfl
  | refuse => exact .inl rfl
  | answer => exact .inl rfl
  | memWrite => exact .inl rfl
  | i2cInit => exact .inl rfl
  | i2cStart => exact .inl rfl
  | uartInit => exact .inl rfl
  | sendManual => exact .inl rfl
  | sendAuto => exact .inl rfl
  | fetch => exact .inl rfl
  | txEvent u x => exact .inl (congrArg I2c.lastStatus (State.streamNextByte_i2c hf))
  | rxEvent => exact .inl rfl
  | bus code b =>
    left
    obtain h | ⟨k, -, -, h⟩ := s.busStep_cases code b <;> rw [h]
    simp
  | lineLoad => exact .inl (by simp)
  | lineShift => exact .inl (by simp)
  | lineReceive => exact .inl (by simp)
  | platform => exact .inl rfl

/-- A step after which no misuse has occurred began with none (R37). -/
theorem fault_none_of_step {s t : State} (h : step s = .next t) (hf : t.fault = none) : s.fault = none := by
  cases hs : s.fault with
  | none => rfl
  | some m =>
    obtain ⟨p, ts, rfl⟩ := step_misused hs h
    exact hs.symm.trans hf

/-- Settles O47: after misuse a step only draws again, and before it no effect clears `refused`. -/
theorem misuseAndRefusedAreSticky : Obligations.MisuseAndRefusedAreSticky := by
  intro s t h
  cases hf : s.fault with
  | some m =>
    obtain ⟨p, ts, rfl⟩ := step_misused hf h
    exact ⟨fun m' hm => hf.trans hm, fun hr => by simp [hr]⟩
  | none =>
    obtain ⟨tn, ts, t', p, -, he, rfl⟩ := step_effect hf h
    exact ⟨nofun, fun hr => he.refused_sticky hr⟩

/-- Settles O49: by cases on the effect, and for the platform by its own turn. -/
theorem onlyThePlatformWritesGie : Obligations.OnlyThePlatformWritesGie := by
  constructor
  · intro s t h hf hp
    obtain ⟨tn, ts, t', p, htn, he, rfl⟩ := step_effect (fault_none_of_step h hf) h
    refine he.gie_unchanged hf fun g hg => ?_
    obtain hs | ⟨-, htn, -⟩ := htn
    · exact hp g ts (hg ▸ hs)
    · exact Turn.noConfusion (htn.symm.trans hg)
  · intro s g ts hf hs
    have hf' : ({ s with turns := ts } : State).fault = none := hf
    simp only [step, hs, State.turnStep, State.perform_clear hf']

/-- Settles O50: by cases on the effect. -/
theorem onlyTheI2cHandlerWritesLastStatus : Obligations.OnlyTheI2cHandlerWritesLastStatus := by
  intro s t h hf
  obtain ⟨tn, ts, t', p, htn, he, rfl⟩ := step_effect (fault_none_of_step h hf) h
  obtain hl | ⟨e, rfl, hg, hev, hl⟩ := he.lastStatus_cases hf
  · exact .inl hl
  · obtain hs | ⟨-, hfg, -⟩ := htn
    · exact .inr ⟨e, ts, hs, hg, hev, hl⟩
    · cases hfg

end Sys2Proof.Machine
end

