-- ==== Sys2Proof/Proofs/Consistency.lean ====
section
/-!
PROOFS. Every step of every agent keeps `State.Consistent` (10_state.md R23, R27, R30; 41_i2c_event_engine.md R153,
R159; 42_uart_foreground.md R191; 43_uart_event_engine.md R232, R233), and it holds after reset.

The idea for the engine: between the handler's entry and the end of its action neither a command nor an event is set,
which `I2c.Handling` says; each action ends by arming a command or by going `Idle`, and both lead back to
`I2c.Consistent`.
-/

namespace Sys2Proof.Machine

open Sys2Proof

/-! ### Spans (10_state.md R27) -/

theorem TransferBuffer.zero_ordered : TransferBuffer.zero.Ordered := ⟨Nat.le_refl _, Nat.le_refl _⟩

/-- A fresh span that does not wrap is ordered (30_encoding.md R97). -/
theorem TransferBuffer.fresh_ordered {b l : Addr} (h : spanLegal b l = true) :
    TransferBuffer.Ordered ⟨b, b, b + l⟩ := by
  have hl := spanLegal_toNat h
  exact ⟨Nat.le_refl _, by dsimp only; omega⟩

/-- The cursor of an ordered span with bytes left stays in the span as it moves on (41_i2c_event_engine.md R153). -/
theorem TransferBuffer.Ordered.advance {b : TransferBuffer} (h : b.Ordered) (hx : b.exhausted = false) :
    b.advance.Ordered := by
  obtain ⟨hlow, hhigh⟩ := h
  have hne : b.cursor.toNat ≠ b.limit.toNat := by
    intro e
    rw [b.exhausted_iff.2 (BitVec.eq_of_toNat_eq e)] at hx
    cases hx
  have hlt : b.cursor.toNat < b.limit.toNat := by omega
  have hc := TransferBuffer.advance_cursor_toNat hlt
  constructor
  · rw [hc, TransferBuffer.advance_start]
    omega
  · rw [hc, TransferBuffer.advance_limit]
    omega

/-! ### The I2C context -/

/-- The I2C context inside a handler invocation, between its entry and the end of its action: a transaction is
outstanding, and neither a command nor an event is set (41_i2c_event_engine.md R140). -/
structure I2c.Handling (c : I2c) : Prop where
  notError : c.state ≠ .error
  busy : c.state ≠ .idle
  enabled : c.enabled = true
  noCommand : c.cmd = none
  noEvent : c.event = none
  flagsReserved : flagsLegal c.flags = true
  ordered : c.buf.Ordered

/-- An event is pending only while a transaction is outstanding, and no command beside it (R159); so the handler's entry
leaves neither. -/
theorem I2c.Consistent.enterHandler {p : Config.Params} {c : I2c} {e : BusEvent} (h : c.Consistent p)
    (he : c.event = some e) : (c.enterHandler e.status).Handling := by
  have busy : c.state ≠ .idle := by
    intro hi
    obtain ⟨-, hn⟩ := h.idleQuiet hi
    rw [hn] at he
    cases he
  obtain ⟨henabled, harmed⟩ := h.busyArmed busy
  have hcmd : c.cmd = none := by simpa [he] using harmed
  exact ⟨h.notError, busy, henabled, hcmd, rfl, h.flagsReserved, h.ordered⟩

section
variable {c : I2c} (p : Config.Params) (h : c.Handling)
include h

theorem I2c.Handling.setData (b : Byte) : ({ c with dr := b } : I2c).Handling := { h with }

theorem I2c.Handling.advance (hx : c.buf.exhausted = false) : c.advance.Handling :=
  { h with ordered := h.ordered.advance hx }

/-- An action that arms the bus ends the invocation with exactly a command set. -/
theorem I2c.Handling.rearm (k : BusCommand) : (c.drive (.rearm k)).Consistent p where
  notError := h.notError
  idleQuiet hi := absurd hi h.busy
  busyArmed _ := ⟨h.enabled, by simp [h.noEvent]⟩
  flagsReserved := h.flagsReserved
  ordered := h.ordered
  eventFields e he := by simp [h.noEvent] at he

/-- An action that goes `Idle` with nothing armed ends the transaction. -/
theorem I2c.Handling.toIdle {c' : I2c} (hs : c'.state = .idle) (hc : c'.cmd = none) (he : c'.event = c.event)
    (hf : c'.flags = c.flags) (hb : c'.buf = c.buf) : c'.Consistent p where
  notError := by rw [hs]; nofun
  idleQuiet _ := ⟨hc, he.trans h.noEvent⟩
  busyArmed hn := absurd hs hn
  flagsReserved := hf ▸ h.flagsReserved
  ordered := hb ▸ h.ordered
  eventFields e hev := by simp [he, h.noEvent] at hev

theorem I2c.Handling.complete : c.complete.Consistent p :=
  h.toIdle p c.complete_state c.complete_cmd c.complete_event c.complete_flags c.complete_buf

theorem I2c.Handling.abort : c.abort.Consistent p :=
  h.toIdle p c.abort_state c.abort_cmd c.abort_event c.abort_flags c.abort_buf

theorem I2c.Handling.armReceive : c.armReceive.Consistent p := by
  obtain ⟨-, ha⟩ | ⟨-, ha⟩ | ⟨-, -, ha⟩ := c.armReceive_cases <;> rw [ha]
  · exact h.complete p
  · exact h.rearm p .recvNack
  · exact h.rearm p .recvAck

end

/-- Every action of the handler ends in a consistent context (R144 to R151). -/
theorem State.performAction_consistent {s : State} (h : s.i2c.Handling) (p : Config.Params) (a : Config.Action) :
    (s.performAction a).i2c.Consistent p := by
  cases a with
  | a1 => exact (h.setData _).rearm p .send
  | a2 =>
    simp only [State.performAction, State.actionA2]
    split
    · exact h.complete p
    · rename_i hx
      exact ((h.setData _).advance (by simpa using hx)).rearm p .send
  | a3 => exact h.complete p
  | a4 => exact h.armReceive p
  | a5 => exact h.abort p
  | a6 =>
    simp only [State.performAction, State.actionA6]
    split
    · exact h.abort p
    · rename_i hx
      exact (h.advance (by simpa using hx)).armReceive p
  | a7 =>
    simp only [State.performAction, State.actionA7]
    split
    · exact h.abort p
    · rename_i hx
      exact (h.advance (by simpa using hx)).complete p
  | a8 => exact h.abort p

/-- A start operation finds the engine quiet and leaves it busy with START armed (40_i2c_foreground.md R121, R122). -/
theorem I2c.Consistent.startTransaction {p : Config.Params} {c : I2c} {e : EngineState} {d : BitVec 1} {a f : Byte}
    {b l : Addr} (h : c.Consistent p) (he : e = .masterWriting ∨ e = .masterReading)
    (hl : startLegal a f b l = true) (hi : c.state = .idle) (hen : c.enabled = true) :
    (c.startTransaction e d a f b l).Consistent p := by
  obtain ⟨-, hevent⟩ := h.idleQuiet hi
  simp only [startLegal, Bool.and_eq_true] at hl
  obtain ⟨⟨-, hflags⟩, hspan⟩ := hl
  have hbusy : e ≠ .idle := by rintro rfl; simp at he
  exact {
    notError := by rintro rfl; simp at he
    idleQuiet := fun hidle => absurd hidle hbusy
    busyArmed := fun _ => ⟨hen, by simp [hevent]⟩
    flagsReserved := hflags
    ordered := TransferBuffer.fresh_ordered hspan
    eventFields := fun e' he' => by simp [hevent] at he' }

/-- I2C_INIT, which is misuse on a busy engine, keeps the context consistent (R120). -/
theorem I2c.Consistent.initialise {p : Config.Params} {c : I2c} (h : c.Consistent p) (hb : c.busy = false) (n : Nat) :
    ({ c with bitRate := n, enabled := true } : I2c).Consistent p := by
  have hi : c.state = .idle := by
    simp only [I2c.busy, Bool.or_eq_false_iff, bne_eq_false_iff_eq] at hb
    obtain ⟨⟨⟨hi, -⟩, -⟩, -⟩ := hb
    exact hi
  exact { h with busyArmed := fun hn => absurd hi hn }

/-- The status value the bus raises shows `PRESC` in bits 2:0 (41_i2c_event_engine.md R157). -/
theorem statusOf_presc (code : Byte) (presc : BitVec 3) : (statusOf code presc).extractLsb' 0 3 = presc :=
  BitVec.extractLsb'_append_eq_right

/-- Raising the event in place of the pending command keeps a busy context consistent, whatever the answer did to the
bus side (R157, R159). -/
theorem I2c.Consistent.raiseEvent {p : Config.Params} {c c' : I2c} (h : c.Consistent p) (hbusy : c.state ≠ .idle)
    (hs : c'.state = c.state) (hf : c'.flags = c.flags) (hb : c'.buf = c.buf) (hen : c'.enabled = c.enabled)
    (code : Byte) : (c'.raiseEvent code p.presc).Consistent p where
  notError := by simpa [hs] using h.notError
  idleQuiet hi := absurd (hs.symm.trans hi) hbusy
  busyArmed _ := ⟨hen.trans (h.busyArmed hbusy).left, rfl⟩
  flagsReserved := by simpa [hf] using h.flagsReserved
  ordered := by simpa [hb] using h.ordered
  eventFields e he := by
    obtain rfl : ⟨statusOf code p.presc, c'.dr⟩ = e := by simpa using he
    exact ⟨statusOf_presc code p.presc, rfl⟩

/-- An answer of the bus keeps the context consistent, conforming or not. -/
theorem I2c.Consistent.answer {p : Config.Params} {c : I2c} {k : BusCommand} (h : c.Consistent p)
    (hk : c.cmd = some k) (code b : Byte) : (c.answer p k code b).Consistent p := by
  have busy : c.state ≠ .idle := by
    intro hi
    obtain ⟨hn, -⟩ := h.idleQuiet hi
    rw [hn] at hk
    cases hk
  obtain ⟨c', hc, ha⟩ | ⟨-, -, ha⟩ | ⟨-, -, ha⟩ := c.answer_cases p k code b <;> rw [ha]
  · obtain ⟨hs, -, hf, -, hb, -, hen, -⟩ := I2c.conformingAnswer_frame hc
    exact h.raiseEvent busy hs hf hb hen _
  · exact h
  · exact h.raiseEvent (c' := c.otherAnswer _ _ b) busy rfl rfl rfl rfl _

/-! ### A UART context -/

/-- The modes a `config` byte can set for the receiver leave `Auto` out (30_encoding.md R99). -/
theorem configRxMode_ne_auto {config : Byte} {m : UartMode} (h : configRxMode config = some m) : m ≠ .auto := by
  rintro rfl
  unfold configRxMode at h
  split at h <;> cases h

/-- UART_INIT, which is misuse on a busy unit, leaves a consistent context (42_uart_foreground.md R191). -/
theorem Uart.configure_consistent {x : Uart} (hb : x.busy = false) {config : Byte} {txm rxm : UartMode}
    (hr : configRxMode config = some rxm) (d : BitVec 12) : (x.configure d config txm rxm).Consistent := by
  simp only [Uart.busy, Bool.or_eq_false_iff] at hb
  obtain ⟨⟨⟨-, htx⟩, hrx⟩, -⟩ := hb
  exact {
    ordered := TransferBuffer.zero_ordered
    txEnable := rfl
    txInterrupt := rfl
    txPending := fun ht => absurd (htx.symm.trans ht) Bool.false_ne_true
    rxEnable := rfl
    rxNotAuto := configRxMode_ne_auto hr
    rxInterrupt := rfl
    rxQuiet := hrx }

section
variable {x : Uart} (h : x.Consistent)
include h

/-- The span and the data path change freely, as long as the span is ordered. -/
theorem Uart.Consistent.setStream {b : TransferBuffer} (hb : b.Ordered) (v : Option Byte) :
    ({ x with txBuf := b, txData := v } : Uart).Consistent := { h with ordered := hb }

theorem Uart.Consistent.clearTxEvent : ({ x with txEvt := false } : Uart).Consistent :=
  { h with txPending := nofun }

/-- The load raises the transmit-empty event where it is enabled, which is in `Auto` mode (43_uart_event_engine.md
R233). -/
theorem Uart.Consistent.loadShift : x.loadShift.Consistent := by
  unfold Uart.loadShift
  split
  · split
    · refine { h with txPending := fun ht => ?_ }
      obtain ht | ht := Bool.or_eq_true_iff.1 ht
      · exact h.txPending ht
      · exact beq_iff_eq.1 (h.txInterrupt.symm.trans ht)
    · exact h
  · exact h

theorem Uart.Consistent.shiftOut : x.shiftOut.Consistent := by
  unfold Uart.shiftOut
  split
  · exact { h with }
  · exact h

/-- A received byte raises no event, for the receive interrupt is never enabled (R232, R235). -/
theorem Uart.Consistent.receive (b : Byte) (keepOld : Bool) : (x.receive b keepOld).Consistent := by
  unfold Uart.receive
  split
  · exact { h with rxQuiet := by simp [h.rxQuiet, h.rxInterrupt] }
  · exact h

end

/-- No operation on a unit's context writes the unit index (10_state.md R30). -/
theorem Uart.loadShift_registerBase (x : Uart) : x.loadShift.registerBase = x.registerBase := by
  unfold Uart.loadShift
  repeat' split
  all_goals rfl

theorem Uart.shiftOut_registerBase (x : Uart) : x.shiftOut.registerBase = x.registerBase := by
  unfold Uart.shiftOut
  split <;> rfl

theorem Uart.receive_registerBase (x : Uart) (b : Byte) (keepOld : Bool) :
    (x.receive b keepOld).registerBase = x.registerBase := by
  unfold Uart.receive
  split <;> rfl

/-! ### The state -/

section
variable {s : State} (h : s.Consistent)
include h

/-- The model's own bookkeeping is no part of the invariant. -/
theorem State.Consistent.setBookkeeping (prog : List ForegroundOp) (ts : List Turn) :
    ({ s with program := prog, turns := ts } : State).Consistent := { h with }

theorem State.Consistent.setI2cAndMem {c : I2c} {m : Memory} (hm : m.wf = true)
    (hc : s.fault = none → c.Consistent s.params) : ({ s with i2c := c, mem := m } : State).Consistent :=
  { h with memory := hm, i2c := hc }

theorem State.Consistent.withI2c {c : I2c} (hc : s.fault = none → c.Consistent s.params) :
    (s.withI2c c).Consistent := h.setI2cAndMem h.memory hc

/-- A unit's context is replaced by a consistent one of the same unit. -/
theorem State.Consistent.withUart {u : Byte} {x y : Uart} (hx : s.uart? u = some x)
    (hbase : y.registerBase = x.registerBase) (hy : s.fault = none → y.Consistent) : (s.withUart u y).Consistent where
  memory := h.memory
  table := h.table
  units := by simpa using h.units
  bases k hk := by
    have hk' : k < s.uarts.length := by simpa using hk
    simp only [State.withUart_uarts, List.getElem_set]
    split
    · rename_i hu
      subst hu
      have hget : s.uarts[u.toNat] = x := by simpa [State.uart?, List.getElem?_eq_getElem hk'] using hx
      rw [hbase, ← hget]
      exact h.bases _ hk'
    · exact h.bases k hk'
  i2c := h.i2c
  uart hf z hz := by
    obtain hz | rfl := List.mem_or_eq_of_mem_set hz
    · exact h.uart hf z hz
    · exact hy hf

/-- After misuse the invariant promises what R262 keeps: a canonical memory, the parameters and the units (log entry
2). -/
theorem State.Consistent.raiseMisuse (m : Misuse) : (s.raiseMisuse m).Consistent where
  memory := Memory.wf_ofCells _
  table := h.table
  units := by simpa using h.units
  bases k hk := by
    have hk' : k < s.uarts.length := by simpa using hk
    simpa [Uart.unspecify] using h.bases k hk'
  i2c hf := by cases hf
  uart hf := by cases hf

end

/-- Drawing again after misuse is misuse with the name already recorded. -/
theorem State.unspecify_eq_raiseMisuse {s : State} {m : Misuse} (hf : s.fault = some m) :
    s.unspecify = s.raiseMisuse m := by
  unfold State.raiseMisuse
  rw [← hf]
  rfl

/-- A step of a line keeps the invariant when its change of the unit's context does. -/
theorem State.Consistent.lineStep {s : State} (h : s.Consistent) {f : Uart → Uart} (u : Byte)
    (hbase : ∀ x, (f x).registerBase = x.registerBase) (hf : ∀ x, x.Consistent → (f x).Consistent) :
    (s.lineStep u f).Consistent := by
  obtain hl | ⟨x, hx, hl⟩ := s.lineStep_cases u f <;> rw [hl]
  · exact h
  · exact h.withUart hx (hbase x) fun hs => hf x (h.uart hs x (State.mem_of_uart? hx))

/-- The body of the TX-empty handler keeps the invariant (43_uart_event_engine.md R231): a stream that is outstanding
has room for the cursor to move. -/
theorem State.Consistent.streamNextByte {s : State} (h : s.Consistent) {u : Byte} {x y : Uart}
    (hx : s.uart? u = some x) (hbase : y.registerBase = x.registerBase) (hy : s.fault = none → y.Consistent) :
    (s.streamNextByte u y).Consistent := by
  have advanced : y.streamActive = true → s.fault = none → y.txBuf.advance.Ordered := by
    intro ha hs
    obtain ⟨-, hx⟩ := y.streamActive_iff.1 ha
    exact (hy hs).ordered.advance hx
  obtain ⟨-, hn⟩ | ⟨ha, -, hn⟩ | ⟨-, -, -, hn⟩ | ⟨ha, -, -, hn⟩ := s.streamNextByte_cases u y <;> rw [hn]
  · exact h.withUart hx hbase hy
  · exact h.withUart hx hbase fun hs => (hy hs).setStream (advanced ha hs) y.txData
  · exact h.raiseMisuse _
  · exact h.withUart hx hbase fun hs => (hy hs).setStream (advanced ha hs) _

/-- Handling an event keeps the invariant: the memory stays canonical, and the action ends in a consistent context. -/
theorem State.Consistent.handleEvent {s : State} (h : s.Consistent) {e : BusEvent} (he : s.i2c.event = some e)
    (a : Config.Action) : ((s.withI2c (s.i2c.enterHandler e.status)).performAction a).Consistent := by
  have hc : s.fault = none →
      ((s.withI2c (s.i2c.enterHandler e.status)).performAction a).i2c.Consistent s.params :=
    fun hf => State.performAction_consistent ((h.i2c hf).enterHandler he) s.params a
  obtain ⟨c, m, hr, hm⟩ := (s.withI2c (s.i2c.enterHandler e.status)).performAction_frame a
  rw [hr] at hc ⊢
  have hwf : m.wf = true := by
    obtain rfl | rfl := hm
    · exact h.memory
    · exact Memory.wf_write _ _ h.memory
  exact h.setI2cAndMem hwf hc

/-- Every effect of a step keeps the invariant. -/
theorem Effect.consistent {s t : State} {tn : Turn} (he : Effect s tn t) (h : s.Consistent) : t.Consistent := by
  have unit : ∀ {u : Byte} {x : Uart}, s.uart? u = some x → s.fault = none → x.Consistent :=
    fun hx hf => h.uart hf _ (State.mem_of_uart? hx)
  cases he with
  | stay => exact h
  | refuse => exact { h with }
  | misuse _ m => exact h.raiseMisuse m
  | answer => exact { h with }
  | memWrite a v => exact { h with memory := Memory.wf_write a v h.memory }
  | i2cInit n hb => exact h.withI2c fun hf => (h.i2c hf).initialise hb n
  | i2cStart e d a f b l hd hl hi hen =>
    refine h.withI2c fun hf => (h.i2c hf).startTransaction ?_ hl hi hen
    obtain ⟨rfl, -⟩ | ⟨rfl, -⟩ := hd <;> simp
  | uartInit u x d config txm rxm hx hb hr => exact h.withUart hx rfl fun _ => Uart.configure_consistent hb hr d
  | sendManual u b x hx => exact h.withUart hx rfl fun hf => (unit hx hf).setStream (unit hx hf).ordered (some b)
  | sendAuto u x b l v hx hl =>
    exact h.withUart hx rfl fun hf => (unit hx hf).setStream (TransferBuffer.fresh_ordered hl) v
  | fetch u x hx =>
    have hfetched := h.withUart (y := { x with rxFull := false }) hx rfl fun hf => { unit hx hf with }
    exact { hfetched with }
  | i2cEvent e _ hev => exact h.handleEvent hev _
  | txEvent u x _ hx => exact h.streamNextByte hx rfl fun hf => (unit hx hf).clearTxEvent
  | rxEvent u x hx => exact h.withUart hx rfl fun hf => { unit hx hf with rxQuiet := rfl }
  | bus code b =>
    obtain hb | ⟨k, hk, -, hb⟩ := s.busStep_cases code b <;> rw [hb]
    · exact h
    · exact h.withI2c fun hf => (h.i2c hf).answer hk code b
  | lineLoad u => exact h.lineStep u Uart.loadShift_registerBase fun _ => Uart.Consistent.loadShift
  | lineShift u => exact h.lineStep u Uart.shiftOut_registerBase fun _ => Uart.Consistent.shiftOut
  | lineReceive u b k =>
    exact h.lineStep u (fun x => x.receive_registerBase b k) fun _ hx => hx.receive b k
  | platform => exact { h with }

/-- Settles O55: by cases on the effect; after misuse only what R262 keeps is promised. -/
theorem everyStepKeepsConsistency : Obligations.EveryStepKeepsConsistency := by
  intro s t h hs
  cases hf : s.fault with
  | some m =>
    obtain ⟨p, ts, rfl⟩ := step_misused hf hs
    rw [State.unspecify_eq_raiseMisuse hf]
    exact (h.raiseMisuse m).setBookkeeping p ts
  | none =>
    obtain ⟨tn, ts, t', p, -, he, rfl⟩ := step_effect hf hs
    exact (he.consistent (h.setBookkeeping s.program ts)).setBookkeeping p t'.turns

/-! ### Reset -/

theorem I2c.reset_consistent (p : Config.Params) : I2c.reset.Consistent p where
  notError := nofun
  idleQuiet _ := ⟨rfl, rfl⟩
  busyArmed hn := absurd rfl hn
  flagsReserved := rfl
  ordered := TransferBuffer.zero_ordered
  eventFields := nofun

theorem I2c.reset_conforming (t : Config.StatusTable) : I2c.reset.Conforming t where
  writeDirection := nofun
  readDirection := nofun
  command := nofun
  event := nofun

theorem Uart.reset_consistent (u : Nat) : (Uart.reset u).Consistent where
  ordered := TransferBuffer.zero_ordered
  txEnable := rfl
  txInterrupt := rfl
  txPending := nofun
  rxEnable := rfl
  rxNotAuto := nofun
  rxInterrupt := rfl
  rxQuiet := rfl

/-- The block is consistent after reset with any table that tells the phases apart and at least one unit. -/
theorem State.resetWith_consistent {p : Config.Params} {n : Nat} (hp : statusTableWf p.statusTable = true)
    (hn : 0 < n) : (State.resetWith p n).Consistent where
  memory := rfl
  table := hp
  units := by simpa [State.resetWith] using hn
  bases k hk := by simp [State.resetWith, Uart.reset]
  i2c _ := I2c.reset_consistent p
  uart _ x hx := by
    obtain ⟨u, -, rfl⟩ := List.mem_map.1 hx
    exact Uart.reset_consistent u

/-- Settles O54, with the default table and one unit. -/
theorem resetIsConsistent : Obligations.ResetIsConsistent :=
  ⟨State.resetWith_consistent defaultStatusTable_wf Nat.one_pos, I2c.reset_conforming _⟩

end Sys2Proof.Machine
end

