-- ==== Sys2Proof/Proofs/UnreadFields.lean ====
section
/-!
PROOFS. The fields no rule reads have no effect on any step (10_state.md R25, R30; 41_i2c_event_engine.md R161;
70_reset_and_hazards.md R314).

Each operation of the model is shown to answer alike, up to the unread fields, on a state and on the state with those
fields erased. Two states with the same erasure then step alike, for both step like their erasure.
-/

namespace Sys2Proof.Machine

open Sys2Proof

/-! ### Erasing the unread fields -/

/-- The part of `State.eraseUnread` that concerns the I2C context. -/
def I2c.eraseUnread (c : I2c) : I2c := { c with flags := c.flags &&& 0xFD, bitRate := 0, trace := [] }

/-- The part of `State.eraseUnread` that concerns a UART context. -/
def Uart.eraseUnread (x : Uart) : Uart :=
  { x with divisor := 0, doubleSpeed := false, stopBits := .one, lineOut := [], receiveBuffer := .zero }

theorem State.eraseUnread_eq (s : State) :
    s.eraseUnread = { s with i2c := s.i2c.eraseUnread, uarts := s.uarts.map Uart.eraseUnread } := rfl

@[simp] theorem I2c.eraseUnread_idem (c : I2c) : c.eraseUnread.eraseUnread = c.eraseUnread := by
  simp [I2c.eraseUnread, BitVec.and_assoc]

@[simp] theorem Uart.eraseUnread_idem (x : Uart) : x.eraseUnread.eraseUnread = x.eraseUnread := rfl

@[simp] theorem State.eraseUnread_idem (s : State) : s.eraseUnread.eraseUnread = s.eraseUnread := by
  simp [State.eraseUnread_eq, Function.comp_def]

/-- `HoldBus` is bit 0 of the flags, which the erasure keeps (30_encoding.md R94). -/
@[simp] theorem I2c.eraseUnread_holdBus (c : I2c) : c.eraseUnread.holdBus = c.holdBus := by
  simp [I2c.holdBus, I2c.eraseUnread]

theorem State.uart?_eraseUnread (s : State) (u : Byte) :
    s.eraseUnread.uart? u = (s.uart? u).map Uart.eraseUnread := by
  simp [State.uart?, State.eraseUnread_eq]

theorem State.spanOwned_eraseUnread (s : State) (a : Addr) : s.eraseUnread.spanOwned a = s.spanOwned a := by
  simp only [State.spanOwned, State.eraseUnread_eq, List.any_map]
  rfl

theorem State.txDeliverable_eraseUnread (s : State) (u : Byte) : s.eraseUnread.txDeliverable u = s.txDeliverable u := by
  simp only [State.txDeliverable, State.uart?_eraseUnread, Option.any_map]
  rfl

theorem State.rxDeliverable_eraseUnread (s : State) (u : Byte) : s.eraseUnread.rxDeliverable u = s.rxDeliverable u := by
  simp only [State.rxDeliverable, State.uart?_eraseUnread, Option.any_map]
  rfl

/-! ### Updates of the state -/

theorem State.withI2c_eraseUnread (s : State) {c c' : I2c} (h : c'.eraseUnread = c.eraseUnread) :
    (s.eraseUnread.withI2c c').eraseUnread = (s.withI2c c).eraseUnread := by
  have push : ∀ (s : State) (c : I2c), (s.withI2c c).eraseUnread = s.eraseUnread.withI2c c.eraseUnread :=
    fun _ _ => rfl
  rw [push, push, State.eraseUnread_idem, h]

theorem State.withUart_eraseUnread (s : State) (u : Byte) {x x' : Uart} (h : x'.eraseUnread = x.eraseUnread) :
    (s.eraseUnread.withUart u x').eraseUnread = (s.withUart u x).eraseUnread := by
  have push : ∀ (s : State) (x : Uart), (s.withUart u x).eraseUnread = s.eraseUnread.withUart u x.eraseUnread := by
    intro s x
    simp [State.eraseUnread_eq, State.withUart, List.map_set]
  rw [push, push, State.eraseUnread_idem, h]

theorem State.respond_eraseUnread {s s' : State} (h : s'.eraseUnread = s.eraseUnread) (v : Response) :
    (s'.respond v).eraseUnread = (s.respond v).eraseUnread :=
  congrArg (State.respond · v) h

theorem State.refuse_eraseUnread (s : State) : s.eraseUnread.refuse.eraseUnread = s.refuse.eraseUnread :=
  congrArg State.refuse s.eraseUnread_idem

/-- What a draw gives depends on the number of the draw and the unit indices alone (log entry 2). -/
theorem State.unspecify_eraseUnread (s : State) : s.eraseUnread.unspecify = s.unspecify := by
  simp only [State.unspecify, State.eraseUnread_eq, List.map_map]
  rfl

theorem State.raiseMisuse_eraseUnread (s : State) (m : Misuse) :
    (s.eraseUnread.raiseMisuse m).eraseUnread = (s.raiseMisuse m).eraseUnread := by
  simp only [State.raiseMisuse, State.unspecify_eraseUnread]

/-- Two branches that agree up to the unread fields agree whatever the condition, which is read alike. -/
theorem State.ite_eraseUnread {b : Prop} [Decidable b] {t t' e e' : State} (ht : t'.eraseUnread = t.eraseUnread)
    (he : e'.eraseUnread = e.eraseUnread) :
    (if b then t' else e').eraseUnread = (if b then t else e).eraseUnread := by
  split
  · exact ht
  · exact he

/-- An operation on a unit does not read the unit's unread fields when its body does not. -/
theorem State.onUnit_eraseUnread (s : State) (u : Byte) {f f' : Uart → State}
    (h : ∀ x, s.uart? u = some x → (f' x.eraseUnread).eraseUnread = (f x).eraseUnread) :
    (s.eraseUnread.onUnit u f').eraseUnread = (s.onUnit u f).eraseUnread := by
  cases hx : s.uart? u with
  | none =>
    have hx' : s.eraseUnread.uart? u = none := by simp [State.uart?_eraseUnread, hx]
    rw [State.onUnit_none hx, State.onUnit_none hx', State.refuse_eraseUnread]
  | some x =>
    have hx' : s.eraseUnread.uart? u = some x.eraseUnread := by simp [State.uart?_eraseUnread, hx]
    rw [State.onUnit_some hx, State.onUnit_some hx', h x hx]

/-! ### The I2C engine -/

/-- A drive command reads `busOwned` alone; the symbol it may add to the trace is erased. -/
theorem I2c.drive_eraseUnread (c : I2c) (d : DriveCommand) :
    (c.eraseUnread.drive d).eraseUnread = (c.drive d).eraseUnread := by
  cases d <;> simp [I2c.drive, I2c.eraseUnread, BitVec.and_assoc]

theorem I2c.complete_eraseUnread (c : I2c) : c.eraseUnread.complete.eraseUnread = c.complete.eraseUnread := by
  simp only [I2c.complete, I2c.eraseUnread_holdBus]
  exact I2c.drive_eraseUnread { c with state := .idle } _

theorem I2c.abort_eraseUnread (c : I2c) : c.eraseUnread.abort.eraseUnread = c.abort.eraseUnread :=
  I2c.drive_eraseUnread { c with state := .idle } .stop

theorem I2c.armReceive_eraseUnread (c : I2c) : c.eraseUnread.armReceive.eraseUnread = c.armReceive.eraseUnread := by
  have hp : c.eraseUnread.buf.progress = c.buf.progress := rfl
  simp only [I2c.armReceive, hp]
  repeat' split
  · exact c.complete_eraseUnread
  · exact c.drive_eraseUnread _
  · exact c.drive_eraseUnread _

/-- An answer of the bus writes the bus side and the data register; the symbol it adds to the trace is erased. -/
theorem I2c.setBusSide_eraseUnread (c : I2c) (dr : Byte) (owned phase : Bool) (trace trace' : List BusSymbol) :
    ({ c.eraseUnread with dr := dr, busOwned := owned, addrPhase := phase, trace := trace' } : I2c).eraseUnread =
      ({ c with dr := dr, busOwned := owned, addrPhase := phase, trace := trace } : I2c).eraseUnread := by
  simp [I2c.eraseUnread, BitVec.and_assoc]

/-- An answer of the conforming table reads the bus side and the data register (41_i2c_event_engine.md R158). -/
theorem I2c.conformingAnswer_eraseUnread (c : I2c) (k : BusCommand) (phase : Option Config.StatusPhase) (b : Byte) :
    (c.eraseUnread.conformingAnswer k phase b).map I2c.eraseUnread =
      (c.conformingAnswer k phase b).map I2c.eraseUnread := by
  have answered : ∀ dr owned phase trace trace',
      some ({ c.eraseUnread with dr := dr, busOwned := owned, addrPhase := phase, trace := trace' } : I2c).eraseUnread =
        some ({ c with dr := dr, busOwned := owned, addrPhase := phase, trace := trace } : I2c).eraseUnread :=
    fun dr owned phase trace trace' => congrArg some (c.setBusSide_eraseUnread dr owned phase trace trace')
  have owned : c.eraseUnread.busOwned = c.busOwned := rfl
  have sendAck : ∀ p, c.eraseUnread.sendAck? p = c.sendAck? p := fun _ => rfl
  simp only [I2c.conformingAnswer, owned, sendAck]
  split
  · split
    · rfl
    · exact answered _ _ _ _ _
  · split
    · exact answered _ _ _ _ _
    · rfl
  · exact answered _ _ _ _ _
  · rfl
  · exact answered _ _ _ _ _
  · exact answered _ _ _ _ _
  · rename_i p _ _
    cases c.sendAck? p with
    | none => rfl
    | some a => exact answered _ _ _ _ _
  · exact answered _ _ _ _ _
  · exact answered _ _ _ _ _
  · rfl

/-- Raising the event reads the data register, which the erasure keeps. -/
theorem I2c.raiseEvent_eraseUnread {c c' : I2c} (h : c'.eraseUnread = c.eraseUnread) (code : Byte) (presc : BitVec 3) :
    (c'.raiseEvent code presc).eraseUnread = (c.raiseEvent code presc).eraseUnread :=
  congrArg (I2c.raiseEvent · code presc) h

theorem I2c.answer_eraseUnread (c : I2c) (p : Config.Params) (k : BusCommand) (code b : Byte) :
    (c.eraseUnread.answer p k code b).eraseUnread = (c.answer p k code b).eraseUnread := by
  have hc := c.conformingAnswer_eraseUnread k (statusPhase? p.statusTable code) b
  unfold I2c.answer
  dsimp only
  generalize c.eraseUnread.conformingAnswer k (statusPhase? p.statusTable code) b = o' at hc
  generalize c.conformingAnswer k (statusPhase? p.statusTable code) b = o at hc
  cases o <;> cases o' <;> simp only [Option.map_none, Option.map_some, Option.some.injEq, reduceCtorEq] at hc
  case none.none =>
    dsimp only
    split
    · exact c.eraseUnread_idem
    · exact I2c.raiseEvent_eraseUnread (c.setBusSide_eraseUnread _ _ _ _ _) _ _
  case some.some => exact I2c.raiseEvent_eraseUnread hc _ _

/-! ### The actions of the I2C handler -/

theorem State.performAction_eraseUnread (s : State) (a : Config.Action) :
    (s.eraseUnread.performAction a).eraseUnread = (s.performAction a).eraseUnread := by
  cases a with
  | a1 => exact s.withI2c_eraseUnread (I2c.drive_eraseUnread { s.i2c with dr := s.i2c.sla } _)
  | a2 =>
    refine State.ite_eraseUnread (s.withI2c_eraseUnread s.i2c.complete_eraseUnread) (s.withI2c_eraseUnread ?_)
    exact I2c.drive_eraseUnread (I2c.advance { s.i2c with dr := s.mem.read s.i2c.buf.cursor }) _
  | a3 => exact s.withI2c_eraseUnread s.i2c.complete_eraseUnread
  | a4 => exact s.withI2c_eraseUnread s.i2c.armReceive_eraseUnread
  | a5 => exact s.withI2c_eraseUnread s.i2c.abort_eraseUnread
  | a6 =>
    refine State.ite_eraseUnread (s.withI2c_eraseUnread s.i2c.abort_eraseUnread) ?_
    exact s.storeReceived.withI2c_eraseUnread s.i2c.advance.armReceive_eraseUnread
  | a7 =>
    refine State.ite_eraseUnread (s.withI2c_eraseUnread s.i2c.abort_eraseUnread) ?_
    exact s.storeReceived.withI2c_eraseUnread s.i2c.advance.complete_eraseUnread
  | a8 => exact s.withI2c_eraseUnread s.i2c.abort_eraseUnread

theorem State.startTransaction_eraseUnread (s : State) (e : EngineState) (d : BitVec 1) (a f : Byte) (b l : Addr) :
    (s.eraseUnread.startTransaction e d a f b l).eraseUnread = (s.startTransaction e d a f b l).eraseUnread := by
  refine State.ite_eraseUnread s.refuse_eraseUnread (State.ite_eraseUnread (s.raiseMisuse_eraseUnread _)
    (State.ite_eraseUnread (s.raiseMisuse_eraseUnread _) (s.withI2c_eraseUnread ?_)))
  rfl

/-! ### The foreground's reads and writes -/

theorem State.readProgress_eraseUnread (s : State) (g : ProgressTarget) (p : Addr) :
    (s.eraseUnread.readProgress g p).eraseUnread = (s.readProgress g p).eraseUnread := by
  have hparams : s.eraseUnread.params = s.params := rfl
  have hsplit : s.eraseUnread.split = s.split := rfl
  have sets : ∀ (sp : Option SplitRead) (r : Option Response),
      ({ s.eraseUnread with split := sp, response := r } : State).eraseUnread =
        ({ s with split := sp, response := r } : State).eraseUnread :=
    fun sp r => congrArg (fun t : State => { t with split := sp, response := r }) s.eraseUnread_idem
  have begins : (s.eraseUnread.beginSplit g p).eraseUnread = (s.beginSplit g p).eraseUnread := by
    simp only [State.beginSplit, hparams]
    split <;> exact sets _ s.response
  have finishes : ∀ first, (s.eraseUnread.finishSplit first p).eraseUnread = (s.finishSplit first p).eraseUnread := by
    intro first
    simp only [State.finishSplit, hparams]
    split <;> exact sets _ _
  simp only [State.readProgress, hparams, hsplit]
  refine State.ite_eraseUnread (State.respond_eraseUnread s.eraseUnread_idem _) ?_
  split
  · exact begins
  · exact State.ite_eraseUnread (finishes _) begins

theorem State.foregroundRead_eraseUnread (s : State) (a : Addr) :
    (s.eraseUnread.foregroundRead a).eraseUnread = (s.foregroundRead a).eraseUnread := by
  simp only [State.foregroundRead, State.spanOwned_eraseUnread]
  exact State.ite_eraseUnread (s.raiseMisuse_eraseUnread _) (State.respond_eraseUnread s.eraseUnread_idem _)

theorem State.foregroundWrite_eraseUnread (s : State) (a : Addr) (v : Byte) :
    (s.eraseUnread.foregroundWrite a v).eraseUnread = (s.foregroundWrite a v).eraseUnread := by
  simp only [State.foregroundWrite, State.spanOwned_eraseUnread]
  exact State.ite_eraseUnread (s.raiseMisuse_eraseUnread _)
    (congrArg (fun t : State => { t with mem := s.mem.write a v }) s.eraseUnread_idem)

/-! ### The UART units -/

theorem State.streamNextByte_eraseUnread (s : State) (u : Byte) (x : Uart) :
    (s.eraseUnread.streamNextByte u x.eraseUnread).eraseUnread = (s.streamNextByte u x).eraseUnread :=
  State.ite_eraseUnread (s.withUart_eraseUnread u rfl) (State.ite_eraseUnread (s.withUart_eraseUnread u rfl)
    (State.ite_eraseUnread (s.raiseMisuse_eraseUnread _) (s.withUart_eraseUnread u rfl)))

theorem Uart.loadShift_eraseUnread (x : Uart) : x.eraseUnread.loadShift.eraseUnread = x.loadShift.eraseUnread := by
  have hc : (x.eraseUnread.txEn && x.eraseUnread.txShift.isNone) = (x.txEn && x.txShift.isNone) := rfl
  have hd : x.eraseUnread.txData = x.txData := rfl
  simp only [Uart.loadShift, hc, hd]
  split
  · split <;> rfl
  · rfl

/-- The byte shifted out goes to the line's output, which is erased. -/
theorem Uart.shiftOut_eraseUnread (x : Uart) : x.eraseUnread.shiftOut.eraseUnread = x.shiftOut.eraseUnread := by
  have hd : x.eraseUnread.txShift = x.txShift := rfl
  simp only [Uart.shiftOut, hd]
  split <;> rfl

theorem Uart.receive_eraseUnread (x : Uart) (b : Byte) (keepOld : Bool) :
    (x.eraseUnread.receive b keepOld).eraseUnread = (x.receive b keepOld).eraseUnread := by
  have hd : x.eraseUnread.rxEn = x.rxEn := rfl
  simp only [Uart.receive, hd]
  split <;> rfl

theorem State.lineStep_eraseUnread (s : State) (u : Byte) {f : Uart → Uart}
    (h : ∀ x, (f x.eraseUnread).eraseUnread = (f x).eraseUnread) :
    (s.eraseUnread.lineStep u f).eraseUnread = (s.lineStep u f).eraseUnread := by
  simp only [State.lineStep, State.uart?_eraseUnread]
  cases s.uart? u with
  | none => exact s.eraseUnread_idem
  | some x => exact s.withUart_eraseUnread u (h x)

theorem State.busStep_eraseUnread (s : State) (code b : Byte) :
    (s.eraseUnread.busStep code b).eraseUnread = (s.busStep code b).eraseUnread := by
  have hk : s.eraseUnread.i2c.cmd = s.i2c.cmd := rfl
  simp only [State.busStep, hk]
  split
  · exact s.eraseUnread_idem
  · exact State.ite_eraseUnread (s.withI2c_eraseUnread (s.i2c.answer_eraseUnread _ _ _ _)) s.eraseUnread_idem

/-! ### Outcomes -/

/-- Two outcomes whose next states differ in unread fields only. -/
def AlikeButUnread (o o' : Host.Outcome State Fault Refusal) : Prop :=
  mapNext State.eraseUnread o = mapNext State.eraseUnread o'

theorem alikeButUnread_next {t t' : State} : AlikeButUnread (.next t) (.next t') ↔ t.eraseUnread = t'.eraseUnread :=
  ⟨fun h => by injection h, fun h => congrArg Host.Outcome.next h⟩

/-- A meaning answers alike when its effect does; after misuse it draws alike. -/
theorem State.perform_eraseUnread (s : State) {f : State → State}
    (h : (f s.eraseUnread).eraseUnread = (f s).eraseUnread) :
    AlikeButUnread (s.eraseUnread.perform f) (s.perform f) :=
  alikeButUnread_next.2 (State.ite_eraseUnread (congrArg State.eraseUnread s.unspecify_eraseUnread) h)

/-- What an operation answers does not depend on the unread fields. -/
theorem exec_eraseUnread (i : Instr) (s : State) : AlikeButUnread (exec i s.eraseUnread) (exec i s) := by
  have action : ∀ a, AlikeButUnread (s.eraseUnread.perform (·.performAction a)) (s.perform (·.performAction a)) :=
    fun a => s.perform_eraseUnread (s.performAction_eraseUnread a)
  cases i with
  | i2cInit cpuClockHz bitRate =>
    refine s.perform_eraseUnread (State.ite_eraseUnread s.refuse_eraseUnread
      (State.ite_eraseUnread (s.raiseMisuse_eraseUnread _) (s.withI2c_eraseUnread ?_)))
    simp [I2c.eraseUnread, State.eraseUnread_eq, BitVec.and_assoc]
  | i2cStartWrite => exact s.perform_eraseUnread (s.startTransaction_eraseUnread _ _ _ _ _ _)
  | i2cStartRead => exact s.perform_eraseUnread (s.startTransaction_eraseUnread _ _ _ _ _ _)
  | i2cGetState => exact s.perform_eraseUnread (State.respond_eraseUnread s.eraseUnread_idem _)
  | i2cGetStatus => exact s.perform_eraseUnread (State.respond_eraseUnread s.eraseUnread_idem _)
  | i2cGetProgress => exact s.perform_eraseUnread (s.readProgress_eraseUnread _ _)
  | uartInit u cpuClockHz baud config =>
    refine s.perform_eraseUnread (s.onUnit_eraseUnread u fun x _ =>
      State.ite_eraseUnread s.refuse_eraseUnread ?_)
    split
    · refine State.ite_eraseUnread (s.raiseMisuse_eraseUnread _) ?_
      split
      · exact s.withUart_eraseUnread u rfl
      · exact s.refuse_eraseUnread
    · exact s.refuse_eraseUnread
  | uartSendReady u =>
    exact s.perform_eraseUnread (s.onUnit_eraseUnread u fun x _ => State.respond_eraseUnread s.eraseUnread_idem _)
  | uartSendManual u b =>
    exact s.perform_eraseUnread (s.onUnit_eraseUnread u fun x _ =>
      State.ite_eraseUnread (s.raiseMisuse_eraseUnread _) (State.ite_eraseUnread (s.raiseMisuse_eraseUnread _)
        (State.ite_eraseUnread (s.raiseMisuse_eraseUnread _) (s.withUart_eraseUnread u rfl))))
  | uartSendAuto u b l =>
    exact s.perform_eraseUnread (s.onUnit_eraseUnread u fun x _ =>
      State.ite_eraseUnread s.refuse_eraseUnread (State.ite_eraseUnread (s.raiseMisuse_eraseUnread _)
        (State.ite_eraseUnread (s.raiseMisuse_eraseUnread _) (State.ite_eraseUnread (s.raiseMisuse_eraseUnread _)
          (s.withUart_eraseUnread u rfl)))))
  | uartSendAutoProgress u =>
    exact s.perform_eraseUnread (s.onUnit_eraseUnread u fun x _ => s.readProgress_eraseUnread _ _)
  | uartReceiveReady u =>
    exact s.perform_eraseUnread (s.onUnit_eraseUnread u fun x _ => State.respond_eraseUnread s.eraseUnread_idem _)
  | uartReceiveFetch u =>
    refine s.perform_eraseUnread (s.onUnit_eraseUnread u fun x _ =>
      State.ite_eraseUnread (s.raiseMisuse_eraseUnread _) (State.respond_eraseUnread (s.withUart_eraseUnread u ?_) _))
    rfl
  | i2cEvent status data =>
    refine s.perform_eraseUnread (State.ite_eraseUnread ?_ s.eraseUnread_idem)
    exact (s.withI2c (s.i2c.enterHandler status)).performAction_eraseUnread _
  | uartTxEmptyEvent u =>
    refine s.perform_eraseUnread (s.onUnit_eraseUnread u fun x _ => ?_)
    simp only [State.txDeliverable_eraseUnread]
    exact State.ite_eraseUnread (s.streamNextByte_eraseUnread u { x with txEvt := false }) s.eraseUnread_idem
  | uartRxDataEvent u =>
    refine s.perform_eraseUnread (s.onUnit_eraseUnread u fun x _ => ?_)
    simp only [State.rxDeliverable_eraseUnread]
    exact State.ite_eraseUnread (s.withUart_eraseUnread u rfl) s.eraseUnread_idem
  | statusStart | statusRepStart => exact action .a1
  | statusSlaWAck | statusDataWAck => exact action .a2
  | statusSlaWNack | statusDataWNack => exact action .a3
  | statusSlaRAck => exact action .a4
  | statusSlaRNack => exact action .a5
  | statusDataRAck => exact action .a6
  | statusDataRNack => exact action .a7
  | statusArbLost | statusBusError | statusNoInfo | statusOther => exact action .a8

/-! ### The agents -/

theorem State.issue_eraseUnread (s : State) (op : ForegroundOp) :
    AlikeButUnread (s.eraseUnread.issue op) (s.issue op) := by
  cases op with
  | command words =>
    have ht : s.eraseUnread.params = s.params := rfl
    simp only [State.issue, ht]
    split
    · exact exec_eraseUnread _ s
    · exact s.perform_eraseUnread s.refuse_eraseUnread
  | memRead a => exact s.perform_eraseUnread (s.foregroundRead_eraseUnread a)
  | memWrite a v => exact s.perform_eraseUnread (s.foregroundWrite_eraseUnread a v)

/-- Whether the foreground moves on depends on the split reads alone (20_memory.md R78). -/
theorem State.retire_eraseUnread (s : State) (rest : List ForegroundOp) (t : State) :
    (s.retire rest t).eraseUnread = s.retire rest t.eraseUnread := by
  have hs : t.eraseUnread.split = t.split := rfl
  simp only [State.retire, hs]
  split <;> rfl

theorem State.foregroundStep_eraseUnread (s : State) :
    AlikeButUnread s.eraseUnread.foregroundStep s.foregroundStep := by
  have hp : s.eraseUnread.program = s.program := rfl
  simp only [State.foregroundStep, hp]
  split
  · exact s.perform_eraseUnread s.eraseUnread_idem
  · rename_i op rest _
    have retired : ∀ o : Host.Outcome State Fault Refusal,
        mapNext State.eraseUnread (mapNext (s.retire rest) o) =
          mapNext (s.retire rest) (mapNext State.eraseUnread o) := by
      intro o
      cases o with
      | next t => exact congrArg Host.Outcome.next (s.retire_eraseUnread rest t)
      | fault => rfl
      | refused => rfl
    exact (retired _).trans ((congrArg (mapNext (s.retire rest)) (s.issue_eraseUnread op)).trans (retired _).symm)

/-- The events pending and `gie` are no unread fields. -/
theorem State.eventWords_eraseUnread (s : State) (tn : Turn) : s.eraseUnread.eventWords tn = s.eventWords tn := by
  cases tn with
  | txHandler u => simp only [State.eventWords, State.txDeliverable_eraseUnread]
  | rxHandler u => simp only [State.eventWords, State.rxDeliverable_eraseUnread]
  | _ => rfl

theorem State.handlerStep_eraseUnread (s : State) (tn : Turn) :
    AlikeButUnread (s.eraseUnread.handlerStep tn) (s.handlerStep tn) := by
  have ht : s.eraseUnread.params = s.params := rfl
  simp only [State.handlerStep, State.eventWords_eraseUnread, ht]
  split
  · exact s.perform_eraseUnread s.eraseUnread_idem
  · split
    · exact exec_eraseUnread _ s
    · exact s.perform_eraseUnread s.eraseUnread_idem

theorem State.turnStep_eraseUnread (s : State) (tn : Turn) :
    AlikeButUnread (s.eraseUnread.turnStep tn) (s.turnStep tn) := by
  cases tn with
  | foreground => exact s.foregroundStep_eraseUnread
  | i2cHandler => exact s.handlerStep_eraseUnread _
  | txHandler u => exact s.handlerStep_eraseUnread _
  | rxHandler u => exact s.handlerStep_eraseUnread _
  | bus code b => exact s.perform_eraseUnread (s.busStep_eraseUnread code b)
  | lineLoad u => exact s.perform_eraseUnread (s.lineStep_eraseUnread u Uart.loadShift_eraseUnread)
  | lineShift u => exact s.perform_eraseUnread (s.lineStep_eraseUnread u Uart.shiftOut_eraseUnread)
  | lineReceive u b keepOld =>
    exact s.perform_eraseUnread (s.lineStep_eraseUnread u fun x => x.receive_eraseUnread b keepOld)
  | platform g =>
    exact s.perform_eraseUnread (congrArg (fun t : State => { t with gie := g }) s.eraseUnread_idem)

/-- A state and its erasure step alike. -/
theorem step_eraseUnread (s : State) : AlikeButUnread (step s.eraseUnread) (step s) := by
  have ht : s.eraseUnread.turns = s.turns := rfl
  simp only [step, ht]
  split
  · exact s.foregroundStep_eraseUnread
  · rename_i tn rest _
    exact State.turnStep_eraseUnread { s with turns := rest } tn

/-- Settles O59: both states step like their common erasure. -/
theorem unreadFieldsHaveNoEffect : Obligations.UnreadFieldsHaveNoEffect := by
  intro s s' t t' he hs hs'
  have h := step_eraseUnread s
  have h' := step_eraseUnread s'
  rw [hs] at h
  rw [← he, hs'] at h'
  exact alikeButUnread_next.1 (h.symm.trans h')

end Sys2Proof.Machine
end

