-- ==== Sys2Proof/Proofs/CallerMemory.lean ====
section
/-!
PROOFS. The caller's memory as an array of bytes (20_memory.md R70): what a write leaves to be read, that two memories
in canonical form which read alike are the same list of cells, and where a step writes (R72, R76).

The idea for the canonical form: the head of a canonical list is the lowest address that reads as something else than an
unlisted byte, so lists that read alike have the same head, and below their heads they still read alike.
-/

namespace Sys2Proof.Machine

open Sys2Proof

/-- The byte written is read back. -/
theorem Memory.read_write_self {m : Memory} (a : Addr) (v : Byte) (hm : m.wf = true) : (m.write a v).read a = v :=
  Memory.readAt_writeAt_self v hm

/-- A write is seen at its own address only. -/
theorem Memory.eq_of_read_write_ne {m : Memory} {a b : Addr} {v : Byte} (h : (m.write a v).read b ≠ m.read b) :
    b = a := by
  by_contra hne
  exact h (Memory.read_write_other m v fun e => hne e.symm)

/-! ### The canonical form -/

theorem Memory.wfFrom_cons {lo : Nat} {c : Host.Cell} {rest : Memory} :
    Memory.wfFrom lo (c :: rest) = true ↔
      lo ≤ c.1 ∧ c.1 < 2 ^ 16 ∧ c.2 ≠ Config.unlistedByte ∧ Memory.wfFrom (c.1 + 1) rest = true := by
  simp [Memory.wfFrom, and_assoc]

theorem Memory.readAt_head (c : Host.Cell) (rest : Memory) : Memory.readAt (c :: rest) c.1 = c.2 :=
  if_pos rfl

theorem Memory.readAt_tail {c : Host.Cell} {a : Nat} (rest : Memory) (h : c.1 ≠ a) :
    Memory.readAt (c :: rest) a = Memory.readAt rest a :=
  if_neg h

/-- The head of a canonical list reads otherwise in any list that begins above it. -/
theorem Memory.readAt_head_ne {lo hi : Nat} {c : Host.Cell} {rest m : Memory}
    (hc : Memory.wfFrom lo (c :: rest) = true) (hm : Memory.wfFrom hi m = true) (h : c.1 < hi) :
    Memory.readAt (c :: rest) c.1 ≠ Memory.readAt m c.1 := by
  obtain ⟨-, -, hv, -⟩ := Memory.wfFrom_cons.1 hc
  rwa [Memory.readAt_head, Memory.readAt_of_wfFrom hm h]

/-- Canonical lists that read alike below 2^16 are equal. -/
theorem Memory.eq_of_readAt_eq {lo : Nat} {m m' : Memory} (hm : Memory.wfFrom lo m = true)
    (hm' : Memory.wfFrom lo m' = true) (h : ∀ a < 2 ^ 16, Memory.readAt m a = Memory.readAt m' a) : m = m' := by
  induction m generalizing lo m' with
  | nil =>
    cases m' with
    | nil => rfl
    | cons c' rest' =>
      obtain ⟨-, hb', -, -⟩ := Memory.wfFrom_cons.1 hm'
      exact absurd (h c'.1 hb').symm (Memory.readAt_head_ne (hi := c'.1 + 1) hm' rfl (by omega))
  | cons c rest ih =>
    obtain ⟨-, hb, hv, hr⟩ := Memory.wfFrom_cons.1 hm
    cases m' with
    | nil => exact absurd (h c.1 hb) (Memory.readAt_head_ne (hi := c.1 + 1) hm rfl (by omega))
    | cons c' rest' =>
      obtain ⟨-, hb', hv', hr'⟩ := Memory.wfFrom_cons.1 hm'
      have above : Memory.wfFrom c.1 (c :: rest) = true := Memory.wfFrom_cons.2 ⟨le_rfl, hb, hv, hr⟩
      have above' : Memory.wfFrom c'.1 (c' :: rest') = true := Memory.wfFrom_cons.2 ⟨le_rfl, hb', hv', hr'⟩
      obtain hlt | heq | hgt := lt_trichotomy c.1 c'.1
      · exact absurd (h c.1 hb) (Memory.readAt_head_ne hm above' hlt)
      · have hhead : c = c' := by
          have hread := h c.1 hb
          rw [Memory.readAt_head, heq, Memory.readAt_head] at hread
          exact Prod.ext heq hread
        subst hhead
        have htail : rest = rest' := ih hr hr' fun a ha => by
          by_cases hca : c.1 = a
          · rw [Memory.readAt_of_wfFrom hr (by omega), Memory.readAt_of_wfFrom hr' (by omega)]
          · simpa only [Memory.readAt_tail _ hca] using h a ha
        rw [htail]
      · exact absurd (h c'.1 hb').symm (Memory.readAt_head_ne hm' above hgt)

/-- Settles O52: a list read at an address is the list read at the address's number. -/
theorem canonicalMemoriesReadingAlikeAreEqual : Obligations.CanonicalMemoriesReadingAlikeAreEqual := by
  intro m m' hm hm' h
  refine Memory.eq_of_readAt_eq hm hm' fun a ha => ?_
  have hread := h (BitVec.ofNat 16 a)
  rwa [Memory.read, Memory.read, BitVec.toNat_ofNat, Nat.mod_eq_of_lt ha] at hread

/-! ### What an effect does to the memory -/

/-- An action of the I2C handler writes memory in A6 and A7 alone, with room left: the data register goes to the cursor
(41_i2c_event_engine.md R149, R150). -/
theorem State.performAction_mem (s : State) (a : Config.Action) :
    (s.performAction a).mem = s.mem ∨
    (a = .a6 ∨ a = .a7) ∧ s.i2c.buf.exhausted = false ∧
      (s.performAction a).mem = s.mem.write s.i2c.buf.cursor s.i2c.dr := by
  cases a with
  | a2 =>
    rw [State.performAction, State.actionA2]
    split <;> exact .inl rfl
  | a6 =>
    rw [State.performAction, State.actionA6]
    split
    · exact .inl rfl
    · rename_i hx
      exact .inr ⟨.inl rfl, Bool.eq_false_of_not_eq_true hx, rfl⟩
  | a7 =>
    rw [State.performAction, State.actionA7]
    split
    · exact .inl rfl
    · rename_i hx
      exact .inr ⟨.inr rfl, Bool.eq_false_of_not_eq_true hx, rfl⟩
  | _ => exact .inl rfl

/-- The rows that store are those of a received byte (30_encoding.md R101). -/
theorem decodeStatusAction_stores {t : Config.StatusTable} {status : Byte}
    (h : decodeStatusAction t status = .a6 ∨ decodeStatusAction t status = .a7) :
    statusCode status = t.dataRAck ∨ statusCode status = t.dataRNack := by
  unfold decodeStatusAction at h
  cases hp : statusPhase? t status with
  | none => simp [hp] at h
  | some p =>
    have hcode : t.code p = statusCode status := statusPhase?_code hp
    simp only [hp] at h
    cases p with
    | dataRAck => exact .inl hcode.symm
    | dataRNack => exact .inr hcode.symm
    | _ => simp [phaseAction] at h

@[simp] theorem State.lineStep_mem (s : State) (u : Byte) (f : Uart → Uart) : (s.lineStep u f).mem = s.mem := by
  obtain h | ⟨x, -, h⟩ := s.lineStep_cases u f <;> rw [h]
  rfl

@[simp] theorem State.busStep_mem (s : State) (code b : Byte) : (s.busStep code b).mem = s.mem := by
  obtain h | ⟨k, -, -, h⟩ := s.busStep_cases code b <;> rw [h]
  rfl

/-- The TX-empty handler writes memory by misuse only. -/
theorem State.streamNextByte_mem {s : State} {u : Byte} {x : Uart} (hf : (s.streamNextByte u x).fault = none) :
    (s.streamNextByte u x).mem = s.mem := by
  obtain ⟨-, h⟩ | ⟨-, -, h⟩ | ⟨-, -, -, h⟩ | ⟨-, -, -, h⟩ := s.streamNextByte_cases u x <;> rw [h] at hf ⊢
  · rfl
  · rfl
  · cases hf
  · rfl

/-- An effect that is no misuse writes memory in two ways only: the I2C handler stores a received byte at the cursor, or
the foreground writes a byte no engine owns (20_memory.md R72, R76). -/
theorem Effect.mem_cases {s t : State} {tn : Turn} (h : Effect s tn t) (hf : t.fault = none) :
    t.mem = s.mem ∨
    (∃ e, tn = .i2cHandler ∧ s.gie = true ∧ s.i2c.event = some e ∧
      (statusCode e.status = s.params.statusTable.dataRAck ∨ statusCode e.status = s.params.statusTable.dataRNack) ∧
      s.i2c.buf.exhausted = false ∧ t.mem = s.mem.write s.i2c.buf.cursor s.i2c.dr) ∨
    (∃ a v rest, tn = .foreground ∧ s.program = .memWrite a v :: rest ∧ s.spanOwned a = false ∧
      t.mem = s.mem.write a v) := by
  cases h with
  | i2cEvent e hg he =>
    obtain hm | ⟨ha, hx, hm⟩ := (s.withI2c (s.i2c.enterHandler e.status)).performAction_mem
      (decodeStatusAction s.params.statusTable e.status)
    · exact .inl hm
    · exact .inr (.inl ⟨e, rfl, hg, he, decodeStatusAction_stores ha, hx, hm⟩)
  | memWrite a v rest hp ho => exact .inr (.inr ⟨a, v, rest, rfl, hp, ho, rfl⟩)
  | misuse => cases hf
  | txEvent => exact .inl (State.streamNextByte_mem hf)
  | bus | lineLoad | lineShift | lineReceive => exact .inl (by simp)
  | _ => exact .inl rfl

/-- Settles O51: by the two ways an effect writes memory, each a write at one address. -/
theorem memoryChangesOnlyWhereStored : Obligations.MemoryChangesOnlyWhereStored := by
  intro s t a h hf hne
  obtain ⟨tn, ts, t', p, htn, he, rfl⟩ := step_effect (fault_none_of_step h hf) h
  obtain hm | ⟨e, rfl, hg, hev, hcode, hx, hm⟩ | ⟨b, v, rest, rfl, hp, ho, hm⟩ := he.mem_cases hf
  · exact absurd (congrArg (Memory.read · a) hm) hne
  · obtain rfl : a = s.i2c.buf.cursor := Memory.eq_of_read_write_ne (hm ▸ hne)
    have hroom : s.i2c.buf.cursor ≠ s.i2c.buf.limit := by
      simpa [TransferBuffer.exhausted] using hx
    have hread : s.mem.wf = true → t'.mem.read s.i2c.buf.cursor = s.i2c.dr := fun hw =>
      hm ▸ Memory.read_write_self _ _ hw
    obtain hs | ⟨-, hfg, -⟩ := htn
    · exact .inl ⟨e, ts, hs, hg, hev, hcode, hroom, rfl, hread⟩
    · cases hfg
  · obtain rfl : a = b := Memory.eq_of_read_write_ne (hm ▸ hne)
    have hread : s.mem.wf = true → t'.mem.read a = v := fun hw => hm ▸ Memory.read_write_self _ _ hw
    have hturn : s.turns = [] ∨ ∃ ts, s.turns = .foreground :: ts := by
      obtain hs | ⟨hs, -, -⟩ := htn
      · exact .inr ⟨ts, hs⟩
      · exact .inl hs
    exact .inr ⟨v, rest, hturn, hp, ho, hread⟩

end Sys2Proof.Machine
end

