-- ==== Sys2Proof/Proofs/Foreground.lean ====
section
/-!
PROOFS. The steps of the foreground (20_memory.md R77): the operation it issues, when it moves on (R78), and its own
accesses to the caller's memory (R76).
-/

namespace Sys2Proof.Machine

open Sys2Proof

/-! ### When the foreground moves on (20_memory.md R78) -/

/-- An operation that has not begun a split read is done with. -/
theorem State.retire_done {s t : State} (rest : List ForegroundOp) (h : t.split = none ∨ t.split = s.split) :
    s.retire rest t = { t with program := rest } := by
  unfold State.retire
  refine if_neg ?_
  obtain h | h := h <;> simp [h]

/-- An operation that has just begun a split read stays. -/
theorem State.retire_begun {s t : State} {r : SplitRead} (rest : List ForegroundOp) (ht : t.split = some r)
    (hs : s.split ≠ some r) : s.retire rest t = t := by
  unfold State.retire
  refine if_pos ?_
  simpa [ht] using hs.symm

/-- Settles O7: the two cases of moving on. -/
theorem foregroundMovesPastAnOperation : Obligations.ForegroundMovesPastAnOperation :=
  fun _ _ rest => ⟨State.retire_done rest, fun _ ht hs => State.retire_begun rest ht hs⟩

/-! ### What a step of the foreground issues -/

theorem State.setTurns_nil {s : State} (h : s.turns = []) : { s with turns := [] } = s := by
  rw [← h]

/-- The step in the foreground's turn, and with no turn left, issues the head of the program. -/
theorem step_issues {s : State} {op : ForegroundOp} {rest : List ForegroundOp} {ts : List Turn}
    (ht : s.turns = .foreground :: ts ∨ (s.turns = [] ∧ ts = [])) (hp : s.program = op :: rest) :
    step s = mapNext ({ s with turns := ts }.retire rest) ({ s with turns := ts }.issue op) := by
  obtain ht | ⟨ht, rfl⟩ := ht
  · simp only [step, ht, State.turnStep, State.foregroundStep, hp]
  · rw [State.setTurns_nil ht]
    simp only [step, ht, State.foregroundStep, hp]

/-- A step that issues an operation which begins no split read also moves past it. -/
theorem step_issues_done {s t : State} {op : ForegroundOp} {rest : List ForegroundOp} {ts : List Turn}
    (ht : s.turns = .foreground :: ts ∨ (s.turns = [] ∧ ts = [])) (hp : s.program = op :: rest)
    (hi : { s with turns := ts }.issue op = .next t) (hs : t.split = none ∨ t.split = s.split) :
    step s = .next { t with program := rest } := by
  rw [step_issues ht hp, hi, mapNext_next]
  exact congrArg _ (State.retire_done rest hs)

/-- Bytes that decode on the command port are issued by executing them. -/
theorem State.issue_command {s : State} {words : List Byte} {i : Instr}
    (h : decode s.params.statusTable .command words = .ok i) : s.issue (.command words) = exec i s := by
  simp only [State.issue, h]

/-- Settles O6: what is issued is `exec` of what the bytes decode to. -/
theorem stepRunsTheForegroundsCommand : Obligations.StepRunsTheForegroundsCommand := by
  intro s words rest i hp hi
  have hstep : ∀ ts, s.turns = .foreground :: ts ∨ (s.turns = [] ∧ ts = []) →
      step s = mapNext ({ s with turns := ts }.retire rest) (exec i { s with turns := ts }) := fun ts ht =>
    (step_issues ht hp).trans (congrArg _ (State.issue_command (s := { s with turns := ts }) hi))
  refine ⟨fun ts ht => hstep ts (.inl ht), fun ht => ?_⟩
  have h := hstep [] (.inr ⟨ht, rfl⟩)
  rwa [State.setTurns_nil ht] at h

/-! ### The foreground's accesses to memory (20_memory.md R76) -/

/-- Who owns a byte, field by field. -/
theorem State.spanOwned_iff (s : State) (a : Addr) :
    s.spanOwned a = true ↔
      (s.i2c.state ≠ .idle ∧ s.i2c.buf.start.toNat ≤ a.toNat ∧ a.toNat < s.i2c.buf.limit.toNat) ∨
      ∃ x ∈ s.uarts, (x.txMode = .auto ∧ x.txBuf.cursor ≠ x.txBuf.limit) ∧
        x.txBuf.start.toNat ≤ a.toNat ∧ a.toNat < x.txBuf.limit.toNat := by
  simp [State.spanOwned, TransferBuffer.holds, Uart.streamActive, TransferBuffer.exhausted]

/-- Any access to an owned byte is misuse. -/
theorem State.issue_owned {s : State} {op : ForegroundOp} {a : Addr} {v : Byte} (hf : s.fault = none)
    (hop : op = .memRead a ∨ op = .memWrite a v) (ho : s.spanOwned a = true) :
    s.issue op = .next (s.raiseMisuse .bufferInUse) := by
  obtain rfl | rfl := hop
  · simp only [State.issue, State.perform_clear hf, State.foregroundRead, if_pos ho]
  · simp only [State.issue, State.perform_clear hf, State.foregroundWrite, if_pos ho]

theorem State.issue_memRead_free {s : State} {a : Addr} (hf : s.fault = none) (ho : ¬s.spanOwned a = true) :
    s.issue (.memRead a) = .next (s.respond (.memory (s.mem.read a))) := by
  simp only [State.issue, State.perform_clear hf, State.foregroundRead, if_neg ho]

theorem State.issue_memWrite_free {s : State} {a : Addr} (v : Byte) (hf : s.fault = none)
    (ho : ¬s.spanOwned a = true) : s.issue (.memWrite a v) = .next { s with mem := s.mem.write a v } := by
  simp only [State.issue, State.perform_clear hf, State.foregroundWrite, if_neg ho]

/-- Settles O48: the access is issued, and the foreground moves past it, for no access begins a split read. -/
theorem foregroundAccessToAnOwnedSpanIsMisuse : Obligations.ForegroundAccessToAnOwnedSpanIsMisuse := by
  intro s a v rest ts hf hw ht inside owned
  have hf' : ({ s with turns := ts } : State).fault = none := hf
  have howned : ({ s with turns := ts } : State).spanOwned a = true ↔ owned := State.spanOwned_iff _ a
  refine ⟨fun hp ho => ?_, fun hp ho => ?_, fun hp ho => ?_⟩
  · obtain ⟨op, hop, hp⟩ : ∃ op, (op = .memRead a ∨ op = .memWrite a v) ∧ s.program = op :: rest :=
      hp.elim (⟨_, .inl rfl, ·⟩) (⟨_, .inr rfl, ·⟩)
    exact ⟨_, step_issues_done ht hp (State.issue_owned hf' hop (howned.2 ho)) (.inl rfl), rfl⟩
  · exact step_issues_done ht hp (State.issue_memRead_free hf' (mt howned.1 ho)) (.inr rfl)
  · exact ⟨s.mem.write a v,
      step_issues_done ht hp (State.issue_memWrite_free v hf' (mt howned.1 ho)) (.inr rfl),
      Memory.read_write_self a v hw, fun b hb => Memory.read_write_other s.mem v hb.symm⟩

end Sys2Proof.Machine
end

