-- ==== Sys2Proof/Proofs/Encoding.lean ====
section
/-!
PROOFS. The decoder and the encoder (30_encoding.md R90 to R107) undo each other: the records of format `CMD8` row by row
of the command table, the status values phase by phase of the status table; and the tables of R98, R99, R101 and R102.
-/

namespace Sys2Proof

open Sys2Proof.Machine

/-! ### The decoder by ports -/

/-- On the status port there is one byte, and every byte is an operation (R102). -/
theorem decode_status_iff {tbl : Config.StatusTable} {bytes : List Byte} {i : Instr} :
    decode tbl .status bytes = .ok i ↔ ∃ status, bytes = [status] ∧ decodeStatus tbl status = i := by
  match bytes with
  | [] => simp [decode]
  | [status] => simp [decode]
  | status :: b :: rest => simp [decode]

/-- On the other ports there is a record, of an operation that belongs there (R90). -/
theorem decode_record_iff {tbl : Config.StatusTable} {port : Port} (hp : port ≠ .status) {bytes : List Byte}
    {i : Instr} : decode tbl port bytes = .ok i ↔ decodeRecord bytes = .ok i ∧ i.port = port := by
  cases port with
  | status => exact absurd rfl hp
  | command | event =>
    cases bytes with
    | nil => simp [decode, decodeRecord]
    | cons op args =>
      cases hrec : decodeRecord (op :: args) with
      | error e => simp [decode, hrec]
      | ok j =>
        simp only [decode, hrec, Except.ok.injEq]
        split
        next hj => exact ⟨by rintro ⟨⟩; exact ⟨rfl, hj⟩, fun ⟨hi, _⟩ => congrArg _ hi⟩
        next hj => exact ⟨nofun, fun ⟨hi, hport⟩ => absurd (hi ▸ hport) hj⟩

/-! ### Records of format `CMD8` (R90, R91, R107) -/

/-- A record decodes by the row of its word, when it has the row's length. -/
theorem decodeRecord_row {op : Byte} {args : List Byte} {row : CommandRow} {i : Instr}
    (hrow : commandRow? op = some row) (hlen : args.length = row.operandBytes) (hread : row.read args = i) :
    decodeRecord (op :: args) = .ok i := by
  simp only [decodeRecord, hrow, if_pos hlen, hread]

/-- A record decodes only by the row of its word. -/
theorem decodeRecord_ok {bytes : List Byte} {i : Instr} (h : decodeRecord bytes = .ok i) :
    ∃ row ∈ commandRows, ∃ args, bytes = row.op :: args ∧ args.length = row.operandBytes ∧ row.read args = i := by
  cases bytes with
  | nil => cases h
  | cons op args =>
    simp only [decodeRecord] at h
    split at h
    · cases h
    next row hrow =>
      obtain ⟨hmem, rfl⟩ := commandRow?_mem hrow
      split at h
      next hlen => exact ⟨row, hmem, args, rfl, hlen, by injection h⟩
      · cases h

/-- The 16-bit operand whose bytes stand at byte `k`. -/
theorem addrAt_of_bytes {args : List Byte} {k : Nat} {v : Addr}
    (h : [byteAt args k, byteAt args (k + 1)] = addrBytes v) : addrAt args k = v := by
  obtain ⟨h0, h1⟩ : byteAt args k = byteOf v 0 ∧ byteAt args (k + 1) = byteOf v 1 := by simpa [addrBytes] using h
  rw [addrAt, h0, h1, addrOfBytes_byteOf]

/-- The 32-bit operand whose bytes stand at byte `k`. -/
theorem wordAt_of_bytes {args : List Byte} {k : Nat} {v : Word32}
    (h : [byteAt args k, byteAt args (k + 1), byteAt args (k + 2), byteAt args (k + 3)] = wordBytes v) :
    wordAt args k = v := by
  obtain ⟨h0, h1, h2, h3⟩ : byteAt args k = byteOf v 0 ∧ byteAt args (k + 1) = byteOf v 1 ∧
      byteAt args (k + 2) = byteOf v 2 ∧ byteAt args (k + 3) = byteOf v 3 := by simpa [wordBytes] using h
  rw [wordAt, h0, h1, h2, h3, wordOfBytes_byteOf]

/-- An encoded record decodes: its word has the row that reads each operand from where the encoder writes it. -/
theorem decodeRecord_encode (tbl : Config.StatusTable) {i : Instr} (h : i.port ≠ .status) :
    decodeRecord (encode tbl i) = .ok i := by
  cases i with
  | i2cInit =>
    exact decodeRecord_row rfl rfl (congrArg₂ Instr.i2cInit (wordAt_of_bytes rfl) (wordAt_of_bytes rfl))
  | i2cStartWrite address flags =>
    exact decodeRecord_row rfl rfl
      (congrArg₂ (Instr.i2cStartWrite address flags) (addrAt_of_bytes rfl) (addrAt_of_bytes rfl))
  | i2cStartRead address flags =>
    exact decodeRecord_row rfl rfl
      (congrArg₂ (Instr.i2cStartRead address flags) (addrAt_of_bytes rfl) (addrAt_of_bytes rfl))
  | uartInit unit _ _ config =>
    exact decodeRecord_row rfl rfl
      (congrArg₂ (Instr.uartInit unit · · config) (wordAt_of_bytes rfl) (wordAt_of_bytes rfl))
  | uartSendAuto unit =>
    exact decodeRecord_row rfl rfl (congrArg₂ (Instr.uartSendAuto unit) (addrAt_of_bytes rfl) (addrAt_of_bytes rfl))
  | i2cGetState | i2cGetStatus | i2cGetProgress => exact decodeRecord_row rfl rfl rfl
  | uartSendReady | uartSendManual | uartSendAutoProgress | uartReceiveReady | uartReceiveFetch =>
    exact decodeRecord_row rfl rfl rfl
  | i2cEvent | uartTxEmptyEvent | uartRxDataEvent => exact decodeRecord_row rfl rfl rfl
  | _ => exact absurd rfl h

/-- The encoder writes the word of the row and every byte the row reads, in order. -/
theorem encode_read (tbl : Config.StatusTable) {row : CommandRow} (hrow : row ∈ commandRows) (args : List Byte) :
    encode tbl (row.read args) = row.op :: (List.range row.operandBytes).map (byteAt args) := by
  simp only [commandRows, i2cCommandRows, uartCommandRows, eventRows, List.cons_append, List.nil_append, List.mem_cons,
    List.not_mem_nil, or_false] at hrow
  obtain rfl | rfl | rfl | rfl | rfl | rfl | rfl | rfl | rfl | rfl | rfl | rfl | rfl | rfl | rfl | rfl := hrow <;>
    simp [encode, wordAt, addrAt, wordBytes_wordOfBytes, addrBytes_addrOfBytes, List.range_succ]

/-- The bytes of a record's operands, one by one. -/
theorem map_byteAt_range {args : List Byte} {n : Nat} (h : args.length = n) :
    (List.range n).map (byteAt args) = args := by
  subst h
  refine List.ext_getElem (by simp) fun k _ hk => ?_
  simp [byteAt, hk]

theorem encode_of_decodeRecord (tbl : Config.StatusTable) {bytes : List Byte} {i : Instr}
    (h : decodeRecord bytes = .ok i) : encode tbl i = bytes := by
  obtain ⟨row, hrow, args, rfl, hlen, rfl⟩ := decodeRecord_ok h
  rw [encode_read tbl hrow, map_byteAt_range hlen]

/-! ### Status values (R100 to R102) -/

theorem phaseInstr_port (p : Config.StatusPhase) (presc : BitVec 3) : (phaseInstr p presc).port = .status := by
  cases p <;> rfl

theorem encode_phaseInstr (tbl : Config.StatusTable) (p : Config.StatusPhase) (presc : BitVec 3) :
    encode tbl (phaseInstr p presc) = [statusOf (tbl.code p) presc] := by
  cases p <;> rfl

/-- The operations of the status port: the named phases and STATUS_OTHER. -/
theorem Instr.eq_phaseInstr_or_statusOther {i : Instr} (h : i.port = .status) :
    (∃ p presc, i = phaseInstr p presc) ∨ ∃ status, i = .statusOther status := by
  cases i with
  | statusOther status => exact .inr ⟨status, rfl⟩
  | statusStart presc => exact .inl ⟨.start, presc, rfl⟩
  | statusRepStart presc => exact .inl ⟨.repStart, presc, rfl⟩
  | statusSlaWAck presc => exact .inl ⟨.slaWAck, presc, rfl⟩
  | statusSlaWNack presc => exact .inl ⟨.slaWNack, presc, rfl⟩
  | statusDataWAck presc => exact .inl ⟨.dataWAck, presc, rfl⟩
  | statusDataWNack presc => exact .inl ⟨.dataWNack, presc, rfl⟩
  | statusArbLost presc => exact .inl ⟨.arbLost, presc, rfl⟩
  | statusSlaRAck presc => exact .inl ⟨.slaRAck, presc, rfl⟩
  | statusSlaRNack presc => exact .inl ⟨.slaRNack, presc, rfl⟩
  | statusDataRAck presc => exact .inl ⟨.dataRAck, presc, rfl⟩
  | statusDataRNack presc => exact .inl ⟨.dataRNack, presc, rfl⟩
  | statusBusError presc => exact .inl ⟨.busError, presc, rfl⟩
  | statusNoInfo presc => exact .inl ⟨.noInfo, presc, rfl⟩
  | _ => cases h

theorem decodeStatus_some {tbl : Config.StatusTable} {status : Byte} {p : Config.StatusPhase}
    (h : statusPhase? tbl status = some p) : decodeStatus tbl status = phaseInstr p (status.extractLsb' 0 3) := by
  simp only [decodeStatus, h]

theorem decodeStatus_none {tbl : Config.StatusTable} {status : Byte} (h : statusPhase? tbl status = none) :
    decodeStatus tbl status = .statusOther status := by
  simp only [decodeStatus, h]

theorem decodeStatus_port (tbl : Config.StatusTable) (status : Byte) : (decodeStatus tbl status).port = .status := by
  cases h : statusPhase? tbl status with
  | none => rw [decodeStatus_none h]; rfl
  | some p => rw [decodeStatus_some h, phaseInstr_port]

/-- A table that tells the phases apart finds the phase whose code a status value shows. -/
theorem statusPhase?_statusOf {tbl : Config.StatusTable} (h : statusTableWf tbl = true) (p : Config.StatusPhase)
    (presc : BitVec 3) : statusPhase? tbl (statusOf (tbl.code p) presc) = some p := by
  rw [statusPhase?_iff h, statusCode_statusOf, statusTableWf_masked h]

theorem decodeStatus_statusOf {tbl : Config.StatusTable} (h : statusTableWf tbl = true) (p : Config.StatusPhase)
    (presc : BitVec 3) : decodeStatus tbl (statusOf (tbl.code p) presc) = phaseInstr p presc := by
  rw [decodeStatus_some (statusPhase?_statusOf h p presc), statusOf_presc]

/-- A status value is its masked bits 7:3 and its ignored bits 2:0. -/
theorem statusOf_statusCode (status : Byte) : statusOf (statusCode status) (status.extractLsb' 0 3) = status := by
  revert status
  decide

/-- Whatever the table, no bit of a status value is dropped: a phase that is found has the masked bits as its code. -/
theorem encode_decodeStatus (tbl : Config.StatusTable) (status : Byte) :
    encode tbl (decodeStatus tbl status) = [status] := by
  cases h : statusPhase? tbl status with
  | none => rw [decodeStatus_none h]; rfl
  | some p => rw [decodeStatus_some h, encode_phaseInstr, statusPhase?_code h, statusOf_statusCode]

theorem decodeStatusAction_some {tbl : Config.StatusTable} {status : Byte} {p : Config.StatusPhase}
    (h : statusPhase? tbl status = some p) : decodeStatusAction tbl status = phaseAction p := by
  simp only [decodeStatusAction, h]

theorem decodeStatusAction_none {tbl : Config.StatusTable} {status : Byte} (h : statusPhase? tbl status = none) :
    decodeStatusAction tbl status = .a8 := by
  simp only [decodeStatusAction, h]

/-! ### The two directions of the round trip -/

/-- Settles O1: a status operation is a phase, which the table finds again, or a value no phase has; any other operation
is a record. -/
theorem decodeOfEncodeIsIdentity : Obligations.DecodeOfEncodeIsIdentity := by
  intro tbl i htbl hwf
  by_cases hp : i.port = .status
  · rw [hp, decode_status_iff]
    obtain ⟨p, presc, rfl⟩ | ⟨status, rfl⟩ := Instr.eq_phaseInstr_or_statusOther hp
    · exact ⟨_, encode_phaseInstr tbl p presc, decodeStatus_statusOf htbl p presc⟩
    · exact ⟨status, rfl, decodeStatus_none (Option.isNone_iff_eq_none.1 hwf)⟩
  · exact (decode_record_iff hp).2 ⟨decodeRecord_encode tbl hp, rfl⟩

/-- Settles O2: by ports, a status value or a record. -/
theorem decodableBytesAreTheEncoding : Obligations.DecodableBytesAreTheEncoding := by
  intro tbl port bytes i h
  by_cases hp : port = .status
  · subst hp
    obtain ⟨status, rfl, rfl⟩ := decode_status_iff.1 h
    exact ⟨decodeStatus_port tbl status, encode_decodeStatus tbl status⟩
  · obtain ⟨hrec, hport⟩ := (decode_record_iff hp).1 h
    exact ⟨hport, encode_of_decodeRecord tbl hrec⟩

/-! ### The tables -/

/-- Settles O3: the decoder run on each word. -/
theorem writtenWordsDecode : Obligations.WrittenWordsDecode :=
  ⟨rfl, rfl, rfl, rfl, rfl, rfl, rfl, rfl⟩

/-- Settles O4: the lookup finds the phase that alone has the code, and nothing where no phase has it. -/
theorem statusDecoderIsTheTable : Obligations.StatusDecoderIsTheTable := by
  refine ⟨fun tbl status => ⟨fun p hp => ?_, fun hnone => ?_⟩, fun p => ?_⟩
  · rw [decodeStatusAction_some (statusPhase?_of_unique hp)]
    cases p <;> rfl
  · exact decodeStatusAction_none (statusPhase?_none.2 hnone)
  · cases p <;> rfl

/-! ### The `config` byte (R98, R99) -/

/-- The 2-bit field of a byte at bit `k`, as a number. -/
theorem extractLsb'_two_toNat (config : Byte) (k : Nat) :
    (config.extractLsb' k 2).toNat = config.toNat / 2 ^ k % 4 := by
  rw [BitVec.extractLsb'_toNat, Nat.shiftRight_eq_div_pow]

theorem configReservedClear_iff (config : Byte) : configReservedClear config = true ↔ config.toNat < 64 := by
  have := config.isLt
  rw [configReservedClear, beq_iff_eq, ← BitVec.toNat_inj, extractLsb'_two_toNat]
  change config.toNat / 64 % 4 = 0 ↔ _
  omega

theorem configTxMode_isSome (config : Byte) :
    (configTxMode config).isSome = true ↔ (config.extractLsb' 2 2).toNat ≠ 3 := by
  rw [configTxMode]
  generalize config.extractLsb' 2 2 = field
  revert field
  decide

theorem configRxMode_isSome (config : Byte) :
    (configRxMode config).isSome = true ↔ (config.extractLsb' 4 2).toNat < 2 := by
  rw [configRxMode]
  generalize config.extractLsb' 4 2 = field
  revert field
  decide

/-- Settles O5: each mode by the value of its 2-bit field, and legality field by field. -/
theorem configByteFields : Obligations.ConfigByteFields := by
  intro config
  have htx : config.toNat / 4 % 4 = (config.extractLsb' 2 2).toNat := (extractLsb'_two_toNat config 2).symm
  have hrx : config.toNat / 16 % 4 = (config.extractLsb' 4 2).toNat := (extractLsb'_two_toNat config 4).symm
  rw [htx, hrx]
  refine ⟨rfl, rfl, ?_, ?_, ?_⟩
  · rw [configTxMode]
    generalize config.extractLsb' 2 2 = field
    revert field
    decide
  · rw [configRxMode]
    generalize config.extractLsb' 4 2 = field
    revert field
    decide
  · rw [configLegal, Bool.and_eq_true, Bool.and_eq_true, configReservedClear_iff, configTxMode_isSome,
      configRxMode_isSome, and_assoc]

end Sys2Proof
end

