-- ==== Sys2Proof/Proofs/Refusal.lean ====
section
/-!
PROOFS. What is refused before any operation runs (30_encoding.md R92): bytes of the foreground that are no command, and
a `unit` that no context has.
-/

namespace Sys2Proof.Machine

open Sys2Proof

/-- Bytes that are no operation of the command port are refused. -/
theorem State.issue_undecodable {s : State} {words : List Byte} {r : Reject} (hf : s.fault = none)
    (h : decode s.params.statusTable .command words = .error r) : s.issue (.command words) = .next s.refuse := by
  simp only [State.issue, h, State.perform_clear hf]

/-- Settles O10: the refusal is issued, begins no split read, and the foreground moves past it. -/
theorem undecodableCommandIsRefused : Obligations.UndecodableCommandIsRefused := by
  intro s words rest ts r hf _ hp ht hd
  exact step_issues_done ht hp (State.issue_undecodable (s := { s with turns := ts }) hf hd) (.inr rfl)

/-- There is no context past the last unit. -/
theorem State.uart?_none_iff (s : State) (u : Byte) : s.uart? u = none ↔ s.uarts.length ≤ u.toNat :=
  List.getElem?_eq_none_iff

/-- A meaning on a unit that does not exist is a refusal, whatever it would do to the unit. -/
theorem State.perform_onUnit_missing {s : State} {u : Byte} (hf : s.fault = none) (hu : s.uart? u = none)
    (f : State → Uart → State) : (s.perform fun s => s.onUnit u (f s)) = .next s.refuse := by
  rw [State.perform_clear hf, State.onUnit_none hu]

/-- Settles O32: each of the operations is a meaning on its unit. -/
theorem missingUnitIsRefused : Obligations.MissingUnitIsRefused := by
  intro s u byte config w1 w2 buffer length i hf hlen hi
  have hu : s.uart? u = none := (State.uart?_none_iff s u).2 hlen
  simp only [List.mem_cons, List.not_mem_nil, or_false] at hi
  obtain rfl | rfl | rfl | rfl | rfl | rfl | rfl | rfl | rfl := hi <;>
    exact State.perform_onUnit_missing hf hu _

end Sys2Proof.Machine
end

