-- ==== Sys2Proof/Proofs/I2cForeground.lean ====
section
/-!
PROOFS. I2C_INIT and the two start operations (40_i2c_foreground.md R120 to R122): which operands are legal, as facts
about their numbers (30_encoding.md R91 to R97), and what each operation does with legal and with illegal ones. Both
starts are the one `State.startTransaction`, so what a start does is said once, for any direction.
-/

namespace Sys2Proof.Machine

open Sys2Proof

/-! ### Legal operands (30_encoding.md R91 to R97) -/

theorem rateLegal_iff (v : Word32) : rateLegal v = true ↔ v ≠ 0 := bne_iff_ne

theorem addressLegal_iff (a : Byte) : addressLegal a = true ↔ a.toNat < 128 := by
  rw [addressLegal, Bool.not_eq_true', ← BitVec.msb_eq_getLsbD_last (x := a), BitVec.msb_eq_false_iff_two_mul_lt]
  omega

theorem flagsLegal_iff (f : Byte) : flagsLegal f = true ↔ f.toNat < 4 := by
  have hf := f.isLt
  have hfield : (f.extractLsb' 2 6).toNat = f.toNat / 4 % 64 := by
    rw [BitVec.extractLsb'_toNat, Nat.shiftRight_eq_div_pow]
  rw [flagsLegal, beq_iff_eq, ← BitVec.toNat_inj, hfield]
  change f.toNat / 4 % 64 = 0 ↔ _
  omega

theorem spanLegal_iff (b l : Addr) : spanLegal b l = true ↔ b.toNat + l.toNat < 65536 := decide_eq_true_iff

theorem startLegal_iff (a f : Byte) (b l : Addr) :
    startLegal a f b l = true ↔ a.toNat < 128 ∧ f.toNat < 4 ∧ b.toNat + l.toNat < 65536 := by
  rw [startLegal, Bool.and_eq_true, Bool.and_eq_true, addressLegal_iff, flagsLegal_iff, spanLegal_iff, and_assoc]

/-- A 7-bit address is shifted whole above the direction bit (R96). -/
theorem slaOf_toNat {a : Byte} (h : a.toNat < 128) (d : BitVec 1) : (slaOf a d).toNat = 2 * a.toNat + d.toNat := by
  have hlow : (a.extractLsb' 0 7).toNat = a.toNat := by
    rw [BitVec.extractLsb'_toNat, Nat.shiftRight_zero, Nat.mod_eq_of_lt h]
  rw [slaOf, toNat_join, hlow]
  omega

/-! ### I2C_INIT (40_i2c_foreground.md R120) -/

theorem I2c.busy_iff (c : I2c) :
    c.busy = true ↔ c.state ≠ .idle ∨ c.cmd ≠ none ∨ c.event ≠ none ∨ c.busOwned = true := by
  simp [I2c.busy, Option.isSome_iff_ne_none, or_assoc]

/-- I2C_INIT: operands are checked first, then whether the engine is busy. -/
theorem exec_i2cInit {s : State} (hf : s.fault = none) (cpuClockHz bitRate : Word32) :
    exec (.i2cInit cpuClockHz bitRate) s = .next (if cpuClockHz = 0 ∨ bitRate = 0 then s.refuse
      else if s.i2c.busy then s.raiseMisuse .initWhileBusy
      else s.withI2c { s.i2c with bitRate := Config.i2cBitRate cpuClockHz bitRate, enabled := true }) := by
  have hillegal : (!(rateLegal cpuClockHz && rateLegal bitRate)) = true ↔ cpuClockHz = 0 ∨ bitRate = 0 := by
    rw [Bool.not_eq_true', ← Bool.not_eq_true, Bool.and_eq_true, rateLegal_iff, rateLegal_iff]
    tauto
  exact (State.perform_clear hf _).trans (congrArg _ (if_congr hillegal rfl rfl))

/-- Settles O11: the operands are legal and the engine is not busy. -/
theorem i2cInitCompletes : Obligations.I2cInitCompletes := by
  intro s cpuClockHz bitRate hf hc hb hstate hcmd hevent howned
  have hquiet : ¬s.i2c.busy = true := by
    rw [I2c.busy_iff]
    simp [hstate, hcmd, hevent, howned]
  rw [exec_i2cInit hf, if_neg (not_or.2 ⟨hc, hb⟩), if_neg hquiet]
  rfl

/-- Settles O12: an illegal operand is refused first, and each of the four conditions makes the engine busy. -/
theorem i2cInitRefusedOrMisuse : Obligations.I2cInitRefusedOrMisuse := by
  intro s cpuClockHz bitRate hf
  rw [exec_i2cInit hf]
  refine ⟨fun hillegal => ?_, fun hc hb hbusy => ?_⟩
  · rw [if_pos hillegal]
    rfl
  · rw [if_neg (not_or.2 ⟨hc, hb⟩), if_pos ((I2c.busy_iff s.i2c).2 hbusy)]
    exact ⟨_, rfl, rfl⟩

/-! ### The start operations (R121, R122) -/

section
variable {s : State} {address flags : Byte} {buffer length : Addr}

theorem exec_i2cStartWrite (hf : s.fault = none) :
    exec (.i2cStartWrite address flags buffer length) s =
      .next (s.startTransaction .masterWriting 0 address flags buffer length) :=
  State.perform_clear hf _

theorem exec_i2cStartRead (hf : s.fault = none) :
    exec (.i2cStartRead address flags buffer length) s =
      .next (s.startTransaction .masterReading 1 address flags buffer length) :=
  State.perform_clear hf _

variable (e : EngineState) (d : BitVec 1)

theorem State.startTransaction_illegal (hl : ¬startLegal address flags buffer length = true) :
    s.startTransaction e d address flags buffer length = s.refuse := by
  simpa [ hl] using s.startTransaction_cases e d address flags buffer length

theorem State.startTransaction_outstanding (hl : startLegal address flags buffer length = true)
    (hs : s.i2c.state ≠ .idle) :
    s.startTransaction e d address flags buffer length = s.raiseMisuse .startWhileBusy := by
  simpa [ hl, hs] using s.startTransaction_cases e d address flags buffer length

theorem State.startTransaction_disabled (hl : startLegal address flags buffer length = true)
    (hs : s.i2c.state = .idle) (he : s.i2c.enabled = false) :
    s.startTransaction e d address flags buffer length = s.raiseMisuse .notInitialised := by
  simpa [ hl, hs, he] using s.startTransaction_cases e d address flags buffer length

/-- A start that completes, in any direction: the address-plus-direction byte and the end of the span are exact, and
START is driven (R96, R97, 41_i2c_event_engine.md R156). -/
theorem State.startTransaction_completes (ha : address.toNat < 128) (hflags : flags.toNat < 4)
    (hspan : buffer.toNat + length.toNat < 65536) (hs : s.i2c.state = .idle) (he : s.i2c.enabled = true) :
    ∃ (sla : Byte) (limit : Addr),
      sla.toNat = 2 * address.toNat + d.toNat ∧ limit.toNat = buffer.toNat + length.toNat ∧
      s.startTransaction e d address flags buffer length =
        { s with i2c := { s.i2c with
          state := e, flags := flags, sla := sla, buf := ⟨buffer, buffer, limit⟩, cmd := some .start } } := by
  have hl := (startLegal_iff address flags buffer length).2 ⟨ha, hflags, hspan⟩
  have hstart : s.startTransaction e d address flags buffer length =
      s.withI2c (s.i2c.startTransaction e d address flags buffer length) := by
    simpa [hl, hs, he] using s.startTransaction_cases e d address flags buffer length
  exact ⟨slaOf address d, buffer + length, slaOf_toNat ha d, spanLegal_toNat ((spanLegal_iff _ _).2 hspan), hstart⟩

end

/-- Settles O13: a start that completes, with direction 0. -/
theorem i2cStartWriteCompletes : Obligations.I2cStartWriteCompletes := by
  intro s address flags buffer length hf ha hflags hspan hs he
  obtain ⟨sla, limit, hsla, hlimit, h⟩ :=
    State.startTransaction_completes .masterWriting 0 ha hflags hspan hs he
  exact ⟨sla, limit, hsla, hlimit, (exec_i2cStartWrite hf).trans (congrArg _ h)⟩

/-- Settles O14: a start that completes, with direction 1. -/
theorem i2cStartReadCompletes : Obligations.I2cStartReadCompletes := by
  intro s address flags buffer length hf ha hflags hspan hs he
  obtain ⟨sla, limit, hsla, hlimit, h⟩ :=
    State.startTransaction_completes .masterReading 1 ha hflags hspan hs he
  exact ⟨sla, limit, hsla, hlimit, (exec_i2cStartRead hf).trans (congrArg _ h)⟩

/-- Settles O15: either operation is a start in its direction; operands are checked first, then the engine's state, then
whether it is enabled. -/
theorem i2cStartRefusedOrMisuse : Obligations.I2cStartRefusedOrMisuse := by
  intro s address flags buffer length i hf hi
  obtain ⟨e, d, hexec⟩ :
      ∃ e d, exec i s = .next (s.startTransaction e d address flags buffer length) := by
    obtain rfl | rfl := hi
    · exact ⟨_, _, exec_i2cStartWrite hf⟩
    · exact ⟨_, _, exec_i2cStartRead hf⟩
  rw [hexec]
  have hlegal := startLegal_iff address flags buffer length
  refine ⟨fun hillegal => ?_, fun ha hflags hspan => ?_⟩
  · exact congrArg _ (State.startTransaction_illegal e d (by rw [hlegal]; omega))
  · have hl := hlegal.2 ⟨ha, hflags, hspan⟩
    exact ⟨fun hs => ⟨_, congrArg _ (State.startTransaction_outstanding e d hl hs), rfl⟩,
      fun hs he => ⟨_, congrArg _ (State.startTransaction_disabled e d hl hs he), rfl⟩⟩

end Sys2Proof.Machine
end

