-- ==== Sys2Proof/Proofs/Observers.lean ====
section
/-!
PROOFS. The operations that return what they read: the one-step observers (40_i2c_foreground.md R123, R124;
42_uart_foreground.md R192, R196) and the progress reads (R125, R195), atomic or split into two byte steps (20_memory.md
R78). Both progress reads are the one `State.readProgress`, of the count of their target.
-/

namespace Sys2Proof.Machine

open Sys2Proof

/-! ### The one-step observers -/

theorem Uart.txEmpty_eq (x : Uart) : x.txEmpty = decide (x.txData = none) := by
  rw [Uart.txEmpty, Bool.eq_iff_iff, decide_eq_true_iff, Option.isNone_iff_eq_none]

theorem Uart.receiveReady_eq (x : Uart) : x.receiveReady = (decide (x.rxMode ≠ .disabled) && x.rxFull) := by
  rw [Bool.eq_iff_iff, Uart.receiveReady_iff, Bool.and_eq_true, decide_eq_true_iff]

/-- A meaning on a unit that exists is what it does with the unit's context. -/
theorem State.perform_onUnit_some {s : State} {u : Byte} {x : Uart} (hf : s.fault = none) (hu : s.uart? u = some x)
    (f : State → Uart → State) : (s.perform fun s => s.onUnit u (f s)) = .next (f s x) := by
  rw [State.perform_clear hf, State.onUnit_some hu]

theorem exec_uartSendReady {s : State} {u : Byte} {x : Uart} (hf : s.fault = none) (hu : s.uart? u = some x) :
    exec (.uartSendReady u) s = .next (s.respond (.ready x.txEmpty)) :=
  State.perform_onUnit_some hf hu _

theorem exec_uartReceiveReady {s : State} {u : Byte} {x : Uart} (hf : s.fault = none) (hu : s.uart? u = some x) :
    exec (.uartReceiveReady u) s = .next (s.respond (.ready x.receiveReady)) :=
  State.perform_onUnit_some hf hu _

/-- Settles O16: each observer answers one field; the encoding of the engine state is the table of R103. -/
theorem observersReturnAndChangeNothing : Obligations.ObserversReturnAndChangeNothing := by
  refine fun s hf => ⟨State.perform_clear hf _, State.perform_clear hf _, fun u x hu => ⟨?_, ?_⟩⟩
  · rw [← Uart.txEmpty_eq]
    exact exec_uartSendReady hf hu
  · rw [← Uart.receiveReady_eq]
    exact exec_uartReceiveReady hf hu

/-! ### Progress reads -/

theorem exec_i2cGetProgress {s : State} (hf : s.fault = none) :
    exec .i2cGetProgress s = .next (s.readProgress .i2c (s.i2c.buf.limit - s.i2c.buf.cursor)) :=
  State.perform_clear hf _

theorem exec_uartSendAutoProgress {s : State} {u : Byte} {x : Uart} (hf : s.fault = none)
    (hu : s.uart? u = some x) :
    exec (.uartSendAutoProgress u) s = .next (s.readProgress (.uart u) (x.txBuf.limit - x.txBuf.cursor)) :=
  State.perform_onUnit_some hf hu _

theorem State.readProgress_atomic {s : State} (ha : s.params.progressReadAtomic = true) (g : ProgressTarget)
    (p : Addr) : s.readProgress g p = s.respond (.progress p) :=
  if_pos ha

/-- Settles O17: either progress read answers its whole count. -/
theorem atomicProgressReadCompletes : Obligations.AtomicProgressReadCompletes :=
  fun _ hf ha =>
    ⟨(exec_i2cGetProgress hf).trans (congrArg _ (State.readProgress_atomic ha _ _)),
      fun _ _ hu => (exec_uartSendAutoProgress hf hu).trans (congrArg _ (State.readProgress_atomic ha _ _))⟩

/-- The low byte of a 16-bit count. -/
theorem byteOf_zero_toNat (p : Addr) : (byteOf p 0).toNat = p.toNat % 256 := by
  rw [byteOf_toNat]
  simp

/-- The high byte of a 16-bit count. -/
theorem byteOf_one_toNat (p : Addr) : (byteOf p 1).toNat = p.toNat / 256 := by
  have hp := p.isLt
  rw [byteOf_toNat]
  omega

/-- Which byte the first step takes (20_memory.md R78). -/
theorem State.beginSplit_takes (s : State) (g : ProgressTarget) (p : Addr) :
    ∃ b : Byte, s.beginSplit g p = { s with split := some ⟨g, b⟩ } ∧
      b.toNat = match s.params.progressReadOrder with
        | .lowFirst => p.toNat % 256
        | .highFirst => p.toNat / 256 := by
  unfold State.beginSplit
  cases s.params.progressReadOrder with
  | lowFirst => exact ⟨_, rfl, byteOf_zero_toNat p⟩
  | highFirst => exact ⟨_, rfl, byteOf_one_toNat p⟩

/-- What the second step returns: the first byte, from an earlier count, beside the other byte of the count `p` as it
stands now (R78). -/
theorem State.finishSplit_returns (s : State) (first : Byte) (p : Addr) :
    ∃ v : Addr, s.finishSplit first p = { s with split := none, response := some (.progress v) } ∧
      v.toNat = match s.params.progressReadOrder with
        | .lowFirst => 256 * (p.toNat / 256) + first.toNat
        | .highFirst => 256 * first.toNat + p.toNat % 256 := by
  unfold State.finishSplit
  cases s.params.progressReadOrder with
  | lowFirst =>
    refine ⟨_, rfl, ?_⟩
    rw [addrOfBytes_toNat, byteOf_one_toNat, Nat.add_comm]
  | highFirst =>
    refine ⟨_, rfl, ?_⟩
    rw [addrOfBytes_toNat, byteOf_zero_toNat, Nat.add_comm]

/-- A progress read with no read in progress takes the first byte of its count. -/
theorem exec_takes_first_byte {s : State} {i : Instr} {g : ProgressTarget} {p : Addr}
    (hexec : exec i s = .next (s.readProgress g p)) (ha : s.params.progressReadAtomic = false) (hs : s.split = none) :
    ∃ b : Byte, exec i s = .next { s with split := some ⟨g, b⟩ } ∧
      b.toNat = match s.params.progressReadOrder with
        | .lowFirst => p.toNat % 256
        | .highFirst => p.toNat / 256 := by
  have hbegin : s.readProgress g p = s.beginSplit g p := by simp [State.readProgress, ha, hs]
  obtain ⟨b, hb, hvalue⟩ := s.beginSplit_takes g p
  exact ⟨b, by rw [hexec, hbegin, hb], hvalue⟩

/-- Settles O18: either progress read begins a split read of its count. -/
theorem splitProgressReadTakesItsFirstByte : Obligations.SplitProgressReadTakesItsFirstByte :=
  fun _ hf ha hs => ⟨exec_takes_first_byte (exec_i2cGetProgress hf) ha hs,
    fun _ _ hu => exec_takes_first_byte (exec_uartSendAutoProgress hf hu) ha hs⟩

/-- A progress read with its own first byte taken returns the two bytes. -/
theorem exec_returns_both_bytes {s : State} {i : Instr} {g : ProgressTarget} {first : Byte} {p : Addr}
    (hexec : exec i s = .next (s.readProgress g p)) (ha : s.params.progressReadAtomic = false)
    (hs : s.split = some ⟨g, first⟩) :
    ∃ v : Addr, exec i s = .next { s with split := none, response := some (.progress v) } ∧
      v.toNat = match s.params.progressReadOrder with
        | .lowFirst => 256 * (p.toNat / 256) + first.toNat
        | .highFirst => 256 * first.toNat + p.toNat % 256 := by
  have hfinish : s.readProgress g p = s.finishSplit first p := by simp [State.readProgress, ha, hs]
  obtain ⟨v, hv, hvalue⟩ := s.finishSplit_returns first p
  exact ⟨v, by rw [hexec, hfinish, hv], hvalue⟩

/-- Settles O19: either progress read finishes the split read of its count. -/
theorem splitProgressReadCompletes : Obligations.SplitProgressReadCompletes :=
  fun _ _ hf ha => ⟨fun hs => exec_returns_both_bytes (exec_i2cGetProgress hf) ha hs,
    fun _ _ hu hs => exec_returns_both_bytes (exec_uartSendAutoProgress hf hu) ha hs⟩

end Sys2Proof.Machine
end

