-- ==== Sys2Proof/Proofs/I2cRows.lean ====
section
/-!
PROOFS. The I2C handler and the rows of the status table (41_i2c_event_engine.md R140 to R151): what each action does,
that a status operation is the action of its phase, and that I2C_EVENT is the handler's entry followed by the row its
status selects.
-/

namespace Sys2Proof.Machine

open Sys2Proof

/-! ### The actions -/

theorem TransferBuffer.exhausted_eq_false_iff (b : TransferBuffer) : b.exhausted = false ↔ b.cursor ≠ b.limit := by
  rw [← Bool.not_eq_true, b.exhausted_iff]

theorem State.actionA2_of_room {s : State} (h : s.i2c.buf.exhausted = false) :
    s.actionA2 =
      s.withI2c ({ s.i2c with dr := s.mem.read s.i2c.buf.cursor }.advance.drive (.rearm .send)) := by
  simp only [State.actionA2, h, Bool.false_eq_true, if_false]

theorem State.actionA2_of_none_left {s : State} (h : s.i2c.buf.exhausted = true) :
    s.actionA2 = s.withI2c s.i2c.complete := if_pos h

theorem State.actionA6_of_room {s : State} (h : s.i2c.buf.exhausted = false) :
    s.actionA6 = s.storeReceived.withI2c s.i2c.advance.armReceive := by
  simp only [State.actionA6, h, Bool.false_eq_true, if_false, State.storeReceived_i2c]

theorem State.actionA6_of_full {s : State} (h : s.i2c.buf.exhausted = true) :
    s.actionA6 = s.withI2c s.i2c.abort := if_pos h

theorem State.actionA7_of_room {s : State} (h : s.i2c.buf.exhausted = false) :
    s.actionA7 = s.storeReceived.withI2c s.i2c.advance.complete := by
  simp only [State.actionA7, h, Bool.false_eq_true, if_false, State.storeReceived_i2c]

theorem State.actionA7_of_full {s : State} (h : s.i2c.buf.exhausted = true) :
    s.actionA7 = s.withI2c s.i2c.abort := if_pos h

theorem I2c.armReceive_of_none_left {c : I2c} (h : c.buf.progress = 0) : c.armReceive = c.complete := if_pos h

theorem I2c.armReceive_of_one_left {c : I2c} (h : c.buf.progress = 1) :
    c.armReceive = { c with cmd := some .recvNack } := by
  have h0 : c.buf.progress ≠ 0 := by rw [h]; decide
  rw [I2c.armReceive, if_neg h0, if_pos h]
  rfl

theorem I2c.armReceive_of_more_left {c : I2c} (h0 : c.buf.progress ≠ 0) (h1 : c.buf.progress ≠ 1) :
    c.armReceive = { c with cmd := some .recvAck } := by
  rw [I2c.armReceive, if_neg h0, if_neg h1]
  rfl

@[simp] theorem I2c.armReceive_event (c : I2c) : c.armReceive.event = c.event := by
  obtain ⟨-, h⟩ | ⟨-, h⟩ | ⟨-, -, h⟩ := c.armReceive_cases <;> simp [h]

/-- No action raises an event or acknowledges one: the handler's entry has done so (R140). -/
@[simp] theorem State.performAction_event (s : State) (a : Config.Action) :
    (s.performAction a).i2c.event = s.i2c.event := by
  cases a with
  | a1 => rfl
  | a2 => cases h : s.i2c.buf.exhausted <;>
      simp [State.performAction, State.actionA2_of_room, State.actionA2_of_none_left, h]
  | a3 => exact s.i2c.complete_event
  | a4 => exact s.i2c.armReceive_event
  | a5 => rfl
  | a6 => cases h : s.i2c.buf.exhausted <;>
      simp [State.performAction, State.actionA6_of_room, State.actionA6_of_full, h]
  | a7 => cases h : s.i2c.buf.exhausted <;>
      simp [State.performAction, State.actionA7_of_room, State.actionA7_of_full, h]
  | a8 => rfl

/-! ### The meanings -/

section
variable {s : State} (hf : s.fault = none)
include hf

/-- A named row of the table is the action of its phase (30_encoding.md R101). -/
theorem exec_phaseInstr (p : Config.StatusPhase) (presc : BitVec 3) :
    exec (phaseInstr p presc) s = .next (s.performAction (phaseAction p)) := by
  cases p <;> exact State.perform_clear hf _

/-- A status value that no named row has is A8 (30_encoding.md R102). -/
theorem exec_statusOther (status : Byte) : exec (.statusOther status) s = .next s.actionA8 :=
  State.perform_clear hf _

/-- Running the row of a status value performs the action the decoder selects (R141). -/
theorem exec_decodeStatus (t : Config.StatusTable) (status : Byte) :
    exec (decodeStatus t status) s = .next (s.performAction (decodeStatusAction t status)) := by
  cases hp : statusPhase? t status with
  | some p =>
    rw [decodeStatus_some hp, decodeStatusAction_some hp]
    exact exec_phaseInstr hf p _
  | none =>
    rw [decodeStatus_none hp, decodeStatusAction_none hp]
    exact exec_statusOther hf status

/-- A delivered event is the handler's entry and then the selected action (R140). -/
theorem exec_i2cEvent {status data : Byte} (hg : s.gie = true) (he : s.i2c.event = some ⟨status, data⟩) :
    exec (.i2cEvent status data) s =
      .next ((s.withI2c (s.i2c.enterHandler status)).performAction
        (decodeStatusAction s.params.statusTable status)) := by
  have hdelivered : (s.gie && s.i2c.event == some ⟨status, data⟩) = true := by simp [hg, he]
  simp only [exec, execI2cEvent, State.perform_clear hf, if_pos hdelivered]

end

/-! ### The statements -/

/-- Settles O21: the row runs on the state after the handler's entry, and no action writes `lastStatus` or `event`. -/
theorem i2cEventRunsTheSelectedRow : Obligations.I2cEventRunsTheSelectedRow := by
  intro s status data hf hg he
  have hrow := exec_decodeStatus (s := s.withI2c (s.i2c.enterHandler status)) hf s.params.statusTable status
  exact ⟨_, exec_i2cEvent hf hg he, hrow, by simp, by simp⟩

/-- Settles O20, by what COMPLETE and ABORT leave. -/
theorem completeHoldsOrStopsAndAbortStops : Obligations.CompleteHoldsOrStopsAndAbortStops := by
  intro c
  refine ⟨fun hhold => ?_, fun hstop => ?_, c.abort_eq⟩
  · rw [c.complete_eq, I2c.holdBus, if_pos hhold]
  · rw [c.complete_eq, I2c.holdBus, hstop]
    rfl

/-- Settles O22: both rows are A1. -/
theorem startRowsSendTheAddress : Obligations.StartRowsSendTheAddress :=
  fun _ presc hf => ⟨exec_phaseInstr hf .start presc, exec_phaseInstr hf .repStart presc⟩

/-- Settles O23: both rows are A2, with a byte left or none. -/
theorem writeAckRowsLoadTheNextByte : Obligations.WriteAckRowsLoadTheNextByte := by
  intro s presc i hf hi
  have hrun : exec i s = .next s.actionA2 := by
    obtain rfl | rfl := hi
    · exact exec_phaseInstr hf .slaWAck presc
    · exact exec_phaseInstr hf .dataWAck presc
  refine ⟨fun hroom => ?_, fun hend => ?_⟩
  · rw [hrun, State.actionA2_of_room (s.i2c.buf.exhausted_eq_false_iff.2 hroom)]
    rfl
  · rw [hrun, State.actionA2_of_none_left (s.i2c.buf.exhausted_iff.2 hend)]
    rfl

/-- Settles O24: both rows are A3. -/
theorem writeNackRowsComplete : Obligations.WriteNackRowsComplete :=
  fun _ presc hf => ⟨exec_phaseInstr hf .slaWNack presc, exec_phaseInstr hf .dataWNack presc⟩

/-- Settles O25: the row is A4, which arms the bus against the bytes left. -/
theorem readAddressAckRowArmsReceive : Obligations.ReadAddressAckRowArmsReceive := by
  intro s presc hf
  have hrun : exec (.statusSlaRAck presc) s = .next (s.withI2c s.i2c.armReceive) :=
    exec_phaseInstr hf .slaRAck presc
  refine ⟨fun hzero => ?_, fun hone => ?_, fun hzero hone => ?_⟩
  · rw [hrun, I2c.armReceive_of_none_left hzero]
    rfl
  · rw [hrun, I2c.armReceive_of_one_left hone]
    rfl
  · rw [hrun, I2c.armReceive_of_more_left hzero hone]
    rfl

/-- Settles O26: the rows are A5 and A8. -/
theorem errorRowsAbort : Obligations.ErrorRowsAbort :=
  fun _ presc status hf => ⟨exec_phaseInstr hf .slaRNack presc, exec_phaseInstr hf .arbLost presc,
    exec_phaseInstr hf .busError presc, exec_phaseInstr hf .noInfo presc, exec_statusOther hf status⟩

/-- Settles O27: the row is A6; the bus is armed against the bytes left behind the byte stored. -/
theorem readDataAckRowStoresAndRearms : Obligations.ReadDataAckRowStoresAndRearms := by
  intro s presc hf hm
  have hrun : exec (.statusDataRAck presc) s = .next s.actionA6 := exec_phaseInstr hf .dataRAck presc
  have hleft : s.i2c.advance.buf.progress = s.i2c.buf.limit - (s.i2c.buf.cursor + 1) := rfl
  refine ⟨fun hroom => ?_, fun hfull => ?_⟩
  · refine ⟨s.mem.write s.i2c.buf.cursor s.i2c.dr, s.i2c.advance.armReceive, ?_, Memory.read_write_self _ _ hm,
      fun a ha => Memory.read_write_other _ _ ha.symm, fun hlast => ?_, fun hone => ?_, fun hlast hone => ?_⟩
    · rw [hrun, State.actionA6_of_room (s.i2c.buf.exhausted_eq_false_iff.2 hroom)]
      rfl
    · exact I2c.armReceive_of_none_left (c := s.i2c.advance) (by bv_omega)
    · exact I2c.armReceive_of_one_left (c := s.i2c.advance) (by bv_omega)
    · exact I2c.armReceive_of_more_left (c := s.i2c.advance) (by bv_omega) (by bv_omega)
  · rw [hrun, State.actionA6_of_full (s.i2c.buf.exhausted_iff.2 hfull)]
    rfl

/-- Settles O28: the row is A7. -/
theorem readDataNackRowStoresAndCompletes : Obligations.ReadDataNackRowStoresAndCompletes := by
  intro s presc hf hm
  have hrun : exec (.statusDataRNack presc) s = .next s.actionA7 := exec_phaseInstr hf .dataRNack presc
  refine ⟨fun hroom => ?_, fun hfull => ?_⟩
  · refine ⟨s.mem.write s.i2c.buf.cursor s.i2c.dr, ?_, Memory.read_write_self _ _ hm,
      fun a ha => Memory.read_write_other _ _ ha.symm⟩
    rw [hrun, State.actionA7_of_room (s.i2c.buf.exhausted_eq_false_iff.2 hroom)]
    rfl
  · rw [hrun, State.actionA7_of_full (s.i2c.buf.exhausted_iff.2 hfull)]
    rfl

end Sys2Proof.Machine
end

