-- ==== Sys2Proof/Proofs/BusAnswers.lean ====
section
/-!
PROOFS. The bus agent (41_i2c_event_engine.md R157 to R160). `I2c.ConformingRow` is R158's table as a relation, and
`I2c.conformingAnswer_iff_row` says that the conforming answers are its rows; the statements then name a row each.
-/

namespace Sys2Proof.Machine

open Sys2Proof

/-! ### The conforming table (R158) -/

/-- The rows of the conforming table: the command answered, the phase of the code, and the context the answer leaves,
`b` being a received byte. -/
inductive I2c.ConformingRow (c : I2c) (b : Byte) : BusCommand → Config.StatusPhase → I2c → Prop
  | start (hfree : c.busOwned = false) :
    ConformingRow c b .start .start { c with busOwned := true, addrPhase := true, trace := c.trace ++ [.start] }
  | repStart (howned : c.busOwned = true) :
    ConformingRow c b .start .repStart { c with addrPhase := true, trace := c.trace ++ [.repStart] }
  | startError :
    ConformingRow c b .start .busError { c with busOwned := false, trace := c.trace ++ [.busError] }
  | arbLost (k : BusCommand) (hk : k ≠ .start) : ConformingRow c b k .arbLost (c.loseBus .arbLost)
  | busError (k : BusCommand) (hk : k ≠ .start) : ConformingRow c b k .busError (c.loseBus .busError)
  | addressWrite (a : Ack) (ha : c.addrPhase = true) (hd : c.dr.getLsbD 0 = false) :
    ConformingRow c b .send (if a = .ack then .slaWAck else .slaWNack) (c.sent a)
  | addressRead (a : Ack) (ha : c.addrPhase = true) (hd : c.dr.getLsbD 0 = true) :
    ConformingRow c b .send (if a = .ack then .slaRAck else .slaRNack) (c.sent a)
  | dataWrite (a : Ack) (ha : c.addrPhase = false) :
    ConformingRow c b .send (if a = .ack then .dataWAck else .dataWNack) (c.sent a)
  | receiveAck : ConformingRow c b .recvAck .dataRAck (c.receive b .ack)
  | receiveNack : ConformingRow c b .recvNack .dataRNack (c.receive b .nack)

theorem I2c.ConformingRow.conformingAnswer {c c' : I2c} {b : Byte} {k : BusCommand} {p : Config.StatusPhase}
    (h : c.ConformingRow b k p c') : c.conformingAnswer k (some p) b = some c' := by
  cases h with
  | start hfree => simp [I2c.conformingAnswer, hfree]
  | repStart howned => simp [I2c.conformingAnswer, howned]
  | startError => rfl
  | arbLost _ hk => cases k <;> trivial
  | busError _ hk => cases k <;> trivial
  | addressWrite a ha hd =>
    cases a <;> simp [I2c.conformingAnswer, I2c.sendAck?, ha, hd, -BitVec.getLsbD_eq_getElem]
  | addressRead a ha hd =>
    cases a <;> simp [I2c.conformingAnswer, I2c.sendAck?, ha, hd, -BitVec.getLsbD_eq_getElem]
  | dataWrite a ha => cases a <;> simp [I2c.conformingAnswer, I2c.sendAck?, ha]
  | receiveAck => rfl
  | receiveNack => rfl

/-- The acknowledge of a byte sent is a row of the table: of the address byte by its direction bit, or of a data
byte. -/
theorem I2c.conformingRow_of_sendAck? {c : I2c} {p : Config.StatusPhase} {a : Ack} (h : c.sendAck? p = some a)
    (b : Byte) : c.ConformingRow b .send p (c.sent a) := by
  unfold I2c.sendAck? at h
  split at h
  · rename_i ha
    split at h
    · rename_i hd
      split at h <;> cases h
      · exact .addressRead .ack ha hd
      · exact .addressRead .nack ha hd
    · rename_i hd
      split at h <;> cases h
      · exact .addressWrite .ack ha (Bool.not_eq_true _ ▸ hd)
      · exact .addressWrite .nack ha (Bool.not_eq_true _ ▸ hd)
  · rename_i ha
    split at h <;> cases h
    · exact .dataWrite .ack (Bool.not_eq_true _ ▸ ha)
    · exact .dataWrite .nack (Bool.not_eq_true _ ▸ ha)

theorem I2c.conformingRow_of_conformingAnswer {c c' : I2c} {b : Byte} {k : BusCommand}
    {phase : Option Config.StatusPhase} (h : c.conformingAnswer k phase b = some c') :
    ∃ p, phase = some p ∧ c.ConformingRow b k p c' := by
  unfold I2c.conformingAnswer at h
  split at h
  · split at h <;> cases h
    exact ⟨_, rfl, .start (Bool.not_eq_true _ ▸ ‹_›)⟩
  · split at h <;> cases h
    exact ⟨_, rfl, .repStart ‹_›⟩
  · cases h
    exact ⟨_, rfl, .startError⟩
  · cases h
  · cases h
    exact ⟨_, rfl, .arbLost _ ‹_›⟩
  · cases h
    exact ⟨_, rfl, .busError _ ‹_›⟩
  · obtain ⟨a, ha, rfl⟩ := Option.map_eq_some_iff.1 h
    exact ⟨_, rfl, I2c.conformingRow_of_sendAck? ha b⟩
  · cases h
    exact ⟨_, rfl, .receiveAck⟩
  · cases h
    exact ⟨_, rfl, .receiveNack⟩
  · cases h

/-- The conforming answers are the rows of the table. -/
theorem I2c.conformingAnswer_iff_row (c c' : I2c) (b : Byte) (k : BusCommand) (phase : Option Config.StatusPhase) :
    c.conformingAnswer k phase b = some c' ↔ ∃ p, phase = some p ∧ c.ConformingRow b k p c' :=
  ⟨I2c.conformingRow_of_conformingAnswer, fun ⟨_, hp, hrow⟩ => hp ▸ hrow.conformingAnswer⟩

/-- A code outside the allowed ones has no conforming answer. -/
theorem I2c.conformingAnswer_none {t : Config.StatusTable} {c : I2c} {k : BusCommand} {code : Byte}
    (h : statusCode code ∉ c.allowedCodes t k) (b : Byte) :
    c.conformingAnswer k (statusPhase? t code) b = none := by
  cases hc : c.conformingAnswer k (statusPhase? t code) b with
  | none => rfl
  | some c' => exact absurd (I2c.conformingAnswer_allowed hc) h

/-! ### The code of an answer (R157, log entry 16) -/

theorem statusCode_statusCode (code : Byte) : statusCode (statusCode code) = statusCode code := by
  rw [statusCode, statusCode, BitVec.and_assoc, BitVec.and_self]

/-- The status value of a code is the masked code with `PRESC` in the bits the mask clears. -/
theorem statusOf_statusCode_presc (code : Byte) (presc : BitVec 3) :
    statusOf (statusCode code) presc = statusCode code ||| presc.setWidth 8 := by
  have hcode : statusCode (statusCode code ||| presc.setWidth 8) = statusCode code := by
    ext i hi
    simp only [statusCode, Config.statusMask]
    interval_cases i <;> simp
  have hpresc : (statusCode code ||| presc.setWidth 8).extractLsb' 0 3 = presc := by
    ext i hi
    simp only [statusCode, Config.statusMask]
    interval_cases i <;> simp
  have h := statusOf_statusCode (statusCode code ||| presc.setWidth 8)
  rwa [hcode, hpresc] at h

/-! ### A bus turn -/

/-- Under `BUS_STRICT` a code outside the table is no step. -/
theorem I2c.answer_outside {p : Config.Params} (hstrict : p.busStrict = true) {c : I2c} {k : BusCommand} {code : Byte}
    (h : statusCode code ∉ c.allowedCodes p.statusTable k) (b : Byte) : c.answer p k code b = c := by
  simp only [I2c.answer, I2c.conformingAnswer_none h, hstrict, if_true]

/-- A bus not held to the table answers with a code outside it as well. -/
theorem I2c.answer_other {p : Config.Params} (hloose : p.busStrict = false) {c : I2c} {k : BusCommand} {code : Byte}
    (h : statusCode code ∉ c.allowedCodes p.statusTable k) (b : Byte) :
    c.answer p k code b =
      (c.otherAnswer (statusPhase? p.statusTable code) (statusCode code) b).raiseEvent (statusCode code) p.presc := by
  simp only [I2c.answer, I2c.conformingAnswer_none h, hloose, Bool.false_eq_true, if_false]

/-- A code outside the allowed ones releases the bus only as an answer to START: to any other command arbitration loss
and bus error are rows of the table. -/
theorem I2c.otherAnswer_keeps_bus {t : Config.StatusTable} {c : I2c} {k : BusCommand} {code : Byte}
    (hk : k ≠ .start) (h : statusCode code ∉ c.allowedCodes t k) (b : Byte) :
    c.otherAnswer (statusPhase? t code) (statusCode code) b =
      { c with dr := b, trace := c.trace ++ [.other (statusCode code)] } := by
  have hnone := I2c.conformingAnswer_none h b
  have hphase : ¬(statusPhase? t code = some .busError ∨ statusPhase? t code = some .arbLost) := by
    rintro (hp | hp)
    · cases hnone.symm.trans (hp ▸ (I2c.ConformingRow.busError (c := c) (b := b) k hk).conformingAnswer)
    · cases hnone.symm.trans (hp ▸ (I2c.ConformingRow.arbLost (c := c) (b := b) k hk).conformingAnswer)
  rw [I2c.otherAnswer, if_neg hphase]

/-- Under `BUS_STRICT` an event is raised with an allowed code. -/
theorem I2c.answer_event_allowed {p : Config.Params} (hstrict : p.busStrict = true) {c : I2c} {k : BusCommand}
    {code b : Byte} {e : BusEvent} (hquiet : c.event = none) (he : (c.answer p k code b).event = some e) :
    statusCode e.status ∈ c.allowedCodes p.statusTable k := by
  obtain ⟨c', hc, ha⟩ | ⟨-, -, ha⟩ | ⟨-, hloose, -⟩ := c.answer_cases p k code b
  · rw [ha, I2c.raiseEvent_event] at he
    obtain rfl := Option.some.inj he
    rw [statusCode_statusOf, statusCode_statusCode]
    exact I2c.conformingAnswer_allowed hc
  · rw [ha, hquiet] at he
    cases he
  · cases hstrict.symm.trans hloose

/-- A bus turn has no step to take while no command is pending, while the peripheral is disabled, and under `BUS_STRICT`
with a code outside the table. -/
theorem State.busStep_passes {s : State} {code : Byte} (b : Byte)
    (h : s.i2c.cmd = none ∨ s.i2c.enabled = false ∨ (s.params.busStrict = true ∧
      ∃ k, s.i2c.cmd = some k ∧ statusCode code ∉ s.i2c.allowedCodes s.params.statusTable k)) :
    s.busStep code b = s := by
  obtain hb | ⟨k, hk, hen, hb⟩ := s.busStep_cases code b
  · exact hb
  · obtain hno | hoff | ⟨hstrict, k', hk', hother⟩ := h
    · cases hno.symm.trans hk
    · cases hoff.symm.trans hen
    · obtain rfl := Option.some.inj (hk'.symm.trans hk)
      rw [hb, I2c.answer_outside hstrict hother b]
      rfl

section
variable {s : State} {code b : Byte} {ts : List Turn} (hf : s.fault = none) (hs : s.turns = .bus code b :: ts)
include hf hs

theorem step_bus : step s = .next (({ s with turns := ts } : State).busStep code b) := by
  have hf' : ({ s with turns := ts } : State).fault = none := hf
  simp only [step, hs, State.turnStep, State.perform_clear hf']

variable {k : BusCommand} (hen : s.i2c.enabled = true) (hk : s.i2c.cmd = some k)
include hen hk

/-- A bus turn that answers the pending command and raises the event. -/
theorem step_bus_raises {c : I2c}
    (ha : s.i2c.answer s.params k code b = c.raiseEvent (statusCode code) s.params.presc) :
    step s = .next (s.busAnswered ts (code &&& 0xF8) c) := by
  have hstep : ({ s with turns := ts } : State).busStep code b =
      ({ s with turns := ts } : State).withI2c (s.i2c.answer s.params k code b) := by
    simp only [State.busStep, hk, hen, if_true]
  rw [step_bus hf hs, hstep, ha, I2c.raiseEvent, statusOf_statusCode_presc]
  rfl

/-- The bus answers with the code of a row of the table as the row says. -/
theorem step_bus_conforming (ht : statusTableWf s.params.statusTable = true) {p : Config.StatusPhase} {c : I2c}
    (hrow : s.i2c.ConformingRow b k p c) (hp : code &&& 0xF8 = s.params.statusTable.code p) :
    step s = .next (s.busAnswered ts (code &&& 0xF8) c) := by
  have hphase : statusPhase? s.params.statusTable code = some p := (statusPhase?_iff ht code p).2 hp.symm
  refine step_bus_raises hf hs hen hk ?_
  simp only [I2c.answer, hphase, hrow.conformingAnswer]

/-- Outside START an answer with a code the table leaves out draws the data register and shows `X(k)`. -/
theorem step_bus_other (hstart : k ≠ .start) (hother : code &&& 0xF8 ∉ s.i2c.allowedCodes s.params.statusTable k)
    (hloose : s.params.busStrict = false) :
    step s = .next (s.busAnswered ts (code &&& 0xF8)
      { s.i2c with dr := b, trace := s.i2c.trace ++ [.other (code &&& 0xF8)] }) := by
  refine step_bus_raises hf hs hen hk ?_
  rw [I2c.answer_other hloose hother b, I2c.otherAnswer_keeps_bus hstart hother b]
  rfl

end

/-! ### The statements -/

/-- Settles O43: the rows of SEND. -/
theorem busAnswersSend : Obligations.BusAnswersSend := by
  intro s code b ts a hf hs hen hk ht
  refine ⟨?_, fun hp => ?_, fun hp => ?_, fun hother hloose => ?_⟩
  · rintro (⟨ha, hd, hp⟩ | ⟨ha, hd, hp⟩ | ⟨ha, hp⟩)
    · exact step_bus_conforming hf hs hen hk ht (.addressWrite a ha hd) (hp.trans (by cases a <;> rfl))
    · exact step_bus_conforming hf hs hen hk ht (.addressRead a ha hd) (hp.trans (by cases a <;> rfl))
    · exact step_bus_conforming hf hs hen hk ht (.dataWrite a ha) (hp.trans (by cases a <;> rfl))
  · exact step_bus_conforming hf hs hen hk ht (.arbLost .send nofun) hp
  · exact step_bus_conforming hf hs hen hk ht (.busError .send nofun) hp
  · exact step_bus_other hf hs hen hk nofun hother hloose

/-- Settles O45: an event under `BUS_STRICT` comes from a row of the table, and without a row there is no step. -/
theorem strictBusRaisesOnlyConformingCodes : Obligations.StrictBusRaisesOnlyConformingCodes := by
  intro s code b ts hf hs
  refine ⟨fun t k e hstrict hk hquiet hstep hraised => ?_, fun hpass => ?_⟩
  · rw [step_bus hf hs] at hstep
    injection hstep with hstep
    subst hstep
    obtain hb | ⟨k', hk', -, hb⟩ := State.busStep_cases { s with turns := ts } code b <;> rw [hb] at hraised
    · cases hquiet.symm.trans hraised
    · obtain rfl := Option.some.inj (hk.symm.trans hk')
      exact I2c.answer_event_allowed hstrict hquiet hraised
  · rw [step_bus hf hs]
    exact congrArg _ (State.busStep_passes (s := { s with turns := ts }) b hpass)

/-- Settles O42: the rows of START; outside them the codes that release the bus are those of two phases. -/
theorem busAnswersStart : Obligations.BusAnswersStart := by
  intro s code b ts hf hs hen hk ht
  refine ⟨fun hp hfree => ?_, fun hp howned => ?_, fun hp => ?_, fun hother hloose => ?_⟩
  · exact step_bus_conforming hf hs hen hk ht (.start hfree) hp
  · exact step_bus_conforming hf hs hen hk ht (.repStart howned) hp
  · exact step_bus_conforming hf hs hen hk ht .startError hp
  · have hphase : ∀ p, statusPhase? s.params.statusTable code = some p ↔
        code &&& 0xF8 = s.params.statusTable.code p := fun p => (statusPhase?_iff ht code p).trans eq_comm
    rw [step_bus_raises hf hs hen hk (I2c.answer_other hloose hother b), I2c.otherAnswer]
    simp only [hphase]
    rfl

/-- Settles O44: the rows of the two receive commands. -/
theorem busAnswersReceive : Obligations.BusAnswersReceive := by
  intro s code b ts c hf hs hen hk hc ht
  have hstart : c ≠ .start := by obtain rfl | rfl := hc <;> nofun
  refine ⟨?_, ?_, fun hp => ?_, fun hp => ?_, fun hother hloose => ?_⟩
  · rintro rfl hp
    exact step_bus_conforming hf hs hen hk ht .receiveAck hp
  · rintro rfl hp
    exact step_bus_conforming hf hs hen hk ht .receiveNack hp
  · exact step_bus_conforming hf hs hen hk ht (.arbLost c hstart) hp
  · exact step_bus_conforming hf hs hen hk ht (.busError c hstart) hp
  · exact step_bus_other hf hs hen hk hstart hother hloose

end Sys2Proof.Machine
end

