-- ==== Sys2Proof/Proofs/Conformance.lean ====
section
/-!
PROOFS. On a bus held to the conforming table every step keeps `I2c.Conforming` (41_i2c_event_engine.md R149, R150,
R152, R158, R163), and a transaction of `n` bytes takes at most `n + 2` handler invocations (R154).

`I2cChange` says once what a step can do to the I2C context. Two of its cases matter: the handler's action, which turns
the event of a phase into a command or ends the transaction (`I2c.Handled`), and the bus, which turns a command into the
event of a phase (`I2c.ConformingRow.fits`). Each says two things at once: that the new command or event fits the
transaction, which is O56, and what becomes of the number of handler invocations to come, which adds up to O57.
-/

namespace Sys2Proof.Machine

open Sys2Proof

/-! ### What a step does to the I2C context -/

/-- What a step can do to the I2C context `c`, the parameters being `p`; the flag says whether the step is an invocation
of the I2C handler. -/
inductive I2cChange (p : Config.Params) (c : I2c) : Bool → I2c → Prop
  | unchanged : I2cChange p c false c
  | init (n : Nat) : I2cChange p c false { c with bitRate := n, enabled := true }
  | start (e : EngineState) (d : BitVec 1) (a f : Byte) (b l : Addr)
    (hd : (e = .masterWriting ∧ d = 0) ∨ (e = .masterReading ∧ d = 1)) (hi : c.state = .idle) :
    I2cChange p c false (c.startTransaction e d a f b l)
  | handle (e : BusEvent) (s : State) (he : c.event = some e) (hs : s.i2c = c.enterHandler e.status) :
    I2cChange p c true (s.performAction (decodeStatusAction p.statusTable e.status)).i2c
  | bus (k : BusCommand) (code b : Byte) (hk : c.cmd = some k) : I2cChange p c false (c.answer p k code b)

theorem Effect.i2cChange {s t : State} {tn : Turn} (h : Effect s tn t) (hf : t.fault = none) :
    I2cChange s.params s.i2c (tn == .i2cHandler && s.i2cDeliverable) t.i2c := by
  cases h with
  | stay _ hi =>
    have hflag : (tn == .i2cHandler && s.i2cDeliverable) = false := by
      rw [Bool.and_eq_false_imp]
      exact fun htn => hi (beq_iff_eq.1 htn)
    exact hflag ▸ .unchanged
  | misuse => cases hf
  | i2cInit n => exact .init n
  | i2cStart e d a f b l hd _ hi => exact .start e d a f b l hd hi
  | i2cEvent e hg he =>
    have hflag : s.i2cDeliverable = true := by simp [State.i2cDeliverable, hg, he]
    rw [hflag]
    exact .handle e (s.withI2c (s.i2c.enterHandler e.status)) he rfl
  | bus code b =>
    obtain h | ⟨k, hk, -, h⟩ := s.busStep_cases code b <;> rw [h]
    · exact .unchanged
    · exact .bus k code b hk
  | txEvent u x => exact State.streamNextByte_i2c hf ▸ .unchanged
  | lineLoad u => exact (s.lineStep_i2c u _).symm ▸ .unchanged
  | lineShift u => exact (s.lineStep_i2c u _).symm ▸ .unchanged
  | lineReceive u b k => exact (s.lineStep_i2c u _).symm ▸ .unchanged
  | refuse => exact .unchanged
  | answer => exact .unchanged
  | memWrite => exact .unchanged
  | uartInit => exact .unchanged
  | sendManual => exact .unchanged
  | sendAuto => exact .unchanged
  | fetch => exact .unchanged
  | rxEvent => exact .unchanged
  | platform => exact .unchanged

theorem Effect.params_unchanged {s t : State} {tn : Turn} (h : Effect s tn t) : t.params = s.params := by
  cases h.frame <;> rfl

theorem State.i2cHandlerNext_eq {s : State} {tn : Turn} {ts : List Turn}
    (h : s.turns = tn :: ts ∨ (s.turns = [] ∧ tn = .foreground ∧ ts = [])) :
    s.i2cHandlerNext = (tn == .i2cHandler && s.i2cDeliverable) := by
  obtain hs | ⟨hs, rfl, -⟩ := h
  · cases tn <;> simp [State.i2cHandlerNext, hs]
  · simp [State.i2cHandlerNext, hs]

/-- A step after which no misuse has occurred keeps the parameters and changes the I2C context in one of the ways
above. -/
theorem step_i2cChange {s t : State} (h : step s = .next t) (hf : t.fault = none) :
    t.params = s.params ∧ I2cChange s.params s.i2c s.i2cHandlerNext t.i2c := by
  obtain ⟨tn, ts, t', p, hturn, he, rfl⟩ := step_effect (fault_none_of_step h hf) h
  refine ⟨he.params_unchanged, ?_⟩
  rw [State.i2cHandlerNext_eq hturn]
  exact he.i2cChange hf

/-! ### The number of handler invocations to come (R154) -/

theorem TransferBuffer.advance_progress_lt {b : TransferBuffer} (h : b.exhausted = false) :
    b.advance.progress.toNat < b.progress.toNat := by
  have hne := b.exhausted_eq_false_iff.1 h
  simp only [TransferBuffer.progress, TransferBuffer.advance_cursor, TransferBuffer.advance_limit]
  bv_omega

/-- `I2c.handlerBudget` while a command is pending, with `n` bytes to move. -/
def commandBudget (n : Nat) : BusCommand → Nat
  | .start => n + 2
  | .send => n + 1
  | .recvAck | .recvNack => n

theorem I2c.handlerBudget_of_command {c : I2c} {k : BusCommand} (h : c.cmd = some k) (t : Config.StatusTable) :
    c.handlerBudget t = commandBudget c.buf.progress.toNat k := by
  simp only [I2c.handlerBudget, h]
  cases k <;> rfl

theorem I2c.handlerBudget_of_event {c : I2c} {e : BusEvent} {p : Config.StatusPhase} {t : Config.StatusTable}
    (hk : c.cmd = none) (he : c.event = some e) (hp : statusPhase? t e.status = some p) :
    c.handlerBudget t = phaseBudget c.buf.progress.toNat (some p) := by
  simp only [I2c.handlerBudget, hk, he, hp]

theorem I2c.handlerBudget_of_quiet {c : I2c} (hk : c.cmd = none) (he : c.event = none) (t : Config.StatusTable) :
    c.handlerBudget t = 0 := by
  simp only [I2c.handlerBudget, hk, he]

theorem I2c.CommandFits.budget_pos {c : I2c} {k : BusCommand} (h : c.CommandFits k) :
    0 < commandBudget c.buf.progress.toNat k := by
  cases k with
  | start => exact Nat.succ_pos _
  | send => exact Nat.succ_pos _
  | recvAck =>
    obtain ⟨-, htwo, -⟩ := h
    exact Nat.lt_of_lt_of_le Nat.two_pos htwo
  | recvNack =>
    obtain ⟨-, hone, -⟩ := h
    exact hone ▸ Nat.one_pos

theorem I2c.PhaseFits.budget_pos {c : I2c} {p : Config.StatusPhase} (h : c.PhaseFits p) :
    0 < phaseBudget c.buf.progress.toNat (some p) := by
  cases p with
  | dataRAck =>
    obtain ⟨-, htwo, -⟩ := h
    exact Nat.lt_of_lt_of_le Nat.two_pos htwo
  | dataRNack =>
    obtain ⟨-, hone, -⟩ := h
    exact hone ▸ Nat.one_pos
  | _ => exact Nat.succ_pos _

/-! ### Conforming contexts -/

theorem I2c.conforming_of_idle {c : I2c} (hs : c.state = .idle) (hk : c.cmd = none) (he : c.event = none)
    (t : Config.StatusTable) : c.Conforming t where
  writeDirection hw := by cases hs.symm.trans hw
  readDirection hr := by cases hs.symm.trans hr
  command k h := by cases hk.symm.trans h
  event e h := by cases he.symm.trans h

section
variable {t : Config.StatusTable} {c c' : I2c} (h : c.Conforming t) (hs : c'.state = c.state) (hsla : c'.sla = c.sla)
include h hs hsla

/-- The direction bit is kept, and a command that fits is pending. -/
theorem I2c.Conforming.toCommand {k : BusCommand} (hk : c'.cmd = some k) (hfit : c'.CommandFits k)
    (he : c'.event = none) : c'.Conforming t where
  writeDirection hw := hsla ▸ h.writeDirection (hs ▸ hw)
  readDirection hr := hsla ▸ h.readDirection (hs ▸ hr)
  command k' hk' := by
    obtain rfl := Option.some.inj (hk.symm.trans hk')
    exact hfit
  event e he' := by cases he.symm.trans he'

/-- The direction bit is kept, and the event of a phase that fits is pending. -/
theorem I2c.Conforming.toEvent {e : BusEvent} {p : Config.StatusPhase} (hk : c'.cmd = none) (he : c'.event = some e)
    (hp : statusPhase? t e.status = some p) (hfit : c'.PhaseFits p) : c'.Conforming t where
  writeDirection hw := hsla ▸ h.writeDirection (hs ▸ hw)
  readDirection hr := hsla ▸ h.readDirection (hs ▸ hr)
  command k hk' := by cases hk.symm.trans hk'
  event e' he' := by
    obtain rfl := Option.some.inj (he.symm.trans he')
    exact ⟨p, hp, hfit⟩

end

/-! ### The handler's action -/

/-- What an action leaves of the transaction of `c`, with `n` handler invocations to come before it: it has ended, or a
command that fits it is pending and fewer invocations are to come. -/
inductive I2c.Handled (c : I2c) (n : Nat) (c' : I2c) : Prop
  | ended (hs : c'.state = .idle) (hk : c'.cmd = none)
  | armed (k : BusCommand) (hs : c'.state = c.state) (hsla : c'.sla = c.sla) (hk : c'.cmd = some k)
    (hfit : c'.CommandFits k) (hn : commandBudget c'.buf.progress.toNat k < n)

theorem I2c.handled_complete (c : I2c) (n : Nat) (c' : I2c) : c.Handled n c'.complete :=
  .ended c'.complete_state c'.complete_cmd

theorem I2c.handled_abort (c : I2c) (n : Nat) (c' : I2c) : c.Handled n c'.abort :=
  .ended c'.abort_state c'.abort_cmd

theorem I2c.Handled.of_advance {c c' : I2c} {n : Nat} (h : c.advance.Handled n c') : c.Handled n c' := by
  cases h with
  | ended hs hk => exact .ended hs hk
  | armed k hs hsla hk hfit hn => exact .armed k hs hsla hk hfit hn

/-- The bus is armed for as many bytes as there is room for, the last one with NACK (R147, R152). -/
theorem I2c.handled_armReceive {c : I2c} (hr : c.state = .masterReading) (ha : c.addrPhase = false) {n : Nat}
    (hn : c.buf.progress.toNat < n) : c.Handled n c.armReceive := by
  obtain ⟨-, h⟩ | ⟨hone, h⟩ | ⟨hzero, hone, h⟩ := c.armReceive_cases <;> rw [h]
  · exact c.handled_complete n c
  · exact .armed .recvNack rfl rfl rfl ⟨hr, congrArg BitVec.toNat hone, ha⟩ hn
  · exact .armed .recvAck rfl rfl rfl ⟨hr, by bv_omega, ha⟩ hn

/-- The action of a phase that fits the transaction. -/
theorem State.performAction_handled {s : State} {p : Config.StatusPhase} (h : s.i2c.PhaseFits p) :
    s.i2c.Handled (phaseBudget s.i2c.buf.progress.toNat (some p)) (s.performAction (phaseAction p)).i2c := by
  have sendsAddress : s.i2c.addrPhase = true → s.i2c.Handled (s.i2c.buf.progress.toNat + 2) s.actionA1.i2c :=
    fun ha => .armed .send rfl rfl rfl (.inl ⟨ha, rfl⟩) (Nat.lt_succ_self _)
  have sendsByte : s.i2c.state = .masterWriting ∧ s.i2c.addrPhase = false →
      s.i2c.Handled (s.i2c.buf.progress.toNat + 1) s.actionA2.i2c := by
    rintro ⟨hw, ha⟩
    cases hx : s.i2c.buf.exhausted with
    | true =>
      rw [State.actionA2_of_none_left hx]
      exact s.i2c.handled_complete _ _
    | false =>
      rw [State.actionA2_of_room hx]
      exact .armed .send rfl rfl rfl (.inr ⟨ha, hw⟩) 
        (Nat.succ_lt_succ (TransferBuffer.advance_progress_lt hx))
  cases p with
  | start => exact sendsAddress h
  | repStart => exact sendsAddress h
  | slaWAck => exact sendsByte h
  | dataWAck => exact sendsByte h
  | slaWNack => exact s.i2c.handled_complete _ _
  | dataWNack => exact s.i2c.handled_complete _ _
  | slaRAck =>
    obtain ⟨hr, ha⟩ := h
    exact I2c.handled_armReceive hr ha (Nat.lt_succ_self _)
  | dataRAck =>
    obtain ⟨hr, -, ha⟩ := h
    cases hx : s.i2c.buf.exhausted with
    | true =>
      rw [phaseAction, State.performAction, State.actionA6_of_full hx]
      exact s.i2c.handled_abort _ _
    | false =>
      rw [phaseAction, State.performAction, State.actionA6_of_room hx]
      exact (I2c.handled_armReceive (c := s.i2c.advance) hr ha (TransferBuffer.advance_progress_lt hx)).of_advance
  | dataRNack =>
    cases hx : s.i2c.buf.exhausted with
    | true =>
      rw [phaseAction, State.performAction, State.actionA7_of_full hx]
      exact s.i2c.handled_abort _ _
    | false =>
      rw [phaseAction, State.performAction, State.actionA7_of_room hx]
      exact s.i2c.handled_complete _ _
  | slaRNack => exact s.i2c.handled_abort _ _
  | arbLost => exact s.i2c.handled_abort _ _
  | busError => exact s.i2c.handled_abort _ _
  | noInfo => exact s.i2c.handled_abort _ _

/-! ### The bus -/

/-- A busy engine's direction bit is its state (R163). -/
theorem I2c.Conforming.state_of_direction {p : Config.Params} {t : Config.StatusTable} {c : I2c} (h : c.Conforming t)
    (hc : c.Consistent p) (hbusy : c.state ≠ .idle) :
    c.state = if c.sla.getLsbD 0 then .masterReading else .masterWriting := by
  cases hs : c.state with
  | idle => exact absurd hs hbusy
  | error => exact absurd hs hc.notError
  | masterWriting => simp only [h.writeDirection hs, Bool.false_eq_true, if_false]
  | masterReading => simp only [h.readDirection hs, if_true]

/-- A row of the table answers a command that fits the transaction with a phase that fits it, and no handler invocation
is added. -/
theorem I2c.ConformingRow.fits {p : Config.Params} {t : Config.StatusTable} {c c' : I2c} {b : Byte} {k : BusCommand}
    {phase : Config.StatusPhase} (hrow : c.ConformingRow b k phase c') (h : c.Conforming t) (hc : c.Consistent p)
    (hbusy : c.state ≠ .idle) (hk : c.CommandFits k) :
    c'.PhaseFits phase ∧
      phaseBudget c.buf.progress.toNat (some phase) ≤ commandBudget c.buf.progress.toNat k := by
  have hstate := h.state_of_direction hc hbusy
  cases hrow with
  | start => exact ⟨rfl, Nat.le_refl _⟩
  | repStart => exact ⟨rfl, Nat.le_refl _⟩
  | startError => exact ⟨trivial, hk.budget_pos⟩
  | arbLost => exact ⟨trivial, hk.budget_pos⟩
  | busError => exact ⟨trivial, hk.budget_pos⟩
  | addressWrite a ha hd =>
    obtain ⟨-, hdr⟩ | ⟨hn, -⟩ := hk
    · have hw : c.state = .masterWriting := by rw [hstate, ← hdr, hd]; rfl
      cases a <;> exact ⟨⟨hw, rfl⟩, Nat.le_refl _⟩
    · cases hn.symm.trans ha
  | addressRead a ha hd =>
    obtain ⟨-, hdr⟩ | ⟨hn, -⟩ := hk
    · have hr : c.state = .masterReading := by rw [hstate, ← hdr, hd]; rfl
      cases a <;> exact ⟨⟨hr, rfl⟩, Nat.le_refl _⟩
    · cases hn.symm.trans ha
  | dataWrite a ha =>
    obtain ⟨hn, -⟩ | ⟨-, hw⟩ := hk
    · cases hn.symm.trans ha
    · cases a <;> exact ⟨⟨hw, rfl⟩, Nat.le_refl _⟩
  | receiveAck => exact ⟨hk, Nat.le_refl _⟩
  | receiveNack => exact ⟨hk, Nat.le_refl _⟩

/-- Under `BUS_STRICT` an answer raises the event of a row of the table, or is no step (R157). -/
theorem I2c.answer_strict {p : Config.Params} (hstrict : p.busStrict = true) (c : I2c) (k : BusCommand)
    (code b : Byte) :
    (∃ phase c', statusPhase? p.statusTable code = some phase ∧ c.ConformingRow b k phase c' ∧
      c.answer p k code b = c'.raiseEvent (statusCode code) p.presc) ∨ c.answer p k code b = c := by
  obtain ⟨c', hc, ha⟩ | ⟨-, -, ha⟩ | ⟨-, hloose, -⟩ := c.answer_cases p k code b
  · obtain ⟨phase, hphase, hrow⟩ := (c.conformingAnswer_iff_row c' b k _).1 hc
    exact .inl ⟨phase, c', hphase, hrow, ha⟩
  · exact .inr ha
  · cases hstrict.symm.trans hloose

/-- The event raised has the phase of the code chosen. -/
theorem statusPhase?_raised (t : Config.StatusTable) (code : Byte) (presc : BitVec 3) :
    statusPhase? t (statusOf (statusCode code) presc) = statusPhase? t code :=
  statusPhase?_masked t ((statusCode_statusOf _ presc).trans (statusCode_statusCode code))

/-! ### A start operation -/

/-- The direction bit of the address-plus-direction byte (30_encoding.md R96). -/
theorem slaOf_direction (a : Byte) (d : BitVec 1) : (slaOf a d).getLsbD 0 = d.getLsbD 0 :=
  BitVec.getLsbD_append.trans (if_pos Nat.one_pos)

/-- A start operation writes the direction bit of the engine state and drives START (R163). -/
theorem I2c.Consistent.startTransaction_conforming {p : Config.Params} {c : I2c} (hc : c.Consistent p)
    {e : EngineState} {d : BitVec 1} (hd : (e = .masterWriting ∧ d = 0) ∨ (e = .masterReading ∧ d = 1))
    (hi : c.state = .idle) (a f : Byte) (b l : Addr) (t : Config.StatusTable) :
    (c.startTransaction e d a f b l).Conforming t where
  writeDirection hw := by
    obtain ⟨-, rfl⟩ | ⟨rfl, -⟩ := hd
    · exact slaOf_direction a 0
    · cases hw
  readDirection hr := by
    obtain ⟨rfl, -⟩ | ⟨-, rfl⟩ := hd
    · cases hr
    · exact slaOf_direction a 1
  command k hk := by
    obtain rfl := Option.some.inj hk
    trivial
  event e' he := by
    obtain ⟨-, hno⟩ := hc.idleQuiet hi
    cases hno.symm.trans he

/-! ### A step -/

section
variable {p : Config.Params} {c c' : I2c} (hc : c.Consistent p) (h : c.Conforming p.statusTable)
include hc h

/-- An invocation of the handler: the transaction fits afterwards, and fewer invocations are to come. -/
theorem I2c.Conforming.handle {e : BusEvent} (he : c.event = some e) {s : State}
    (hs : s.i2c = c.enterHandler e.status) :
    (s.performAction (decodeStatusAction p.statusTable e.status)).i2c.Conforming p.statusTable ∧
      (s.performAction (decodeStatusAction p.statusTable e.status)).i2c.handlerBudget p.statusTable <
        c.handlerBudget p.statusTable := by
  obtain ⟨phase, hphase, hfit⟩ := h.event e he
  have hcmd : c.cmd = none := (hc.enterHandler he).noCommand
  have hevent : (s.performAction (phaseAction phase)).i2c.event = none := by rw [s.performAction_event, hs]; rfl
  have hfit' : s.i2c.PhaseFits phase := by
    rw [hs]
    cases phase <;> exact hfit
  have hprogress : s.i2c.buf.progress = c.buf.progress := by rw [hs]; rfl
  rw [decodeStatusAction_some hphase, I2c.handlerBudget_of_event hcmd he hphase, ← hprogress]
  cases State.performAction_handled hfit' with
  | ended hidle hk =>
    rw [I2c.handlerBudget_of_quiet hk hevent]
    exact ⟨I2c.conforming_of_idle hidle hk hevent _, hfit'.budget_pos⟩
  | armed k hstate hsla hk hkfit hn =>
    rw [I2c.handlerBudget_of_command hk]
    exact ⟨h.toCommand (hstate.trans (by rw [hs]; rfl)) (hsla.trans (by rw [hs]; rfl)) hk hkfit hevent, hn⟩

/-- An answer of the bus: the transaction fits afterwards, and no more invocations are to come than before. -/
theorem I2c.Conforming.answer (hstrict : p.busStrict = true) {k : BusCommand} (hk : c.cmd = some k) (code b : Byte) :
    (c.answer p k code b).Conforming p.statusTable ∧
      (c.answer p k code b).handlerBudget p.statusTable ≤ c.handlerBudget p.statusTable := by
  obtain ⟨phase, c', hphase, hrow, ha⟩ | ha := I2c.answer_strict hstrict c k code b <;> rw [ha]
  · have hbusy : c.state ≠ .idle := by
      intro hi
      obtain ⟨hno, -⟩ := hc.idleQuiet hi
      cases hno.symm.trans hk
    obtain ⟨hstate, -, -, hsla, hbuf, -⟩ := I2c.conformingAnswer_frame hrow.conformingAnswer
    obtain ⟨hfit, hbudget⟩ := hrow.fits h hc hbusy (h.command k hk)
    have hraised := (statusPhase?_raised p.statusTable code p.presc).trans hphase
    have hfit' : (c'.raiseEvent (statusCode code) p.presc).PhaseFits phase := by
      cases phase <;> exact hfit
    refine ⟨h.toEvent hstate hsla rfl rfl hraised hfit', ?_⟩
    rw [I2c.handlerBudget_of_event rfl rfl hraised, I2c.handlerBudget_of_command hk, I2c.raiseEvent_buf, hbuf]
    exact hbudget
  · exact ⟨h, Nat.le_refl _⟩

/-- Every change of the I2C context keeps it conforming on a strict bus. -/
theorem I2cChange.conforming (hstrict : p.busStrict = true) {inv : Bool} (hch : I2cChange p c inv c') :
    c'.Conforming p.statusTable := by
  cases hch with
  | unchanged => exact h
  | init n => exact { h with }
  | start e d a f b l hd hi => exact hc.startTransaction_conforming hd hi a f b l _
  | handle e s he hs => exact (h.handle hc he hs).left
  | bus k code b hk => exact (h.answer hc hstrict hk code b).left

/-- While a transaction is outstanding on a strict bus, an invocation of the handler lowers the number of those to come,
and nothing raises it. -/
theorem I2cChange.budget (hstrict : p.busStrict = true) (hbusy : c.state ≠ .idle) {inv : Bool}
    (hch : I2cChange p c inv c') :
    c'.handlerBudget p.statusTable + (if inv then 1 else 0) ≤ c.handlerBudget p.statusTable := by
  cases hch with
  | unchanged => exact Nat.le_refl _
  | init n => exact Nat.le_refl _
  | start _ _ _ _ _ _ _ hi => exact absurd hi hbusy
  | handle e s he hs => exact (h.handle hc he hs).right
  | bus k code b hk => exact (h.answer hc hstrict hk code b).right

/-- While a transaction is outstanding an invocation is to come. -/
theorem I2c.Conforming.budget_pos (hbusy : c.state ≠ .idle) : 0 < c.handlerBudget p.statusTable := by
  obtain ⟨-, harmed⟩ := hc.busyArmed hbusy
  cases hk : c.cmd with
  | some k =>
    rw [I2c.handlerBudget_of_command hk]
    exact (h.command k hk).budget_pos
  | none =>
    obtain ⟨e, he⟩ := Option.isSome_iff_exists.1 (show c.event.isSome = true by simpa [hk] using harmed)
    obtain ⟨phase, hphase, hfit⟩ := h.event e he
    rw [I2c.handlerBudget_of_event hk he hphase]
    exact hfit.budget_pos

end

/-- Settles O56: each change of the I2C context keeps it conforming. -/
theorem everyStepKeepsConformance : Obligations.EveryStepKeepsConformance := by
  intro s t hs hstrict h hstep hf
  obtain ⟨hparams, hch⟩ := step_i2cChange hstep hf
  rw [hparams]
  exact hch.conforming (hs.i2c (fault_none_of_step hstep hf)) h hstrict

/-! ### A run -/

/-- The states of a run on a bus held to the conforming table. -/
structure State.OnStrictBus (s : State) : Prop where
  consistent : s.Consistent
  strict : s.params.busStrict = true
  conforming : s.i2c.Conforming s.params.statusTable

theorem State.OnStrictBus.step {s t : State} (h : s.OnStrictBus) (hstep : step s = .next t) (hf : t.fault = none) :
    t.OnStrictBus where
  consistent := everyStepKeepsConsistency s t h.consistent hstep
  strict := (step_i2cChange hstep hf).left ▸ h.strict
  conforming := everyStepKeepsConformance s t h.consistent h.strict h.conforming hstep hf

theorem State.OnStrictBus.step_budget {s t : State} (h : s.OnStrictBus) (hbusy : s.i2c.state ≠ .idle)
    (hstep : Machine.step s = .next t) (hf : t.fault = none) :
    t.i2c.handlerBudget t.params.statusTable + (if s.i2cHandlerNext then 1 else 0) ≤
      s.i2c.handlerBudget s.params.statusTable := by
  obtain ⟨hparams, hch⟩ := step_i2cChange hstep hf
  rw [hparams]
  exact hch.budget (h.consistent.i2c (fault_none_of_step hstep hf)) h.conforming h.strict hbusy

/-- The first step of a run of the transaction. -/
theorem transactionRun_succ {n k : Nat} {s t : State} (h : transactionRun (n + 1) s = some (t, k)) :
    ∃ s' k', s.fault = none ∧ s.i2c.state ≠ .idle ∧ step s = .next s' ∧ transactionRun n s' = some (t, k') ∧
      k = k' + if s.i2cHandlerNext then 1 else 0 := by
  unfold transactionRun at h
  split at h
  · rename_i hgo
    obtain ⟨hf, hbusy⟩ := hgo
    split at h
    · rename_i s' hstep
      obtain ⟨⟨t', k'⟩, hrun, hr⟩ := Option.map_eq_some_iff.1 h
      obtain ⟨rfl, rfl⟩ := Prod.mk.inj hr
      exact ⟨s', k', hf, hbusy, hstep, hrun, rfl⟩
    · cases h
    · cases h
  · cases h

/-- A run that ends with no misuse begins with none. -/
theorem transactionRun_fault {n k : Nat} {s t : State} (h : transactionRun n s = some (t, k)) (hf : t.fault = none) :
    s.fault = none := by
  cases n with
  | zero =>
    obtain ⟨rfl, -⟩ := Prod.mk.inj (Option.some.inj h)
    exact hf
  | succ n =>
    obtain ⟨-, -, hs, -⟩ := transactionRun_succ h
    exact hs

/-- Along a run the invocations that have happened and those to come are never more than those to come at its start. -/
theorem transactionRun_budget {n k : Nat} {s t : State} (h : s.OnStrictBus) (hrun : transactionRun n s = some (t, k))
    (hf : t.fault = none) :
    t.OnStrictBus ∧ k + t.i2c.handlerBudget t.params.statusTable ≤ s.i2c.handlerBudget s.params.statusTable := by
  induction n generalizing s k with
  | zero =>
    obtain ⟨rfl, rfl⟩ := Prod.mk.inj (Option.some.inj hrun)
    exact ⟨h, Nat.le_of_eq (Nat.zero_add _)⟩
  | succ n ih =>
    obtain ⟨s', k', -, hbusy, hstep, hrest, rfl⟩ := transactionRun_succ hrun
    have hf' := transactionRun_fault hrest hf
    obtain ⟨ht, hlater⟩ := ih (h.step hstep hf') hrest
    have hfirst := h.step_budget hbusy hstep hf'
    exact ⟨ht, by omega⟩

/-- Settles O57: START leaves `length + 2` invocations to come, and an outstanding transaction one at least. -/
theorem transactionEndsWithinLengthPlusTwoEvents : Obligations.TransactionEndsWithinLengthPlusTwoEvents := by
  intro s t n k hs hstrict hconf hstart hrun hf
  obtain ⟨ht, hbudget⟩ := transactionRun_budget ⟨hs, hstrict, hconf⟩ hrun hf
  rw [I2c.handlerBudget_of_command hstart, commandBudget] at hbudget
  refine ⟨by omega, fun hbusy => ?_⟩
  have hleft := ht.conforming.budget_pos (ht.consistent.i2c hf) hbusy
  omega

end Sys2Proof.Machine
end

