-- ==== Sys2Proof/Proofs/UartForeground.lean ====
section
/-!
PROOFS. The UART operations that configure a unit and move its bytes (42_uart_foreground.md R190, R191, R193, R194,
R197). The divisor's bounds are first those of the quotient, then those of R190. What an operation does with a unit
that exists is said in terms of the unit's fields and in the order of the checks; the statements follow from that.
-/

namespace Sys2Proof.Machine

open Sys2Proof

/-! ### BAUD_DIVISOR (R190) -/

section
variable (cpuClockHz baud : Word32) (doubleSpeed : Bool)

/-- The divisor is the quotient, less one. -/
theorem baudDivisor_eq_some_iff (d : BitVec 12) :
    baudDivisor cpuClockHz baud doubleSpeed = some d ↔
      d.toNat + 1 ≤ cpuClockHz.toNat / (Config.baudMult doubleSpeed * baud.toNat) ∧
      cpuClockHz.toNat / (Config.baudMult doubleSpeed * baud.toNat) < d.toNat + 2 := by
  have hd := d.isLt
  have hwidth : 2 ^ Config.divWidth = 4096 := rfl
  dsimp only [baudDivisor]
  generalize cpuClockHz.toNat / (Config.baudMult doubleSpeed * baud.toNat) = q
  split_ifs with hzero hwide
  · exact iff_of_false nofun (by omega)
  · exact iff_of_false nofun (by omega)
  · rw [Option.some.injEq, ← BitVec.toNat_inj, BitVec.toNat_ofNat]
    omega

/-- Refused: a quotient of 0, or one whose predecessor needs more than twelve bits. -/
theorem baudDivisor_eq_none_iff :
    baudDivisor cpuClockHz baud doubleSpeed = none ↔
      cpuClockHz.toNat / (Config.baudMult doubleSpeed * baud.toNat) < 1 ∨
      4097 ≤ cpuClockHz.toNat / (Config.baudMult doubleSpeed * baud.toNat) := by
  have hwidth : 2 ^ Config.divWidth = 4096 := rfl
  dsimp only [baudDivisor]
  generalize cpuClockHz.toNat / (Config.baudMult doubleSpeed * baud.toNat) = q
  split_ifs with hzero hwide
  · exact iff_of_true rfl (by omega)
  · exact iff_of_true rfl (by omega)
  · exact iff_of_false nofun (by omega)

end

/-- What the clock is divided by. -/
theorem baudUnit_pos {baud : Word32} (hb : baud ≠ 0) (doubleSpeed : Bool) :
    0 < Config.baudMult doubleSpeed * baud.toNat :=
  Nat.mul_pos (by cases doubleSpeed <;> decide) (BitVec.toNat_pos_of_ne_zero hb)

/-- Settles O29: the bounds are those of a quotient by a positive number. -/
theorem baudDivisorIsTheFloor : Obligations.BaudDivisorIsTheFloor := by
  intro cpuClockHz baud doubleSpeed hb unit
  have hunit : 0 < unit := baudUnit_pos hb doubleSpeed
  have hle (k : Nat) : k ≤ cpuClockHz.toNat / unit ↔ unit * k ≤ cpuClockHz.toNat := by
    rw [Nat.le_div_iff_mul_le hunit, Nat.mul_comm]
  have hlt (k : Nat) : cpuClockHz.toNat / unit < k ↔ cpuClockHz.toNat < unit * k := by
    rw [Nat.div_lt_iff_lt_mul hunit, Nat.mul_comm]
  have hzero : cpuClockHz.toNat / unit < 1 ↔ cpuClockHz.toNat < unit := by rw [hlt, Nat.mul_one]
  exact ⟨fun d => (baudDivisor_eq_some_iff _ _ _ d).trans (and_congr (hle _) (hlt _)),
    (baudDivisor_eq_none_iff _ _ _).trans (or_congr hzero (hle _))⟩

/-! ### The fields the operations check -/

theorem TransferBuffer.not_exhausted_iff (b : TransferBuffer) : (!b.exhausted) = true ↔ b.cursor ≠ b.limit := by
  rw [Bool.not_eq_true', ← Bool.not_eq_true, b.exhausted_iff]

theorem Uart.not_txEmpty_iff (x : Uart) : (!x.txEmpty) = true ↔ x.txData ≠ none := by
  rw [x.txEmpty_eq, Bool.not_eq_true', decide_eq_false_iff_not]

/-- A stream is outstanding: `Auto` mode and a cursor short of the end. -/
theorem Uart.streamActive_iff_cursor (x : Uart) :
    x.streamActive = true ↔ x.txMode = .auto ∧ x.txBuf.cursor ≠ x.txBuf.limit := by
  rw [x.streamActive_iff, ← Bool.not_eq_true', x.txBuf.not_exhausted_iff]

theorem Uart.busy_iff (x : Uart) :
    x.busy = true ↔ x.txData ≠ none ∨ x.txShift ≠ none ∨ x.txEvt = true ∨ x.rxEvt = true ∨
      (x.txMode = .auto ∧ x.txBuf.cursor ≠ x.txBuf.limit) := by
  simp only [Uart.busy, Bool.or_eq_true, Option.isSome_iff_ne_none, x.streamActive_iff_cursor, or_assoc]

theorem configLegal_iff (config : Byte) :
    configLegal config = true ↔ configReservedClear config = true ∧
      ∃ txm rxm, configTxMode config = some txm ∧ configRxMode config = some rxm := by
  simp [configLegal, Option.isSome_iff_exists, and_assoc]

/-! ### UART_INIT (R191) -/

/-- The configured context, field by field (30_encoding.md R98). -/
theorem Uart.configure_eq (x : Uart) (d : BitVec 12) (config : Byte) (txm rxm : UartMode) :
    x.configure d config txm rxm = { x with
      divisor := d
      doubleSpeed := config.getLsbD 1
      stopBits := if config.getLsbD 0 then .two else .one
      txMode := txm
      rxMode := rxm
      txEn := decide (txm ≠ .disabled)
      txIe := decide (txm = .auto)
      rxEn := decide (rxm ≠ .disabled)
      rxIe := false
      txBuf := ⟨0, 0, 0⟩ } := by
  rw [decide_not, decide_not]
  rfl

section
variable {s : State} {u : Byte} {x : Uart} (hf : s.fault = none) (hu : s.uart? u = some x)
include hf hu

/-- Operands are checked before anything else (30_encoding.md R92, R98). -/
theorem exec_uartInit_illegal {cpuClockHz baud : Word32} {config : Byte}
    (h : cpuClockHz = 0 ∨ baud = 0 ∨ configLegal config = false) :
    exec (.uartInit u cpuClockHz baud config) s = .next s.refuse := by
  refine (State.perform_onUnit_some hf hu _).trans (congrArg _ ?_)
  split
  · rfl
  · next hops =>
    simp only [Bool.not_eq_true', Bool.not_eq_false, Bool.and_eq_true, rateLegal_iff] at hops
    obtain ⟨⟨hc, hb⟩, hr⟩ := hops
    split
    · next txm rxm htx hrx =>
      have hl := (configLegal_iff config).2 ⟨hr, txm, rxm, htx, hrx⟩
      exact absurd h (by simpa [hl] using ⟨hc, hb⟩)
    · rfl

/-- With legal operands: a busy unit is misuse, and the divisor decides after that. -/
theorem exec_uartInit_legal {cpuClockHz baud : Word32} {config : Byte} {txm rxm : UartMode} (hc : cpuClockHz ≠ 0)
    (hb : baud ≠ 0) (hr : configReservedClear config = true) (htx : configTxMode config = some txm)
    (hrx : configRxMode config = some rxm) :
    exec (.uartInit u cpuClockHz baud config) s = .next (if x.busy then s.raiseMisuse .initWhileBusy
      else (baudDivisor cpuClockHz baud (config.getLsbD 1)).elim s.refuse
        fun d => s.withUart u (x.configure d config txm rxm)) := by
  have hops : (rateLegal cpuClockHz && rateLegal baud && configReservedClear config) = true := by
    rw [Bool.and_eq_true, Bool.and_eq_true, rateLegal_iff, rateLegal_iff]
    exact ⟨⟨hc, hb⟩, hr⟩
  refine (State.perform_onUnit_some hf hu _).trans (congrArg _ ?_)
  simp only [hops, htx, hrx, configDoubleSpeed]
  cases baudDivisor cpuClockHz baud (config.getLsbD 1) <;> rfl

/-! ### The send operations (R193, R194) and UART_RECEIVE_FETCH (R197) -/

theorem exec_uartSendManual (byte : Byte) :
    exec (.uartSendManual u byte) s = .next (if x.txMode = .disabled then s.raiseMisuse .txDisabled
      else if x.txData ≠ none then s.raiseMisuse .overrun
      else if x.txMode = .auto ∧ x.txBuf.cursor ≠ x.txBuf.limit then s.raiseMisuse .streamActive
      else s.withUart u { x with txData := some byte }) :=
  (State.perform_onUnit_some hf hu _).trans <| congrArg _ <|
    if_congr beq_iff_eq rfl <| if_congr x.not_txEmpty_iff rfl <| if_congr x.streamActive_iff_cursor rfl rfl

theorem exec_uartSendAuto (buffer length : Addr) :
    exec (.uartSendAuto u buffer length) s = .next (if 65536 ≤ buffer.toNat + length.toNat then s.refuse
      else if x.txMode ≠ .auto then s.raiseMisuse .notAutoMode
      else if x.txBuf.cursor ≠ x.txBuf.limit then s.raiseMisuse .streamActive
      else if x.txData ≠ none then s.raiseMisuse .overrun
      else s.withUart u { x with
        txBuf := ⟨buffer, buffer, buffer + length⟩
        txData := if length = 0 then x.txData else some (s.mem.read buffer) }) := by
  have hspan : (!spanLegal buffer length) = true ↔ 65536 ≤ buffer.toNat + length.toNat := by
    rw [Bool.not_eq_true', ← Bool.not_eq_true, spanLegal_iff, Nat.not_lt]
  exact (State.perform_onUnit_some hf hu _).trans <| congrArg _ <| if_congr hspan rfl <| if_congr bne_iff_ne rfl <|
    if_congr x.txBuf.not_exhausted_iff rfl <| if_congr x.not_txEmpty_iff rfl rfl

theorem exec_uartReceiveFetch :
    exec (.uartReceiveFetch u) s = .next (if x.rxFull = false then s.raiseMisuse .noData
      else (s.withUart u { x with rxFull := false }).respond (.data x.rxData)) :=
  (State.perform_onUnit_some hf hu _).trans <| congrArg _ <| if_congr (Bool.not_eq_true' _).to_iff rfl rfl

end

/-- Settles O30: the operands are legal, the unit is not busy and the divisor is in range. -/
theorem uartInitCompletes : Obligations.UartInitCompletes := by
  intro s u x cpuClockHz baud config txm rxm d hf hu hc hb hconfig htx hrx hdata hshift htxe hrxe hstream hd
  have hr := (configReservedClear_iff config).2 hconfig
  have hidle : ¬x.busy = true := by
    rw [x.busy_iff]
    simpa [hdata, hshift, htxe, hrxe] using hstream
  rw [exec_uartInit_legal hf hu hc hb hr htx hrx, if_neg hidle, hd, ← x.configure_eq]
  rfl

/-- Settles O31: an illegal operand is refused first, then a busy unit is misuse, then the divisor is refused. -/
theorem uartInitRefusedOrMisuse : Obligations.UartInitRefusedOrMisuse := by
  intro s u x cpuClockHz baud config hf hu busy
  refine ⟨exec_uartInit_illegal hf hu, fun hc hb hl hbusy => ?_, fun hc hb hl hidle hd => ?_⟩ <;>
    obtain ⟨hr, txm, rxm, htx, hrx⟩ := (configLegal_iff config).1 hl <;>
    rw [exec_uartInit_legal hf hu hc hb hr htx hrx]
  · rw [if_pos (x.busy_iff.2 hbusy)]
    exact ⟨_, rfl, rfl⟩
  · rw [if_neg (mt x.busy_iff.1 hidle), hd]
    rfl

/-- Settles O33: none of the three checks stops the operation. -/
theorem uartSendManualCompletes : Obligations.UartSendManualCompletes := by
  intro s u byte x hf hu hon hdata hstream
  have hquiet : ¬(x.txMode = .auto ∧ x.txBuf.cursor ≠ x.txBuf.limit) := fun ⟨hauto, hleft⟩ => hleft (hstream hauto)
  rw [exec_uartSendManual hf hu, if_neg hon, if_neg (not_not.2 hdata), if_neg hquiet]
  rfl

/-- Settles O34: the transmitter is checked first, then the data register, then the stream. -/
theorem uartSendManualMisuse : Obligations.UartSendManualMisuse := by
  intro s u byte x hf hu
  rw [exec_uartSendManual hf hu]
  refine ⟨fun hoff => ?_, fun hon hdata => ?_, fun hauto hdata hleft => ?_⟩
  · rw [if_pos hoff]
    exact ⟨_, rfl, rfl⟩
  · rw [if_neg hon, if_pos hdata]
    exact ⟨_, rfl, rfl⟩
  · rw [if_neg (by simp [hauto]), if_neg (not_not.2 hdata), if_pos ⟨hauto, hleft⟩]
    exact ⟨_, rfl, rfl⟩

/-- Settles O35: no check stops the operation, and a span that does not wrap ends at the exact sum. -/
theorem uartSendAutoCompletes : Obligations.UartSendAutoCompletes := by
  intro s u x buffer length hf hu hauto hend hdata hspan
  have hfirst : (if length = 0 then x.txData else some (s.mem.read buffer)) =
      if 1 ≤ length.toNat then some (s.mem.read buffer) else none := by
    rw [hdata, ← ite_not]
    exact if_congr ((BitVec.toNat_pos length).trans (BitVec.pos_iff_ne_zero length)).symm rfl rfl
  refine ⟨buffer + length, spanLegal_toNat ((spanLegal_iff _ _).2 hspan), ?_⟩
  rw [exec_uartSendAuto hf hu, if_neg (Nat.not_le.2 hspan), if_neg (not_not.2 hauto), if_neg (not_not.2 hend),
    if_neg (not_not.2 hdata), hfirst]
  rfl

/-- Settles O36: the span is checked first, then the mode, then the stream, then the data register. -/
theorem uartSendAutoRefusedOrMisuse : Obligations.UartSendAutoRefusedOrMisuse := by
  intro s u x buffer length hf hu
  rw [exec_uartSendAuto hf hu]
  refine ⟨fun hwraps => ?_, fun hspan => ?_⟩
  · rw [if_pos hwraps]
    rfl
  · rw [if_neg (Nat.not_le.2 hspan)]
    refine ⟨fun hmode => ?_, fun hauto hleft => ?_, fun hauto hend hdata => ?_⟩
    · rw [if_pos hmode]
      exact ⟨_, rfl, rfl⟩
    · rw [if_neg (not_not.2 hauto), if_pos hleft]
      exact ⟨_, rfl, rfl⟩
    · rw [if_neg (not_not.2 hauto), if_neg (not_not.2 hend), if_pos hdata]
      exact ⟨_, rfl, rfl⟩

/-- Settles O37: the receive mode is not read; only `rxFull` decides. -/
theorem uartReceiveFetchTakesTheByte : Obligations.UartReceiveFetchTakesTheByte := by
  intro s u x hf hu
  rw [exec_uartReceiveFetch hf hu]
  refine ⟨fun hfull => ?_, fun hempty => ?_⟩
  · rw [if_neg (by simp [hfull])]
    rfl
  · rw [if_pos hempty]
    exact ⟨_, rfl, rfl⟩

end Sys2Proof.Machine
end

