-- ==== Sys2Proof/Proofs/StreamProgress.lean ====
section
/-!
PROOFS. An auto stream progresses by one for each transmit-empty event (43_uart_event_engine.md R237, R313).

`State.stream?` is the span of a unit's stream. While the stream is outstanding the one effect that moves its cursor is
the unit's own TX-empty handler (`Effect.stream?_advances`, `Effect.stream?_unchanged`): an operation that would rebind
the span needs a stream that has ended. So each step moves the span on by one byte or by none, and a run by as many as
there were invocations.
-/

namespace Sys2Proof.Machine

open Sys2Proof

/-! ### Moving on -/

/-- The span `c` is the span `b` with its cursor moved on by `k` of the bytes that remained. -/
structure TransferBuffer.MovedOn (b : TransferBuffer) (k : Nat) (c : TransferBuffer) : Prop where
  limit : c.limit = b.limit
  start : c.start = b.start
  progress : b.progress.toNat = c.progress.toNat + k

theorem TransferBuffer.MovedOn.refl (b : TransferBuffer) : b.MovedOn 0 b := ⟨rfl, rfl, rfl⟩

theorem TransferBuffer.MovedOn.trans {b c d : TransferBuffer} {j k : Nat} (hbc : b.MovedOn j c) (hcd : c.MovedOn k d) :
    b.MovedOn (k + j) d where
  limit := hcd.limit.trans hbc.limit
  start := hcd.start.trans hbc.start
  progress := by rw [hbc.progress, hcd.progress, Nat.add_assoc]

/-- The cursor of a span with bytes left moves on by one of them, wherever the span lies. -/
theorem TransferBuffer.advance_movedOn {b : TransferBuffer} (h : b.exhausted = false) : b.MovedOn 1 b.advance where
  limit := rfl
  start := rfl
  progress := by
    have hne := b.exhausted_eq_false_iff.1 h
    simp only [TransferBuffer.progress, TransferBuffer.advance_cursor, TransferBuffer.advance_limit]
    bv_omega

/-! ### The span of a unit's stream -/

/-- The span of unit `u`'s stream. -/
def State.stream? (s : State) (u : Byte) : Option TransferBuffer := (s.uart? u).map Uart.txBuf

theorem State.stream?_of_uart? {s : State} {u : Byte} {x : Uart} (h : s.uart? u = some x) :
    s.stream? u = some x.txBuf := by
  rw [State.stream?, h, Option.map_some]

theorem State.stream?_congr {s t : State} (h : t.uarts = s.uarts) (u : Byte) : t.stream? u = s.stream? u := by
  rw [State.stream?, State.stream?, State.uart?, State.uart?, h]

theorem State.stream?_withUart_self {s : State} {u : Byte} {x : Uart} (y : Uart) (h : s.uart? u = some x) :
    (s.withUart u y).stream? u = some y.txBuf :=
  State.stream?_of_uart? (State.uart?_withUart_self y h)

theorem State.stream?_withUart_other (s : State) {u v : Byte} (y : Uart) (h : v ≠ u) :
    (s.withUart v y).stream? u = s.stream? u :=
  congrArg _ (s.uart?_withUart_other y h)

/-- A unit's context that is replaced by one with the same span leaves every stream alone. -/
theorem State.stream?_withUart_of_txBuf {s : State} {v : Byte} {x y : Uart} (hx : s.uart? v = some x)
    (hy : y.txBuf = x.txBuf) (u : Byte) : (s.withUart v y).stream? u = s.stream? u := by
  by_cases hv : v = u
  · subst hv
    rw [State.stream?_withUart_self y hx, State.stream?_of_uart? hx, hy]
  · exact s.stream?_withUart_other y hv

theorem State.stream?_lineStep (s : State) (v : Byte) {f : Uart → Uart} (hf : ∀ x, (f x).txBuf = x.txBuf) (u : Byte) :
    (s.lineStep v f).stream? u = s.stream? u := by
  obtain h | ⟨x, hx, h⟩ := s.lineStep_cases v f <;> rw [h]
  exact State.stream?_withUart_of_txBuf hx (hf x) u

theorem Uart.loadShift_txBuf (x : Uart) : x.loadShift.txBuf = x.txBuf := by
  unfold Uart.loadShift
  repeat' split
  all_goals rfl

theorem Uart.shiftOut_txBuf (x : Uart) : x.shiftOut.txBuf = x.txBuf := by
  unfold Uart.shiftOut
  split <;> rfl

theorem Uart.receive_txBuf (x : Uart) (b : Byte) (keepOld : Bool) : (x.receive b keepOld).txBuf = x.txBuf := by
  unfold Uart.receive
  split <;> rfl

theorem State.performAction_uarts (s : State) (a : Config.Action) : (s.performAction a).uarts = s.uarts := by
  obtain ⟨c, m, h, -⟩ := s.performAction_frame a
  rw [h]

theorem State.busStep_uarts (s : State) (code b : Byte) : (s.busStep code b).uarts = s.uarts := by
  obtain h | ⟨k, -, -, h⟩ := s.busStep_cases code b <;> rw [h]
  exact s.withI2c_uarts _

/-- The TX-empty handler with a stream outstanding moves the cursor on, whether or not a byte is left to send (R231). -/
theorem State.streamNextByte_stream?_self {s : State} {u : Byte} {x y : Uart} (hx : s.uart? u = some x)
    (ha : y.streamActive = true) (hf : (s.streamNextByte u y).fault = none) :
    (s.streamNextByte u y).stream? u = some y.txBuf.advance := by
  obtain ⟨hn, -⟩ | ⟨-, -, h⟩ | ⟨-, -, -, h⟩ | ⟨-, -, -, h⟩ := s.streamNextByte_cases u y
  · cases ha.symm.trans hn
  · rw [h, State.stream?_withUart_self _ hx]
  · rw [h] at hf
    cases hf
  · rw [h, State.stream?_withUart_self _ hx]

/-- The TX-empty handler of one unit leaves the other units' streams alone. -/
theorem State.streamNextByte_stream?_other {s : State} {u v : Byte} {y : Uart} (hv : v ≠ u)
    (hf : (s.streamNextByte v y).fault = none) : (s.streamNextByte v y).stream? u = s.stream? u := by
  obtain ⟨-, h⟩ | ⟨-, -, h⟩ | ⟨-, -, -, h⟩ | ⟨-, -, -, h⟩ := s.streamNextByte_cases v y <;> rw [h] at hf ⊢
  · exact s.stream?_withUart_other _ hv
  · exact s.stream?_withUart_other _ hv
  · cases hf
  · exact s.stream?_withUart_other _ hv

/-! ### A step -/

section
variable {s t : State} {u : Byte} {x : Uart} (hf : t.fault = none) (hu : s.uart? u = some x)
  (ha : x.streamActive = true)
include hf hu ha

/-- An invocation of unit `u`'s TX-empty handler that is no misuse moves the cursor of an outstanding stream on. -/
theorem Effect.stream?_advances (h : Effect s (.txHandler u) t) (hd : s.txDeliverable u = true) :
    t.stream? u = some x.txBuf.advance := by
  cases h with
  | stay _ _ ht => cases hd.symm.trans (ht u rfl)
  | misuse => cases hf
  | txEvent _ z _ hz =>
    obtain rfl := Option.some.inj (hz.symm.trans hu)
    exact State.streamNextByte_stream?_self (y := { z with txEvt := false }) hz ha hf

/-- Any other effect that is no misuse leaves the span of an outstanding stream alone: an operation that would rebind a
span needs the unit's stream to have ended, so it is on another unit. -/
theorem Effect.stream?_unchanged {tn : Turn} (h : Effect s tn t)
    (hno : ¬(tn = .txHandler u ∧ s.txDeliverable u = true)) : t.stream? u = some x.txBuf := by
  have other : ∀ {v : Byte} {z : Uart}, s.uart? v = some z → z.streamActive = false → v ≠ u := by
    rintro v z hz hn rfl
    obtain rfl := Option.some.inj (hz.symm.trans hu)
    cases ha.symm.trans hn
  rw [← State.stream?_of_uart? hu]
  cases h with
  | misuse => cases hf
  | uartInit v z d config txm rxm hz hb =>
    obtain ⟨-, hn⟩ := Bool.or_eq_false_iff.1 hb
    exact s.stream?_withUart_other _ (other hz hn)
  | sendAuto v z b l w hz hl hn => exact s.stream?_withUart_other _ (other hz hn)
  | sendManual v b z hz => exact State.stream?_withUart_of_txBuf hz (by rfl) u
  | fetch v z hz => exact State.stream?_withUart_of_txBuf (y := { z with rxFull := false }) hz rfl u
  | txEvent v z hg hz he =>
    have hv : v ≠ u := by
      rintro rfl
      exact hno ⟨rfl, by simp [State.txDeliverable, hg, hz, he]⟩
    exact State.streamNextByte_stream?_other hv hf
  | rxEvent v z hz => exact State.stream?_withUart_of_txBuf hz (by rfl) u
  | i2cEvent => exact State.stream?_congr (State.performAction_uarts _ _) u
  | bus code b => exact State.stream?_congr (s.busStep_uarts code b) u
  | lineLoad v => exact s.stream?_lineStep v Uart.loadShift_txBuf u
  | lineShift v => exact s.stream?_lineStep v Uart.shiftOut_txBuf u
  | lineReceive v b k => exact s.stream?_lineStep v (fun x => x.receive_txBuf b k) u
  | stay => rfl
  | refuse => rfl
  | answer => rfl
  | memWrite => rfl
  | i2cInit => rfl
  | i2cStart => rfl
  | platform => rfl

end

theorem State.txHandlerNext_iff {s : State} {tn : Turn} {ts : List Turn} (u : Byte)
    (h : s.turns = tn :: ts ∨ (s.turns = [] ∧ tn = .foreground ∧ ts = [])) :
    s.txHandlerNext u = true ↔ tn = .txHandler u ∧ s.txDeliverable u = true := by
  obtain hs | ⟨hs, rfl, -⟩ := h
  · cases tn <;> simp [State.txHandlerNext, hs]
  · simp [State.txHandlerNext, hs]

/-- While unit `u` has a stream outstanding, a step after which no misuse has occurred moves its span on by one byte
when it is an invocation of the unit's TX-empty handler, and by none when it is not. -/
theorem step_stream? {s t : State} (h : step s = .next t) (hf : t.fault = none) {u : Byte} {x : Uart}
    (hu : s.uart? u = some x) (ha : x.streamActive = true) :
    ∃ c, t.stream? u = some c ∧ x.txBuf.MovedOn (if s.txHandlerNext u then 1 else 0) c := by
  obtain ⟨tn, ts, t', p, hturn, he, rfl⟩ := step_effect (fault_none_of_step h hf) h
  have hu' : ({ s with turns := ts } : State).uart? u = some x := hu
  have hinv := State.txHandlerNext_iff u hturn
  by_cases hnext : s.txHandlerNext u = true
  · obtain ⟨rfl, hd⟩ := hinv.1 hnext
    obtain ⟨-, hleft⟩ := x.streamActive_iff.1 ha
    have hmoved : t'.stream? u = some x.txBuf.advance := he.stream?_advances hf hu' ha hd
    rw [if_pos hnext]
    exact ⟨x.txBuf.advance, hmoved, TransferBuffer.advance_movedOn hleft⟩
  · have hkept : t'.stream? u = some x.txBuf := he.stream?_unchanged hf hu' ha (mt hinv.2 hnext)
    rw [if_neg hnext]
    exact ⟨x.txBuf, hkept, .refl _⟩

/-! ### A run -/

/-- The first step of a run of the stream. -/
theorem streamRun_succ {u : Byte} {n k : Nat} {s t : State} (h : streamRun u (n + 1) s = some (t, k)) :
    ∃ x s' k', s.fault = none ∧ s.uart? u = some x ∧ x.streamActive = true ∧ step s = .next s' ∧
      streamRun u n s' = some (t, k') ∧ k = k' + if s.txHandlerNext u then 1 else 0 := by
  unfold streamRun at h
  split at h
  · next hgo =>
    obtain ⟨hf, hactive⟩ := hgo
    obtain ⟨x, hu, ha⟩ := (Option.any_eq_true _ _).1 hactive
    split at h
    · next s' hstep =>
      obtain ⟨⟨t', k'⟩, hrun, hr⟩ := Option.map_eq_some_iff.1 h
      obtain ⟨rfl, rfl⟩ := Prod.mk.inj hr
      exact ⟨x, s', k', hf, hu, ha, hstep, hrun, rfl⟩
    · cases h
    · cases h
  · cases h

/-- A run that ends with no misuse begins with none. -/
theorem streamRun_fault {u : Byte} {n k : Nat} {s t : State} (h : streamRun u n s = some (t, k)) (hf : t.fault = none) :
    s.fault = none := by
  cases n with
  | zero =>
    obtain ⟨rfl, -⟩ := Prod.mk.inj (Option.some.inj h)
    exact hf
  | succ n =>
    obtain ⟨-, -, -, hs, -⟩ := streamRun_succ h
    exact hs

/-- Along a run the span moves on by one byte for each invocation of the TX-empty handler. -/
theorem streamRun_movedOn {u : Byte} {n k : Nat} {s t : State} {b : TransferBuffer} (hb : s.stream? u = some b)
    (hrun : streamRun u n s = some (t, k)) (hf : t.fault = none) : ∃ c, t.stream? u = some c ∧ b.MovedOn k c := by
  induction n generalizing s k b with
  | zero =>
    obtain ⟨rfl, rfl⟩ := Prod.mk.inj (Option.some.inj hrun)
    exact ⟨b, hb, .refl b⟩
  | succ n ih =>
    obtain ⟨x, s', k', -, hu, ha, hstep, hrest, rfl⟩ := streamRun_succ hrun
    obtain rfl := Option.some.inj ((State.stream?_of_uart? hu).symm.trans hb)
    obtain ⟨c, hc, hfirst⟩ := step_stream? hstep (streamRun_fault hrest hf) hu ha
    obtain ⟨d, hd, hlater⟩ := ih hc hrest
    exact ⟨d, hd, hfirst.trans hlater⟩

/-- Settles O58: by induction on the run, the span moves on by one byte per invocation. -/
theorem streamProgressCountsTxEvents : Obligations.StreamProgressCountsTxEvents := by
  intro s t u x n k hu hrun hf
  obtain ⟨c, hc, hmoved⟩ := streamRun_movedOn (State.stream?_of_uart? hu) hrun hf
  obtain ⟨y, hy, rfl⟩ := Option.map_eq_some_iff.1 hc
  exact ⟨y, hy, hmoved.limit, hmoved.start, hmoved.progress⟩

end Sys2Proof.Machine
end

