-- ==== Sys2Proof/Proofs/UartEvents.lean ====
section
/-!
PROOFS. The UART event handlers and the steps of the line (43_uart_event_engine.md R230 to R235). A delivered event is
cleared and its handler's body runs; a line's step is what it does to the unit's context, byte by byte.
-/

namespace Sys2Proof.Machine

open Sys2Proof

/-! ### The handlers (R230 to R232) -/

/-- The body of the TX-empty handler in terms of the unit's fields, in the order of the checks (R231). -/
theorem State.streamNextByte_eq (s : State) (u : Byte) (x : Uart) :
    s.streamNextByte u x = if ¬(x.txMode = .auto ∧ x.txBuf.cursor ≠ x.txBuf.limit) then s.withUart u x
      else if x.txBuf.cursor + 1 = x.txBuf.limit then s.withUart u { x with txBuf := x.txBuf.advance }
      else if x.txData ≠ none then s.raiseMisuse .overrun
      else s.withUart u { x with
        txBuf := x.txBuf.advance
        txData := some (s.mem.read (x.txBuf.cursor + 1)) } := by
  have hquiet : (!x.streamActive) = true ↔ ¬(x.txMode = .auto ∧ x.txBuf.cursor ≠ x.txBuf.limit) := by
    rw [← x.streamActive_iff_cursor, Bool.not_eq_true', Bool.not_eq_true]
  exact if_congr hquiet rfl <| if_congr x.txBuf.advance.exhausted_iff rfl <| if_congr x.not_txEmpty_iff rfl rfl

section
variable {s : State} {u : Byte} {x : Uart} (hf : s.fault = none) (hg : s.gie = true) (hu : s.uart? u = some x)
include hf hg hu

/-- A delivered transmit-empty event is cleared before the body runs (R230). -/
theorem exec_uartTxEmptyEvent (he : x.txEvt = true) :
    exec (.uartTxEmptyEvent u) s = .next (s.streamNextByte u { x with txEvt := false }) := by
  have hd : s.txDeliverable u = true := by simp [State.txDeliverable, hg, hu, he]
  exact (State.perform_onUnit_some hf hu _).trans (congrArg _ (if_pos hd))

theorem exec_uartRxDataEvent (he : x.rxEvt = true) :
    exec (.uartRxDataEvent u) s = .next (s.withUart u { x with rxEvt := false }) := by
  have hd : s.rxDeliverable u = true := by simp [State.rxDeliverable, hg, hu, he]
  exact (State.perform_onUnit_some hf hu _).trans (congrArg _ (if_pos hd))

end

/-- Settles O38: the four ways through the handler's body. -/
theorem txEmptyEventStreamsTheNextByte : Obligations.TxEmptyEventStreamsTheNextByte := by
  intro s u x hf hg hu he next
  rw [exec_uartTxEmptyEvent hf hg hu he, State.streamNextByte_eq]
  refine ⟨fun hquiet => ?_, fun hauto hleft hlast => ?_, fun hauto hleft hmore hempty => ?_,
    fun hauto hleft hmore hfull => ?_⟩
  · rw [if_pos (by rwa [not_and_or, not_not])]
    rfl
  · rw [if_neg (not_not.2 ⟨hauto, hleft⟩), if_pos hlast]
    rfl
  · rw [if_neg (not_not.2 ⟨hauto, hleft⟩), if_neg hmore, if_neg (not_not.2 hempty)]
    rfl
  · rw [if_neg (not_not.2 ⟨hauto, hleft⟩), if_neg hmore, if_pos hfull]
    exact ⟨_, rfl, rfl⟩

/-- Settles O39: clearing the event is all the handler does. -/
theorem rxDataEventOnlyClearsTheEvent : Obligations.RxDataEventOnlyClearsTheEvent :=
  fun _ _ _ hf hg hu he => exec_uartRxDataEvent hf hg hu he

/-! ### The line (R233 to R235) -/

/-- A turn of the line of a unit that exists is what it does with the unit's context. -/
theorem step_line {s : State} {u : Byte} {x : Uart} {tn : Turn} {ts : List Turn} {f : Uart → Uart} (hf : s.fault = none)
    (hu : s.uart? u = some x) (hs : s.turns = tn :: ts)
    (hline : ∀ s : State, s.turnStep tn = s.perform fun s => s.lineStep u f) :
    step s = .next (({ s with turns := ts } : State).withUart u (f x)) := by
  have hf' : ({ s with turns := ts } : State).fault = none := hf
  have hu' : ({ s with turns := ts } : State).uart? u = some x := hu
  simp only [step, hs]
  rw [hline, State.perform_clear hf', State.lineStep, hu']

theorem Uart.loadShift_enabled {x : Uart} {b : Byte} (hen : x.txEn = true) (hd : x.txData = some b)
    (hshift : x.txShift = none) :
    x.loadShift = { x with txShift := some b, txData := none, txEvt := x.txEvt || x.txIe } := by
  simp [Uart.loadShift, hen, hd, hshift]

/-- Load takes no step with the transmitter off, with no byte to load, or with a byte in the shift stage. -/
theorem Uart.loadShift_passes {x : Uart} (h : x.txEn = false ∨ x.txData = none ∨ x.txShift ≠ none) :
    x.loadShift = x := by
  obtain hoff | hempty | hbusy := h
  · simp [Uart.loadShift, hoff]
  · simp [Uart.loadShift, hempty]
  · simp [Uart.loadShift, hbusy]

theorem Uart.shiftOut_enabled {x : Uart} {b : Byte} (h : x.txShift = some b) :
    x.shiftOut = { x with lineOut := x.lineOut ++ [b], txShift := none } := by
  rw [Uart.shiftOut, h]

theorem Uart.shiftOut_passes {x : Uart} (h : x.txShift = none) : x.shiftOut = x := by
  rw [Uart.shiftOut, h]

theorem Uart.receive_enabled {x : Uart} (h : x.rxEn = true) (b : Byte) (keepOld : Bool) :
    x.receive b keepOld = { x with
      rxData := if x.rxFull && keepOld then x.rxData else b
      rxFull := true
      rxEvt := x.rxEvt || x.rxIe } :=
  if_pos h

theorem Uart.receive_passes {x : Uart} (h : x.rxEn = false) (b : Byte) (keepOld : Bool) : x.receive b keepOld = x :=
  if_neg (Bool.not_eq_true _ ▸ h)

/-- Settles O40: load and shift-out, each enabled and not. -/
theorem lineMovesBytesOut : Obligations.LineMovesBytesOut := by
  intro s u x ts hf hu
  refine ⟨fun b hs hen hd hshift => ?_, fun hs hpass => ?_, fun b hs hshift => ?_, fun hs hshift => ?_⟩
  · rw [step_line (f := Uart.loadShift) hf hu hs fun _ => rfl, Uart.loadShift_enabled hen hd hshift]
    rfl
  · rw [step_line (f := Uart.loadShift) hf hu hs fun _ => rfl, Uart.loadShift_passes hpass]
    rfl
  · rw [step_line (f := Uart.shiftOut) hf hu hs fun _ => rfl, Uart.shiftOut_enabled hshift]
    rfl
  · rw [step_line (f := Uart.shiftOut) hf hu hs fun _ => rfl, Uart.shiftOut_passes hshift]
    rfl

/-- Settles O41: on an overrun the turn says which byte is kept. -/
theorem lineReceivesAByte : Obligations.LineReceivesAByte := by
  intro s u b keepOld x ts hf hu hs
  rw [step_line (f := fun x => x.receive b keepOld) hf hu hs fun _ => rfl]
  refine ⟨fun hen => ⟨if x.rxFull && keepOld then x.rxData else b, ?_, fun hfree => ?_, fun hfull hold => ?_,
    fun _ hnew => ?_⟩, fun hoff => ?_⟩
  · rw [Uart.receive_enabled hen]
    rfl
  · rw [hfree, Bool.false_and, if_neg Bool.false_ne_true]
  · rw [hfull, hold, Bool.and_self, if_pos rfl]
  · rw [hnew, Bool.and_false, if_neg Bool.false_ne_true]
  · rw [Uart.receive_passes hoff]
    rfl

end Sys2Proof.Machine
end

