-- ==== Sys2Proof/Proofs/Exceptions.lean ====
section
/-!
PROOFS. Events, misuse and totality (60_exceptions.md): when a handler steps (R265), what an operation leaves after
misuse (R262), and that no step of the machine stops (R260).
-/

namespace Sys2Proof.Machine

open Sys2Proof

/-! ### Event delivery (R265) -/

/-- Words of the event port decode to the operation they encode, whatever the status table (30_encoding.md R93). -/
theorem decode_event_encode (tbl : Config.StatusTable) {i : Instr} (h : i.port = .event) :
    decode tbl .event (encode tbl i) = .ok i := by
  have hstatus : i.port ≠ .status := by simp [h]
  exact (decode_record_iff (by decide)).2 ⟨decodeRecord_encode tbl hstatus, h⟩

section
variable {s : State} {u : Byte} {x : Uart}

theorem State.eventWords_i2cHandler {e : BusEvent} (hg : s.gie = true) (he : s.i2c.event = some e) :
    s.eventWords .i2cHandler = some [0x80, e.status, e.data] := by
  simp [State.eventWords, State.i2cDeliverable, hg, he]

theorem State.eventWords_txHandler (hg : s.gie = true) (hu : s.uart? u = some x) (he : x.txEvt = true) :
    s.eventWords (.txHandler u) = some [0x90, u] := by
  simp [State.eventWords, State.txDeliverable, hg, hu, he]

theorem State.eventWords_rxHandler (hg : s.gie = true) (hu : s.uart? u = some x) (he : x.rxEvt = true) :
    s.eventWords (.rxHandler u) = some [0x91, u] := by
  simp [State.eventWords, State.rxDeliverable, hg, hu, he]

theorem State.eventWords_i2cHandler_none (h : s.gie = false ∨ s.i2c.event = none) :
    s.eventWords .i2cHandler = none := by
  obtain h | h := h <;> simp [State.eventWords, State.i2cDeliverable, h]

theorem State.eventWords_txHandler_none (hu : s.uart? u = some x) (h : s.gie = false ∨ x.txEvt = false) :
    s.eventWords (.txHandler u) = none := by
  obtain h | h := h <;> simp [State.eventWords, State.txDeliverable, hu, h]

theorem State.eventWords_rxHandler_none (hu : s.uart? u = some x) (h : s.gie = false ∨ x.rxEvt = false) :
    s.eventWords (.rxHandler u) = none := by
  obtain h | h := h <;> simp [State.eventWords, State.rxDeliverable, hu, h]

end

section
variable {s : State} {tn : Turn} {ts : List Turn} (hs : s.turns = tn :: ts)
  (hturn : ∀ s : State, s.turnStep tn = s.handlerStep tn)
include hs hturn

/-- In a handler's turn, the operation its words decode to is run. -/
theorem step_handler_delivered {words : List Byte} {i : Instr} (hw : s.eventWords tn = some words)
    (hi : decode s.params.statusTable .event words = .ok i) : step s = exec i { s with turns := ts } := by
  have hw' : ({ s with turns := ts } : State).eventWords tn = some words := hw
  simp only [step, hs, hturn, State.handlerStep, hw', hi]

/-- In a handler's turn without words, the turn passes. -/
theorem step_handler_passes (hf : s.fault = none) (hw : s.eventWords tn = none) :
    step s = .next { s with turns := ts } := by
  have hw' : ({ s with turns := ts } : State).eventWords tn = none := hw
  have hf' : ({ s with turns := ts } : State).fault = none := hf
  simp only [step, hs, hturn, State.handlerStep, hw', State.perform_clear hf', id]

end

/-- Settles O8: the words of each handler are the encoding of its event operation. -/
theorem stepRunsTheDeliveredEvent : Obligations.StepRunsTheDeliveredEvent := by
  intro s ts hg
  refine ⟨fun e hs he => ?_, fun u x hs hu he => ?_, fun u x hs hu he => ?_⟩
  · have hdec := decode_event_encode s.params.statusTable (i := .i2cEvent e.status e.data) rfl
    exact ⟨hdec, step_handler_delivered hs (fun _ => rfl) (State.eventWords_i2cHandler hg he) hdec⟩
  · have hdec := decode_event_encode s.params.statusTable (i := .uartTxEmptyEvent u) rfl
    exact ⟨hdec, step_handler_delivered hs (fun _ => rfl) (State.eventWords_txHandler hg hu he) hdec⟩
  · have hdec := decode_event_encode s.params.statusTable (i := .uartRxDataEvent u) rfl
    exact ⟨hdec, step_handler_delivered hs (fun _ => rfl) (State.eventWords_rxHandler hg hu he) hdec⟩

/-- Settles O9: a handler whose event is not delivered has no words. -/
theorem noHandlerStepWithoutDelivery : Obligations.NoHandlerStepWithoutDelivery := by
  intro s ts hf
  refine ⟨fun hs h => ?_, fun u x hu => ⟨fun hs h => ?_, fun hs h => ?_⟩⟩
  · exact step_handler_passes hs (fun _ => rfl) hf (State.eventWords_i2cHandler_none h)
  · exact step_handler_passes hs (fun _ => rfl) hf (State.eventWords_txHandler_none hu h)
  · exact step_handler_passes hs (fun _ => rfl) hf (State.eventWords_rxHandler_none hu h)

/-! ### After misuse (R262) -/

/-- Settles O46: an operation after misuse draws again, and the name recorded first stays. -/
theorem afterMisuseEveryFieldIsUnspecified : Obligations.AfterMisuseEveryFieldIsUnspecified :=
  fun i _ _ hf => (exec_misused i hf).trans (congrArg _ (State.unspecify_eq_raiseMisuse hf))

/-! ### Every step answers a next state (R260) -/

/-- Every operation is a meaning, which answers the next state of its effect. -/
theorem exec_is_perform (i : Instr) (s : State) : ∃ f, exec i s = s.perform f := by
  cases i <;> exact ⟨_, rfl⟩

theorem exec_answers (i : Instr) (s : State) : ∃ t, exec i s = .next t := by
  obtain ⟨f, h⟩ := exec_is_perform i s
  exact ⟨s.effect f, h⟩

theorem State.issue_answers (s : State) (op : ForegroundOp) : ∃ t, s.issue op = .next t := by
  cases op with
  | command words =>
    simp only [State.issue]
    split
    · exact exec_answers _ s
    · exact ⟨_, rfl⟩
  | memRead a => exact ⟨_, rfl⟩
  | memWrite a v => exact ⟨_, rfl⟩

theorem State.foregroundStep_answers (s : State) : ∃ t, s.foregroundStep = .next t := by
  unfold State.foregroundStep
  split
  · exact ⟨_, rfl⟩
  · rename_i op rest _
    obtain ⟨t, h⟩ := s.issue_answers op
    exact ⟨s.retire rest t, by rw [h, mapNext_next]⟩

theorem State.handlerStep_answers (s : State) (tn : Turn) : ∃ t, s.handlerStep tn = .next t := by
  unfold State.handlerStep
  split
  · exact ⟨_, rfl⟩
  · split
    · exact exec_answers _ s
    · exact ⟨_, rfl⟩

theorem State.turnStep_answers (s : State) (tn : Turn) : ∃ t, s.turnStep tn = .next t := by
  cases tn with
  | foreground => exact s.foregroundStep_answers
  | i2cHandler => exact s.handlerStep_answers _
  | txHandler u => exact s.handlerStep_answers _
  | rxHandler u => exact s.handlerStep_answers _
  | bus code b => exact ⟨_, rfl⟩
  | lineLoad u => exact ⟨_, rfl⟩
  | lineShift u => exact ⟨_, rfl⟩
  | lineReceive u b k => exact ⟨_, rfl⟩
  | platform g => exact ⟨_, rfl⟩

theorem step_answers (s : State) : ∃ t, step s = .next t := by
  unfold step
  split
  · exact s.foregroundStep_answers
  · exact State.turnStep_answers _ _

/-! ### No step changes the number of units -/

theorem State.withUart_unitCount (s : State) (u : Byte) (x : Uart) :
    (s.withUart u x).uarts.length = s.uarts.length := List.length_set

theorem State.unspecify_unitCount (s : State) : s.unspecify.uarts.length = s.uarts.length := List.length_map _

theorem State.raiseMisuse_unitCount (s : State) (m : Misuse) : (s.raiseMisuse m).uarts.length = s.uarts.length :=
  s.unspecify_unitCount

theorem State.lineStep_unitCount (s : State) (u : Byte) (f : Uart → Uart) :
    (s.lineStep u f).uarts.length = s.uarts.length := by
  obtain h | ⟨x, -, h⟩ := s.lineStep_cases u f <;> rw [h]
  exact s.withUart_unitCount u _

theorem State.streamNextByte_unitCount (s : State) (u : Byte) (x : Uart) :
    (s.streamNextByte u x).uarts.length = s.uarts.length := by
  obtain ⟨-, h⟩ | ⟨-, -, h⟩ | ⟨-, -, -, h⟩ | ⟨-, -, -, h⟩ := s.streamNextByte_cases u x <;> rw [h]
  · exact s.withUart_unitCount u _
  · exact s.withUart_unitCount u _
  · exact s.raiseMisuse_unitCount _
  · exact s.withUart_unitCount u _

theorem Effect.unitCount_unchanged {s t : State} {tn : Turn} (h : Effect s tn t) :
    t.uarts.length = s.uarts.length := by
  cases h with
  | misuse _ m => exact s.raiseMisuse_unitCount m
  | uartInit u => exact s.withUart_unitCount u _
  | sendManual u => exact s.withUart_unitCount u _
  | sendAuto u => exact s.withUart_unitCount u _
  | fetch u => exact s.withUart_unitCount u _
  | txEvent u => exact s.streamNextByte_unitCount u _
  | rxEvent u => exact s.withUart_unitCount u _
  | i2cEvent => exact congrArg List.length (State.performAction_uarts _ _)
  | bus code b => exact congrArg List.length (s.busStep_uarts code b)
  | lineLoad u => exact s.lineStep_unitCount u _
  | lineShift u => exact s.lineStep_unitCount u _
  | lineReceive u => exact s.lineStep_unitCount u _
  | stay => rfl
  | refuse => rfl
  | answer => rfl
  | memWrite => rfl
  | i2cInit => rfl
  | i2cStart => rfl
  | platform => rfl

/-- Before misuse the effect of a step keeps the parameters and the units, and a draw after misuse keeps them too. -/
theorem step_keeps_params_and_unitCount {s t : State} (h : step s = .next t) :
    t.params = s.params ∧ t.uarts.length = s.uarts.length := by
  cases hf : s.fault with
  | none =>
    obtain ⟨tn, ts, t', p, -, he, rfl⟩ := step_effect hf h
    exact ⟨he.params_unchanged, he.unitCount_unchanged⟩
  | some m =>
    obtain ⟨p, ts, rfl⟩ := step_misused hf h
    exact ⟨s.unspecify_params, s.unspecify_unitCount⟩

/-- Settles O60: every agent's step answers, and what it answers keeps the parameters and the units. -/
theorem everyStepAnswersANextState : Obligations.EveryStepAnswersANextState := by
  intro s
  obtain ⟨t, h⟩ := step_answers s
  exact ⟨t, h, step_keeps_params_and_unitCount h⟩

end Sys2Proof.Machine
end

section
/-!
PROOFS. What reset puts in the fields for which the spec gives a value (10_state.md R40; 70_reset_and_hazards.md R300),
for all parameters and any number of UART units.
-/

namespace Sys2Proof.Machine

open Sys2Proof

theorem State.resetWith_unitCount (p : Config.Params) (n : Nat) : (State.resetWith p n).uarts.length = n := by
  simp [State.resetWith]

/-- The units after reset are exactly those numbered below `n`, each in its reset context. -/
theorem State.mem_resetWith_uarts {p : Config.Params} {n : Nat} {x : Uart} :
    x ∈ (State.resetWith p n).uarts ↔ ∃ u < n, Uart.reset u = x := by
  simp [State.resetWith]

/-- Settles O53: the I2C context and the block's own fields are the literals of the reset state, and each unit is
`Uart.reset u` for some `u`, whose fields do not depend on `u` apart from the register base. -/
theorem resetLeavesTheBlockIdleAndDisabled : Obligations.ResetLeavesTheBlockIdleAndDisabled := by
  intro p n
  refine ⟨rfl, rfl, rfl, rfl, rfl, rfl, rfl, rfl, rfl, rfl, rfl, State.resetWith_unitCount p n, fun x hx => ?_⟩
  obtain ⟨u, -, rfl⟩ := State.mem_resetWith_uarts.1 hx
  exact ⟨rfl, rfl, rfl, rfl, rfl, rfl, rfl, rfl, rfl, rfl, rfl, rfl, rfl⟩

end Sys2Proof.Machine
end
